-- ==== Sys2Proof/Word.lean ====
section
/-! DEFINITION. The two word types of the block: a byte of a message, frame, slot or store (R10), and the
16-bit value of the CRC register and of a store address (R7, R22). -/

namespace Sys2Proof

/-- 8 bits, unsigned (`00_scope.md` R10). -/
abbrev Byte := BitVec 8

/-- 16 bits, bit 15 most significant (`00_scope.md` R10): the CRC and a store address. -/
abbrev Word := BitVec 16

end Sys2Proof
end

