-- ==== Sys2Proof/Machine/Crc.lean ====
section
/-! DEFINITION. The CRC16 unit: the next-state function at bit, byte and sequence level (`41_crc16.md` R122 to R126), and
the two bytes of a 16-bit value. The variant is the spec's decision D1 (notes/assumptions/13.md). -/

namespace Sys2Proof.Machine

/-- The high byte of a 16-bit value, `v[15:8]`. -/
def hiByte (v : Word) : Byte :=
  v.extractLsb' 8 8

/-- The low byte of a 16-bit value, `v[7:0]`. -/
def loByte (v : Word) : Byte :=
  v.extractLsb' 0 8

/-- `crc_bit(c, d)` (`41_crc16.md` R122). -/
def crcBit (c : Word) (d : Bool) : Word :=
  if c.getLsbD 15 ^^ d then (c <<< 1) ^^^ 0x1021 else c <<< 1

/-- `crc_byte(c, b)` (`41_crc16.md` R123): the eight bits of `b`, most significant first. -/
def crcByte (c : Word) (b : Byte) : Word :=
  let c7 := crcBit c (b.getLsbD 7)
  let c6 := crcBit c7 (b.getLsbD 6)
  let c5 := crcBit c6 (b.getLsbD 5)
  let c4 := crcBit c5 (b.getLsbD 4)
  let c3 := crcBit c4 (b.getLsbD 3)
  let c2 := crcBit c3 (b.getLsbD 2)
  let c1 := crcBit c2 (b.getLsbD 1)
  crcBit c1 (b.getLsbD 0)

/-- The nibble-fold form of the byte step (`41_crc16.md` R124), its shifts in 20 bits. -/
def crcByteNibble (c : Word) (b : Byte) : Word :=
  let x := hiByte c ^^^ b
  let x := x ^^^ (x >>> 4)
  let x := x.setWidth 20
  ((c.setWidth 20 <<< 8) ^^^ (x <<< 12) ^^^ (x <<< 5) ^^^ x).setWidth 16

/-- The parallel form of the byte step (`41_crc16.md` R125): its sixteen bits, `n[15]` first. -/
def crcByteParallel (c : Word) (b : Byte) : Word :=
  let t := (hiByte c ^^^ b).getLsbD
  let c := c.getLsbD
  BitVec.ofBoolListBE
    [ c 7 ^^ t 7 ^^ t 3, c 6 ^^ t 6 ^^ t 2, c 5 ^^ t 5 ^^ t 1, c 4 ^^ t 7 ^^ t 4 ^^ t 0,
      c 3 ^^ t 6, c 2 ^^ t 5, c 1 ^^ t 4, c 0 ^^ t 7 ^^ t 3,
      t 7 ^^ t 6 ^^ t 2, t 6 ^^ t 5 ^^ t 1, t 5 ^^ t 4 ^^ t 0, t 4,
      t 7 ^^ t 3, t 6 ^^ t 2, t 5 ^^ t 1, t 4 ^^ t 0 ]

/-- `crc_fold(c, s)` (`41_crc16.md` R126). -/
def crcFold (c : Word) : List Byte → Word
  | [] => c
  | b :: rest => crcFold (crcByte c b) rest

/-- `crc16(s)` (`41_crc16.md` R126). -/
def crc16 (s : List Byte) : Word :=
  crcFold 0xFFFF s

end Sys2Proof.Machine
end

