-- ==== Sys2Proof/Machine/Codec.lean ====
section
/-! DEFINITION. The record codec as pure functions: encode (`42_record_codec.md` R151) and decode (R155). -/

namespace Sys2Proof.Machine

/-- The payload of a message: its first 61 bytes (`30_encoding.md` R96, `42_record_codec.md` R151). -/
def payload (m : List Byte) : List Byte :=
  m.take 61

/-- The record of a payload: payload, terminator, CRC high byte, CRC low byte (R151, `20_memory.md` R54, R60). -/
def record (p : List Byte) : List Byte :=
  let v := crc16 (p ++ [0x00])
  p ++ [0x00] ++ [hiByte v] ++ [loByte v]

/-- `encode(m)` (`42_record_codec.md` R151); `none` is the failure InvalidInput. -/
def encodeRecord (m : List Byte) : Option (List Byte) :=
  if m.length = 0 then none else some (record (payload m))

/-- The verdict of decode: the string of a valid slot, or Invalid (R155, `60_exceptions.md` R234). -/
inductive Verdict where
  | valid (s : List Byte)
  | invalid
deriving DecidableEq, Repr

/-- The first two tests of R155: the least index in 1 .. 61 that holds 0x00, provided byte 0 is not 0x00. -/
def terminatorIndex (B : List Byte) : Option Nat :=
  if B[0]? = some 0x00 then none
  else (List.range' 1 61).find? fun i => B[i]? = some 0x00

/-- `decode(B)` (`42_record_codec.md` R155). -/
def decodeRecord (B : List Byte) : Verdict :=
  match terminatorIndex B with
  | none => .invalid
  | some i =>
    let v := crc16 (B.take (i + 1))
    if B[i + 1]? = some (hiByte v) ∧ B[i + 2]? = some (loByte v) then .valid (B.take i) else .invalid

/-- The register `CRC` after decode: the recomputed CRC when the third test was reached, else unchanged (R155). -/
def decodeCrc (B : List Byte) (old : Word) : Word :=
  match terminatorIndex B with
  | none => old
  | some i => crc16 (B.take (i + 1))

end Sys2Proof.Machine
end

