-- ==== Sys2Proof/Config.lean ====
section
/-! DEFINITION. The parameters the source leaves to the implementation (`00_scope.md` R8). They are fixed
when the block is built (`10_state.md` R31, R35); State carries them as plain data that no step writes, so that
a statement about every state is a statement about every value of the parameters (notes/assumptions/1.md).

R7's constants stand as numerals where the rules write them so: `SLOT_SIZE` 64, `MAX_PAYLOAD` 61, `CRC_INIT` 0xFFFF,
`LOG_BASE` 0, `ADDR_WIDTH` 16, `ERASE_VALUE` and `TERMINATOR` 0x00. -/

namespace Sys2Proof

/-- `00_scope.md` R8. -/
structure Config where
  /-- `MAX_ENTRIES`, the number of slots (D3). -/
  maxEntries : Nat
  /-- `STORE_SIZE`, the number of bytes of the store (D4). -/
  storeSize : Nat
  /-- `AUTO_RECOVER` (D6, `70_reset_and_hazards.md` R263). -/
  autoRecover : Bool
  /-- `T_SETTLE`, a positive duration in a unit the spec does not give (D13). No definition reads it (R280). -/
  tSettle : Nat
deriving DecidableEq, Repr

/-- The ranges of R8: `1 <= MAX_ENTRIES <= 1024`, `MAX_ENTRIES * 64 <= STORE_SIZE <= 65536`, `T_SETTLE` positive. -/
abbrev Config.wf (c : Config) : Prop :=
  1 ≤ c.maxEntries ∧ c.maxEntries ≤ 1024 ∧ c.maxEntries * 64 ≤ c.storeSize ∧ c.storeSize ≤ 65536 ∧ 0 < c.tSettle

/-- R8's reference values: 32 entries, no automatic recovery. The store size (the least R8 allows) and the settle
delay have none: DESIGN CHOICE, notes/assumptions/1.md (unsafe). -/
def Config.reference : Config :=
  { maxEntries := 32, storeSize := 2048, autoRecover := false, tSettle := 1 }

/-- The byte of a store address that nothing has written: DESIGN CHOICE 0xFF, notes/assumptions/3.md (unsafe). The
spec leaves the first contents open (`10_state.md` R36, R264) and names 0xFF as a common factory state (R157 e). -/
def Config.unwritten : Byte := 0xFF

end Sys2Proof
end

