-- ==== Sys2Proof/Syntax.lean ====
section
/-! DEFINITION. The instructions: the nine host commands of the opcode table (`00_scope.md` R5,
`30_encoding.md` R90, R98). An opcode outside the table is no instruction; `Cmd.illegal` of Decode names it. -/

namespace Sys2Proof

/-- One constructor per row of `spec/opcode_table.json` (`30_encoding.md` R98). -/
inductive Instr where
  /-- 0x00, format Z (`44_system.md` R220). -/
  | nop
  /-- 0x01, format S: the message operand `m` (`43_log_fsm.md` R177, `30_encoding.md` R96). -/
  | append (m : List Byte)
  /-- 0x02, format Z (`43_log_fsm.md` R183). -/
  | readall
  /-- 0x03, format Z (`43_log_fsm.md` R187). -/
  | eraseall
  /-- 0x04, format Z (`43_log_fsm.md` R190). -/
  | recover
  /-- 0x05, format Z (`44_system.md` R221). -/
  | getidx
  /-- 0x10, format Z (`41_crc16.md` R128). -/
  | crcinit
  /-- 0x11, format B: the data byte `imm8` (`41_crc16.md` R129, `30_encoding.md` R97). -/
  | crcbyte (imm8 : Byte)
  /-- 0x12, format Z (`41_crc16.md` R130). -/
  | crcread
deriving DecidableEq, Repr

end Sys2Proof
end

