-- ==== Sys2Proof/WellFormed.lean ====
section
/-! DEFINITION. Which terms of Instr a command frame can carry: a message holds no 0x00 byte
(`30_encoding.md` R94, R96); every value of `imm8` is allowed (R93). -/

namespace Sys2Proof

/-- A message: a finite byte sequence, every byte in 0x01 .. 0xFF, of any length (`30_encoding.md` R96). -/
def isMessage (m : List Byte) : Bool :=
  m.all (· ≠ 0)

/-- An instruction that some frame encodes. -/
def Instr.wellFormed : Instr → Bool
  | .nop => true
  | .append m => isMessage m
  | .readall => true
  | .eraseall => true
  | .recover => true
  | .getidx => true
  | .crcinit => true
  | .crcbyte _ => true
  | .crcread => true

end Sys2Proof
end

