-- ==== Sys2Proof/Decode.lean ====
section
/-! DEFINITION. Command frames (`30_encoding.md` R90 to R100): the decoder of the head of a byte stream, the
encoder, the frame a row of the opcode table stands for, and the frames of a stream that are whole. -/

namespace Sys2Proof

/-- The commands of R90: an instruction of the table, or an opcode byte outside it, by name (R99). -/
inductive Cmd where
  | instr (i : Instr)
  | illegal (op : Byte)
deriving DecidableEq, Repr

/-- Format S after the opcode (R94): the bytes before the first 0x00, and what follows that 0x00; nothing when there
is no 0x00 yet. -/
def splitMessage : List Byte → Option (List Byte × List Byte)
  | [] => none
  | b :: rest =>
    if b = 0 then some ([], rest)
    else (splitMessage rest).map fun (m, tail) => (b :: m, tail)

/-- `decode_frame` (R95): the command at the head of the stream and the bytes after its frame; `none` when the stream
is empty or its first frame is incomplete. -/
def decodeFrame : List Byte → Option (Cmd × List Byte)
  | [] => none
  | op :: rest =>
    if op = 0x00 then some (.instr .nop, rest)
    else if op = 0x01 then (splitMessage rest).map fun (m, tail) => (.instr (.append m), tail)
    else if op = 0x02 then some (.instr .readall, rest)
    else if op = 0x03 then some (.instr .eraseall, rest)
    else if op = 0x04 then some (.instr .recover, rest)
    else if op = 0x05 then some (.instr .getidx, rest)
    else if op = 0x10 then some (.instr .crcinit, rest)
    else if op = 0x11 then
      match rest with
      | [] => none
      | b :: tail => some (.instr (.crcbyte b), tail)
    else if op = 0x12 then some (.instr .crcread, rest)
    else some (.illegal op, rest)

/-- The opcode map (R98). -/
def opcode : Instr → Byte
  | .nop => 0x00
  | .append _ => 0x01
  | .readall => 0x02
  | .eraseall => 0x03
  | .recover => 0x04
  | .getidx => 0x05
  | .crcinit => 0x10
  | .crcbyte _ => 0x11
  | .crcread => 0x12

/-- The bytes after the opcode: none in format Z (R92), `imm8` in format B (R93), the message and its terminator in
format S (R94). -/
def operandBytes : Instr → List Byte
  | .append m => m ++ [0x00]
  | .crcbyte b => [b]
  | .nop => []
  | .readall => []
  | .eraseall => []
  | .recover => []
  | .getidx => []
  | .crcinit => []
  | .crcread => []

/-- The frame of a command (R91). -/
def encode (i : Instr) : List Byte :=
  opcode i :: operandBytes i

/-- The frame of any command of R90: an illegal opcode is a frame of one byte (R99). -/
def encodeCmd : Cmd → List Byte
  | .instr i => encode i
  | .illegal op => [op]

/-- The first `n` frames of a stream, as far as they are whole. -/
def takeFrames : Nat → List Byte → List Byte
  | 0, _ => []
  | n + 1, s =>
    match decodeFrame s with
    | none => []
    | some (_, rest) => s.take (s.length - rest.length) ++ takeFrames n rest

/-- The stream without the incomplete frame at its end, if it ends in one (`70_reset_and_hazards.md` R260; every frame
has a byte at least, so the length bounds the number of frames). -/
def completeFrames (s : List Byte) : List Byte :=
  takeFrames s.length s

/-- The bytes of a frame whose bits are `w`, bit 0 the least significant bit of the first byte, and after them one
0x00, the byte that always ends an incomplete frame (R100). -/
def tableBytes (nbits w : Nat) : List Byte :=
  (List.range ((nbits + 7) / 8)).map (fun k => BitVec.ofNat 8 (w >>> (8 * k))) ++ [0x00]

/-- The first frame of `tableBytes`, without what follows it. -/
def tableFrame (nbits w : Nat) : List Byte :=
  takeFrames 1 (tableBytes nbits w)

/-- The instruction read from a frame whose bits are `w`, numbered as `spec/opcode_table.json` numbers them. -/
def decodeTableWord (nbits w : Nat) : Option Instr :=
  match decodeFrame (tableBytes nbits w) with
  | some (.instr i, _) => some i
  | some (.illegal _, _) => none
  | none => none

end Sys2Proof
end

