-- ==== Sys2Proof/Machine/State.lean ====
section
/-! DEFINITION. The state of the machine as plain data: the engine's registers, the store, the response
stream, the command port, the parameters, and the environment's coming choices (`10_state.md` R20 to R36). -/

namespace Sys2Proof.Machine

/-- The six control states (`10_state.md` R28); the list is closed. -/
inductive Phase where
  | idle
  | aErase
  | aWrite
  | rRead
  | eWrite
  | vRead
deriving DecidableEq, Repr

/-- The status codes (`30_encoding.md` R103). -/
inductive Status where
  | ok
  | invalidInput
  | ioError
  | illegalCommand
deriving DecidableEq, Repr

/-- The response frames (`30_encoding.md` R101). -/
inductive Rsp where
  | str (s : List Byte)
  | u16 (v : Word)
  | status (c : Status)
deriving DecidableEq, Repr

/-- The slot buffer `BUF[0..63]` (`10_state.md` R23). -/
abbrev Buf := Vector Byte 64

/-- The store's answer to one transaction (`20_memory.md` R66): success, IOError, or no answer. `left` is the byte a
failed write leaves at its address, any value (R64); a failed read has no use for it. -/
inductive Answer where
  | ok
  | err (left : Byte)
  | none
deriving DecidableEq, Repr

/-- One move of one agent (`60_exceptions.md` R252). -/
inductive Move where
  /-- The engine takes its step; if that makes a store transaction, the store answers `a`. -/
  | engine (a : Answer)
  /-- The host presents bytes on the command port (R90). -/
  | present (bs : List Byte)
  /-- Power is lost (R251, R261). -/
  | powerLoss
  /-- The reset event (`70_reset_and_hazards.md` R260), at power-on or without loss of power. `len` and `buf` are the
  unspecified values it leaves in `LEN` and `BUF`. -/
  | reset (len : BitVec 6) (buf : Buf)
  /-- `ExtWrite(addr, v)` of another master (`20_memory.md` R69). -/
  | extWrite (addr : Word) (v : Byte)
  /-- `ExtRead(addr)` of another master. -/
  | extRead (addr : Word)
deriving DecidableEq, Repr

/-- The store's listed bytes: (address, byte) pairs in the canonical form `Memory.wf` of Ops. -/
abbrev Memory := List Host.Cell

/-- The state. Every field but the last two is the spec's; `script` and `thereafter` are the model's own: the free
choices of the environment, which every claim quantifies over (`10_state.md` R35, notes/assumptions/4.md). -/
structure State where
  /-- The parameters; no step writes them (R35). -/
  config : Config
  /-- R251: whether the block has power. -/
  powered : Bool
  /-- R28. -/
  phase : Phase
  /-- R21: the next write index. -/
  nwi : Nat
  /-- R22: the CRC accumulator. -/
  crc : Word
  /-- R23: the slot buffer. -/
  buf : Buf
  /-- R24: the payload length of the record being appended. -/
  len : Nat
  /-- R25: the slot index counter. -/
  si : Nat
  /-- R26: the byte counter. -/
  bc : Nat
  /-- R20 b, `20_memory.md` R50: the persistent store. -/
  store : Memory
  /-- R20 c, `30_encoding.md` R101: every frame emitted so far, oldest first. -/
  out : List Rsp
  /-- `30_encoding.md` R90: the bytes the host has presented and the block has not accepted, oldest first. -/
  port : List Byte
  /-- The environment's coming moves, next first. -/
  script : List Move
  /-- What the store answers once `script` is used up. -/
  thereafter : Answer
deriving DecidableEq, Repr

/-- Why the machine stops. No run from reset reaches either (statement EngineNeverFaults). -/
inductive Fault where
  /-- Raised by a store transaction of the engine at an address at or above `STORE_SIZE`, which the store lacks
  (`20_memory.md` R51). Safe: the model stops where the spec states nothing. -/
  | noSuchAddress (addr : Nat)
  /-- Raised by `A_WRITE`, `R_READ` and `V_READ` when `BC` lies outside `BUF` (`43_log_fsm.md` R173). Safe: the model
  stops where the spec states nothing. -/
  | bufferOffset (bc : Nat)
deriving DecidableEq, Repr

/-- What has no transition. -/
inductive Refusal where
  /-- An instruction without a meaning. Raised by no arm of this model. Safe. -/
  | notModelled (mnemonic : String)
  /-- Raised by every instruction when the engine is not in `IDLE` or has no power: the accept step is not enabled
  (`43_log_fsm.md` R175, U13 "refuse"). `step` never asks for it. Safe. -/
  | portNotReady
  /-- Raised by the moves ExtWrite and ExtRead when the engine is not in `IDLE` or has no power (`20_memory.md` R69,
  U14 "refuse"). Unsafe: a system that breaks the discipline is outside every claim (D26). -/
  | foreignAccess
  /-- Raised by the moves ExtWrite and ExtRead at an address the store lacks (U15 "refuse"). Safe. -/
  | foreignAddress (addr : Nat)
deriving DecidableEq, Repr

/-- The engine accepts a frame, and other masters may move: powered, and `PHASE = IDLE` (`43_log_fsm.md` R175). -/
abbrev State.ready (s : State) : Prop :=
  s.powered = true ∧ s.phase = .idle

/-- The machine right after reset, with the reference parameters (`10_state.md` R36). `BUF` and `LEN`, which R36 leaves
unspecified, are zero: DESIGN CHOICE, notes/assumptions/2.md. `script` and `thereafter` are the model's own: DESIGN
CHOICE, notes/assumptions/4.md. -/
def State.reset : State where
  config := Config.reference
  powered := true
  phase := .idle
  nwi := 0
  crc := 0xFFFF
  buf := Vector.replicate 64 0
  len := 0
  si := 0
  bc := 0
  store := []
  out := []
  port := []
  script := []
  thereafter := .ok

end Sys2Proof.Machine
end

