-- ==== Sys2Proof/Machine/Flags.lean ====
section
/-! DEFINITION. The block has no condition codes and no sticky status flags (`10_state.md` R30), so no flag is computed
anywhere. What a command reports is its status; its code and byte are `30_encoding.md` R103. -/

namespace Sys2Proof.Machine

/-- `code(c)` (R103). -/
def Status.code : Status → Byte
  | .ok => 0
  | .invalidInput => 1
  | .ioError => 2
  | .illegalCommand => 3

/-- The byte of a status frame, `0x80 | code(c)` (R103). -/
def Status.byte (c : Status) : Byte :=
  0x80 ||| c.code

/-- The status whose byte this is; the bytes 0x84 .. 0xFF are never emitted (R103). -/
def Status.ofByte (b : Byte) : Option Status :=
  if b = 0x80 then some .ok
  else if b = 0x81 then some .invalidInput
  else if b = 0x82 then some .ioError
  else if b = 0x83 then some .illegalCommand
  else none

end Sys2Proof.Machine
end

