-- ==== Sys2Proof/Machine/Response.lean ====
section
/-! DEFINITION. The response port at the byte level (`30_encoding.md` R101 to R105): the bytes of a frame, and the host's
reading of a stream by its tags. -/

namespace Sys2Proof.Machine

/-- The bytes of a response frame (R102, R103, R104). -/
def Rsp.bytes : Rsp → List Byte
  | .str s => 0x01 :: (s ++ [0x00])
  | .u16 v => [0x02, hiByte v, loByte v]
  | .status c => [c.byte]

/-- The response port's bytes, in emission order (R101). -/
def responseBytes (out : List Rsp) : List Byte :=
  out.flatMap Rsp.bytes

/-- A frame the block may emit: a string has 1 to 61 bytes, none 0x00 (R101). -/
def Rsp.wellFormed : Rsp → Bool
  | .str s => 1 ≤ s.length && s.length ≤ 61 && isMessage s
  | .u16 _ => true
  | .status _ => true

/-- The host's reading of the head of the stream by its tag (R105). -/
def parseResponse : List Byte → Option (Rsp × List Byte)
  | [] => none
  | tag :: rest =>
    if tag = 0x01 then (splitMessage rest).map fun (s, tail) => (.str s, tail)
    else if tag = 0x02 then
      match rest with
      | hi :: lo :: tail => some (.u16 (hi ++ lo), tail)
      | _ => none
    else (Status.ofByte tag).map fun c => (.status c, rest)

end Sys2Proof.Machine
end

