-- ==== Sys2Proof/Machine/Ops.lean ====
section
/-! DEFINITION. The named operations over the store, the response stream and the control state: reading and
writing one byte, emitting a frame, raising an error (the block's exception entry, `60_exceptions.md` R238) and the
ordinary end of a command, the store transactions (`20_memory.md` R63, R64) and the accept step's guard. -/

namespace Sys2Proof.Machine

/-- `Store[a]`: the listed byte, or what an unlisted address reads as (`20_memory.md` R50, notes/assumptions/3.md). -/
def Memory.read : Memory → Nat → Byte
  | [], _ => Config.unwritten
  | (b, w) :: rest, a => if a = b then w else Memory.read rest a

/-- `Store[a] <- v`, keeping the canonical form: a byte equal to what an unlisted address reads as is not listed. -/
def Memory.write : Memory → Nat → Byte → Memory
  | [], a, v => if v = Config.unwritten then [] else [(a, v)]
  | (b, w) :: rest, a, v =>
    if a < b then (if v = Config.unwritten then (b, w) :: rest else (a, v) :: (b, w) :: rest)
    else if a = b then (if v = Config.unwritten then rest else (a, v) :: rest)
    else (b, w) :: Memory.write rest a v

/-- Every listed address is above `low`, rising strictly, and no listed byte is what an unlisted address reads as. -/
def Memory.wfFrom : Nat → Memory → Bool
  | _, [] => true
  | low, (a, v) :: rest => low ≤ a && v ≠ Config.unwritten && Memory.wfFrom (a + 1) rest

/-- The canonical form: strictly rising addresses, nothing listed that reads the same unlisted. -/
def Memory.wf (m : Memory) : Bool :=
  Memory.wfFrom 0 m

/-- The store address of byte `offset` of slot `slot` (`20_memory.md` R53, `43_log_fsm.md` R171; `LOG_BASE` is 0). -/
def slotAddr (slot offset : Nat) : Nat :=
  slot * 64 + offset

/-- The 64 bytes of slot `k` (`20_memory.md` R53). -/
def slotBytes (m : Memory) (k : Nat) : List Byte :=
  (List.range 64).map fun j => Memory.read m (slotAddr k j)

/-- `emit F` (`00_scope.md` R14). -/
def emit (f : Rsp) (s : State) : State :=
  { s with out := s.out ++ [f] }

/-- `raise E`: the entry of an error, shared by all commands (`60_exceptions.md` R238). Nothing is saved; one status
frame is emitted and the engine is in `IDLE`. There is no return operation (R241). -/
def raise (e : Status) (s : State) : State :=
  { emit (.status e) s with phase := .idle }

/-- The end of a command that ran through: `emit STATUS(OK)`, `PHASE <- IDLE`. -/
def finish (s : State) : State :=
  { emit (.status .ok) s with phase := .idle }

/-- One read transaction (`20_memory.md` R63). On IOError the command ends with that status and the engine's registers
keep their values; without an answer the engine waits (R66). -/
def readTransaction (addr : Nat) (a : Answer) (onOk : Byte → State) (s : State) : Host.Outcome State Fault Refusal :=
  if addr < s.config.storeSize then
    match a with
    | .ok => .next (onOk (Memory.read s.store addr))
    | .err _ => .next (raise .ioError s)
    | .none => .next s
  else .fault (.noSuchAddress addr)

/-- One write transaction (`20_memory.md` R64). On IOError the addressed byte holds whatever the environment left
there; without an answer the engine waits (R66). -/
def writeTransaction (addr : Nat) (v : Byte) (a : Answer) (onOk : State → State) (s : State) :
    Host.Outcome State Fault Refusal :=
  if addr < s.config.storeSize then
    match a with
    | .ok => .next (onOk { s with store := Memory.write s.store addr v })
    | .err left => .next (raise .ioError { s with store := Memory.write s.store addr left })
    | .none => .next s
  else .fault (.noSuchAddress addr)

/-- The accept step's guard (`43_log_fsm.md` R175): a command is executed only by a powered engine in `IDLE`. -/
def accept (f : State → State) (s : State) : Host.Outcome State Fault Refusal :=
  if s.ready then .next (f s) else .refused .portNotReady

end Sys2Proof.Machine
end

