-- ==== Sys2Proof/Machine/CrcUnit.lean ====
section
/-! DEFINITION. The commands of the CRC16 unit (`41_crc16.md` R128 to R130), each executed in its accept step. -/

namespace Sys2Proof.Machine

/-- CRCINIT (`41_crc16.md` R128). -/
def execCrcinit (s : State) : Host.Outcome State Fault Refusal :=
  accept (fun s => finish { s with crc := 0xFFFF }) s

/-- CRCBYTE (`41_crc16.md` R129). -/
def execCrcbyte (imm8 : Byte) (s : State) : Host.Outcome State Fault Refusal :=
  accept (fun s => finish { s with crc := crcByte s.crc imm8 }) s

/-- CRCREAD (`41_crc16.md` R130). -/
def execCrcread (s : State) : Host.Outcome State Fault Refusal :=
  accept (fun s => finish (emit (.u16 s.crc) s)) s

end Sys2Proof.Machine
end

