-- ==== Sys2Proof/Machine/Operands.lean ====
section
/-! DEFINITION. The operand of APPEND on its way into the engine: loading the payload into `BUF` and `LEN`
(`30_encoding.md` R96) and completing the record in place (`42_record_codec.md` R151). The one other operand, `imm8` of
CRCBYTE, is used as it stands (R97). -/

namespace Sys2Proof.Machine

/-- `BUF[i : i + len(bs)) <- bs` (`00_scope.md` R12). Offsets outside the buffer do not occur (R173). -/
def Buf.put (b : Buf) (i : Nat) : List Byte → Buf
  | [] => b
  | v :: rest => Buf.put (b.setIfInBounds i v) (i + 1) rest

/-- `LEN <- min(len(m), 61); BUF[0:LEN) <- m[0:LEN)` (`30_encoding.md` R96, `43_log_fsm.md` R175). -/
def loadMessage (m : List Byte) (s : State) : State :=
  { s with len := (payload m).length, buf := Buf.put s.buf 0 (payload m) }

/-- The rest of encode, in the engine (`42_record_codec.md` R151): the terminator, the CRC of payload and terminator
into `CRC`, and its two bytes into `BUF`. -/
def encodeInPlace (s : State) : State :=
  let v := crc16 (s.buf.toList.take s.len ++ [0x00])
  { s with crc := v, buf := Buf.put s.buf s.len [0x00, hiByte v, loByte v] }

/-- `do encode; BC <- 0; PHASE <- A_WRITE` (`43_log_fsm.md` R174, R175). -/
def startRecord (s : State) : State :=
  { encodeInPlace s with bc := 0, phase := .aWrite }

end Sys2Proof.Machine
end

