-- ==== Sys2Proof/Machine/Log.lean ====
section
/-! DEFINITION. The accept steps of the log commands (`43_log_fsm.md` R175). Their store transactions are the
engine's later steps, in Engine. -/

namespace Sys2Proof.Machine

/-- APPEND (`43_log_fsm.md` R175, R177). The emptiness test comes before the wrap test (`90_conflicts.md` C1). -/
def execAppend (m : List Byte) (s : State) : Host.Outcome State Fault Refusal :=
  accept (fun s =>
    if m.length = 0 then raise .invalidInput s
    else if s.config.maxEntries ≤ s.nwi then { loadMessage m s with si := 0, phase := .aErase }
    else startRecord (loadMessage m s)) s

/-- READALL (`43_log_fsm.md` R175, R183). -/
def execReadall (s : State) : Host.Outcome State Fault Refusal :=
  accept (fun s => { s with si := 0, bc := 0, phase := .rRead }) s

/-- ERASEALL (`43_log_fsm.md` R175, R187). -/
def execEraseall (s : State) : Host.Outcome State Fault Refusal :=
  accept (fun s => { s with si := 0, phase := .eWrite }) s

/-- RECOVER (`43_log_fsm.md` R175, R190). -/
def execRecover (s : State) : Host.Outcome State Fault Refusal :=
  accept (fun s => { s with si := 0, bc := 0, phase := .vRead }) s

end Sys2Proof.Machine
end

