-- ==== Sys2Proof/Machine/System.lean ====
section
/-! DEFINITION. The system commands and the answer to an illegal opcode (`44_system.md` R220 to R222). -/

namespace Sys2Proof.Machine

/-- NOP (`44_system.md` R220). -/
def execNop (s : State) : Host.Outcome State Fault Refusal :=
  accept finish s

/-- GETIDX (`44_system.md` R221): `NWI` zero-extended to 16 bits. -/
def execGetidx (s : State) : Host.Outcome State Fault Refusal :=
  accept (fun s => finish (emit (.u16 (BitVec.ofNat 16 s.nwi)) s)) s

/-- ILLEGAL(op) (`44_system.md` R222): the opcode is not echoed (`60_exceptions.md` R233). -/
def execIllegal (_op : Byte) (s : State) : Host.Outcome State Fault Refusal :=
  accept (raise .illegalCommand) s

end Sys2Proof.Machine
end

