-- ==== Sys2Proof/Machine/Dispatch.lean ====
section
/-! DEFINITION. The accept step by command (`43_log_fsm.md` R175): one meaning per row of the opcode table. -/

namespace Sys2Proof.Machine

def exec (i : Instr) (s : State) : Host.Outcome State Fault Refusal :=
  match i with
  | .nop => Sys2Proof.Machine.execNop s
  | .append m => Sys2Proof.Machine.execAppend m s
  | .readall => Sys2Proof.Machine.execReadall s
  | .eraseall => Sys2Proof.Machine.execEraseall s
  | .recover => Sys2Proof.Machine.execRecover s
  | .getidx => Sys2Proof.Machine.execGetidx s
  | .crcinit => Sys2Proof.Machine.execCrcinit s
  | .crcbyte imm8 => Sys2Proof.Machine.execCrcbyte imm8 s
  | .crcread => Sys2Proof.Machine.execCrcread s

end Sys2Proof.Machine
end

