-- ==== Sys2Proof/Machine/Engine.lean ====
section
/-! DEFINITION. The engine's transaction steps: the rows of the step table (`43_log_fsm.md` R174) but `IDLE`, one
definition a row, and the transaction each makes (`10_state.md` R28). `a` is the store's answer. -/

namespace Sys2Proof.Machine

/-- A store transaction as the store port sees it (`00_scope.md` R13). -/
inductive Transaction where
  | read (addr : Nat)
  | write (addr : Nat) (v : Byte)
deriving DecidableEq, Repr

/-- The address of a transaction. -/
def Transaction.addr : Transaction → Nat
  | .read a => a
  | .write a _ => a

/-- The transaction the engine's next step makes in this state (`10_state.md` R28, last column). -/
def State.transaction (s : State) : Option Transaction :=
  match s.phase with
  | .idle => none
  | .aErase => some (.write (slotAddr s.si 0) 0x00)
  | .aWrite => (s.buf[s.bc]?).map fun v => .write (slotAddr s.nwi s.bc) v
  | .rRead => some (.read (slotAddr s.si s.bc))
  | .eWrite => some (.write (slotAddr s.si 0) 0x00)
  | .vRead => some (.read (slotAddr s.si s.bc))

/-- Row `A_ERASE`: one slot of the wraparound erase (R178). -/
def stepAErase (a : Answer) (s : State) : Host.Outcome State Fault Refusal :=
  writeTransaction (slotAddr s.si 0) 0x00 a (fun s =>
    if s.si + 1 < s.config.maxEntries then { s with si := s.si + 1 }
    else startRecord { s with si := s.config.maxEntries, nwi := 0 }) s

/-- Row `A_WRITE`: one byte of the record (R180, R181). -/
def stepAWrite (a : Answer) (s : State) : Host.Outcome State Fault Refusal :=
  match s.buf[s.bc]? with
  | none => .fault (.bufferOffset s.bc)
  | some v =>
    writeTransaction (slotAddr s.nwi s.bc) v a (fun s =>
      if s.bc + 1 < s.len + 3 then { s with bc := s.bc + 1 }
      else finish { s with bc := s.bc + 1, nwi := s.nwi + 1 }) s

/-- Row `E_WRITE`: one slot of ERASEALL (R187). -/
def stepEWrite (a : Answer) (s : State) : Host.Outcome State Fault Refusal :=
  writeTransaction (slotAddr s.si 0) 0x00 a (fun s =>
    if s.si + 1 < s.config.maxEntries then { s with si := s.si + 1 }
    else finish { s with si := s.config.maxEntries }) s

/-- One byte of the slot read (R184), shared by `R_READ` and `V_READ`: the byte goes into `BUF`; with the 64th the slot is
decoded, which may write `CRC` (`42_record_codec.md` R155), and `onSlot` continues with the verdict. -/
def slotReadStep (onSlot : Verdict → State → State) (a : Answer) (s : State) : Host.Outcome State Fault Refusal :=
  if s.bc < 64 then
    readTransaction (slotAddr s.si s.bc) a (fun v =>
      let s := { s with buf := s.buf.setIfInBounds s.bc v }
      if s.bc + 1 < 64 then { s with bc := s.bc + 1 }
      else onSlot (decodeRecord s.buf.toList) { s with crc := decodeCrc s.buf.toList s.crc }) s
  else .fault (.bufferOffset s.bc)

/-- What READALL does with a slot it has read: emit its string and go on, or end (R185). -/
def readallSlot (r : Verdict) (s : State) : State :=
  match r with
  | .valid str =>
    let s := emit (.str str) s
    if s.si + 1 < s.config.maxEntries then { s with si := s.si + 1, bc := 0 }
    else finish { s with si := s.config.maxEntries }
  | .invalid => finish s

/-- What RECOVER does with a slot it has read: go on, or set `NWI` and end (R190, R191). -/
def recoverSlot (r : Verdict) (s : State) : State :=
  match r with
  | .valid _ =>
    if s.si + 1 < s.config.maxEntries then { s with si := s.si + 1, bc := 0 }
    else finish { s with si := s.config.maxEntries, nwi := s.config.maxEntries }
  | .invalid => finish { s with nwi := s.si }

/-- Row `R_READ` (R183 to R185). -/
def stepRRead (a : Answer) (s : State) : Host.Outcome State Fault Refusal :=
  slotReadStep readallSlot a s

/-- Row `V_READ` (R190, R191). -/
def stepVRead (a : Answer) (s : State) : Host.Outcome State Fault Refusal :=
  slotReadStep recoverSlot a s

/-- The row of the phase. In `IDLE` there is no transaction to make. -/
def engineStep (a : Answer) (s : State) : Host.Outcome State Fault Refusal :=
  match s.phase with
  | .idle => .next s
  | .aErase => stepAErase a s
  | .aWrite => stepAWrite a s
  | .rRead => stepRRead a s
  | .eWrite => stepEWrite a s
  | .vRead => stepVRead a s

/-- Taking the frame at the head of the command port (`30_encoding.md` R95, `43_log_fsm.md` R175): the command, and the
state with the frame consumed; `none` while no complete frame is there. -/
def fetch (s : State) : Option (Cmd × State) :=
  (decodeFrame s.port).map fun (c, rest) => (c, { s with port := rest })

end Sys2Proof.Machine
end

