-- ==== Sys2Proof/Machine/Environment.lean ====
section
/-! DEFINITION. The moves of the host, of the world and of other masters (`60_exceptions.md` R252): presenting bytes, power
loss, the reset event (`70_reset_and_hazards.md` R260), and access to the store from outside. -/

namespace Sys2Proof.Machine

/-- The host presents bytes; always enabled (R252). They wait on the port until the engine accepts them (R90). -/
def present (bs : List Byte) (s : State) : State :=
  { s with port := s.port ++ bs }

/-- Power is lost (R251): until the reset nothing happens in the block (`70_reset_and_hazards.md` R261). -/
def powerLoss (s : State) : State :=
  { s with powered := false }

/-- The reset event (`70_reset_and_hazards.md` R260, R263, `10_state.md` R36). `len` and `buf` are the unspecified values of
`LEN` and `BUF`. The store and the response stream are kept; a partly presented frame is discarded. -/
def resetEvent (len : BitVec 6) (buf : Buf) (s : State) : State :=
  { s with
    powered := true
    phase := if s.config.autoRecover then .vRead else .idle
    nwi := 0
    crc := 0xFFFF
    buf := buf
    len := len.toNat
    si := 0
    bc := 0
    port := completeFrames s.port }

/-- Another master's access (`20_memory.md` R69): offered only while the engine is powered and in `IDLE` (U14), and only at
an address the store has (U15). -/
def foreignAccess (addr : Word) (f : State → State) (s : State) : Host.Outcome State Fault Refusal :=
  if s.ready then
    if addr.toNat < s.config.storeSize then .next (f s) else .refused (.foreignAddress addr.toNat)
  else .refused .foreignAccess

/-- `ExtWrite(addr, v)`: `Store[addr] <- v` (R252), inside the log region too (`70_reset_and_hazards.md` R274 b). -/
def extWrite (addr : Word) (v : Byte) (s : State) : Host.Outcome State Fault Refusal :=
  foreignAccess addr (fun s => { s with store := Memory.write s.store addr.toNat v }) s

/-- `ExtRead(addr)`: no effect on the block or the store (R252, `20_memory.md` R74). -/
def extRead (addr : Word) (s : State) : Host.Outcome State Fault Refusal :=
  foreignAccess addr id s

end Sys2Proof.Machine
end

