-- ==== Sys2Proof/Machine/Step.lean ====
section
/-! DEFINITION. One step of the system: the next move of the environment's script, or the engine's turn when the script
is used up (`00_scope.md` R15, `60_exceptions.md` R252). -/

namespace Sys2Proof.Machine

/-- The engine's turn, the store answering `a`: nothing without power (R261); in `IDLE` the accept step when a complete frame
is presented and waiting when none is (`43_log_fsm.md` R175, `30_encoding.md` R95); else the row of the phase. -/
def engineTurn (a : Answer) (s : State) : Host.Outcome State Fault Refusal :=
  if s.powered then
    if s.phase = .idle then
      match fetch s with
      | none => .next s
      | some (.instr i, t) => exec i t
      | some (.illegal op, t) => execIllegal op t
    else engineStep a s
  else .next s

/-- One move of one agent. -/
def move (m : Move) (s : State) : Host.Outcome State Fault Refusal :=
  match m with
  | .engine a => engineTurn a s
  | .present bs => .next (present bs s)
  | .powerLoss => .next (powerLoss s)
  | .reset len buf => .next (resetEvent len buf s)
  | .extWrite addr v => extWrite addr v s
  | .extRead addr => extRead addr s

/-- One step. -/
def step (s : State) : Host.Outcome State Fault Refusal :=
  match s.script with
  | [] => engineTurn s.thereafter s
  | m :: rest => move m { s with script := rest }

/-- `s` with the frame whose bits are `w` at the head of the command port, the engine ready to accept it and its turn next
(notes/assumptions/10.md). -/
def State.withFetchWord (s : State) (nbits w : Nat) : State :=
  { s with
    powered := true
    phase := .idle
    port := tableFrame nbits w ++ s.port
    script := .engine .ok :: s.script }

end Sys2Proof.Machine
end

