-- ==== Sys2Proof/Machine/Assembler.lean ====
section
/-! DEFINITION. The textual form of commands and the pseudo-instructions (`30_encoding.md` R106, R107). The text is no part
of the block; examples and test vectors are written in it. Text is a list of characters. -/

namespace Sys2Proof.Machine

/-- The value of a hexadecimal digit. -/
def hexDigit (c : Char) : Option Nat :=
  let n := c.toNat
  if 48 ≤ n ∧ n ≤ 57 then some (n - 48)
  else if 65 ≤ n ∧ n ≤ 70 then some (n - 55)
  else if 97 ≤ n ∧ n ≤ 102 then some (n - 87)
  else none

/-- Two hexadecimal digits as a byte. -/
def hexByte (h l : Char) : Option Byte :=
  match hexDigit h, hexDigit l with
  | some a, some b => some (BitVec.ofNat 8 (16 * a + b))
  | _, _ => none

/-- One ASCII character as a byte. -/
def asciiByte (c : Char) : Option Byte :=
  if c.toNat < 128 then some (BitVec.ofNat 8 c.toNat) else none

/-- The bytes of a quoted string after its opening quote, and the text after its closing quote (R106). `\x00` and a raw
null are not allowed. -/
def quotedBytes : List Char → Option (List Byte × List Char)
  | [] => none
  | '"' :: rest => some ([], rest)
  | '\\' :: 'x' :: h :: l :: rest =>
    match hexByte h l, quotedBytes rest with
    | some b, some (bs, tail) => if b = 0 then none else some (b :: bs, tail)
    | _, _ => none
  | '\\' :: '"' :: rest => (quotedBytes rest).map fun (bs, tail) => (0x22 :: bs, tail)
  | '\\' :: '\\' :: rest => (quotedBytes rest).map fun (bs, tail) => (0x5C :: bs, tail)
  | '\\' :: _ => none
  | c :: rest =>
    match asciiByte c, quotedBytes rest with
    | some b, some (bs, tail) => if b = 0 then none else some (b :: bs, tail)
    | _, _ => none

/-- Text without its leading spaces. -/
def skipSpaces : List Char → List Char
  | ' ' :: rest => skipSpaces rest
  | cs => cs

/-- Nothing is left on the line but spaces and a comment, which `;` starts. -/
def lineEnds (cs : List Char) : Bool :=
  match skipSpaces cs with
  | [] => true
  | ';' :: _ => true
  | _ => false

/-- The mnemonic at the head of a line, and the rest. -/
def mnemonicOf : List Char → List Char × List Char
  | [] => ([], [])
  | c :: rest =>
    if c = ' ' ∨ c = ';' then ([], c :: rest)
    else let (w, tail) := mnemonicOf rest; (c :: w, tail)

/-- The operand of CRCBYTE: `0xHH` or `'c'`. -/
def byteOperand : List Char → Option (Byte × List Char)
  | '0' :: 'x' :: h :: l :: rest => (hexByte h l).map fun b => (b, rest)
  | '\'' :: c :: '\'' :: rest => (asciiByte c).map fun b => (b, rest)
  | _ => none

/-- `CRC16 b0, …, bk-1` (R107). -/
def pseudoCrc16 (bs : List Byte) : List Instr :=
  [.crcinit] ++ bs.map .crcbyte ++ [.crcread]

/-- `CRCSTR "text"` (R107). -/
def pseudoCrcstr (text : List Byte) : List Instr :=
  [.crcinit] ++ text.map .crcbyte ++ [.crcbyte 0x00, .crcread]

/-- The byte operands of the pseudo-instruction CRC16: one or more of them, with commas between. `fuel` bounds their number. -/
def byteList : Nat → List Char → Option (List Byte × List Char)
  | 0, _ => none
  | fuel + 1, cs =>
    match byteOperand (skipSpaces cs) with
    | none => none
    | some (b, rest) =>
      match skipSpaces rest with
      | ',' :: more => (byteList fuel more).map fun (bs, tail) => (b :: bs, tail)
      | _ => some ([b], rest)

/-- A quoted operand. -/
def quotedOperand (cs : List Char) : Option (List Byte × List Char) :=
  match skipSpaces cs with
  | '"' :: text => quotedBytes text
  | _ => none

/-- An operand with nothing after it but spaces and a comment. -/
def lastOperand {α : Type} (r : Option (α × List Char)) : Option α :=
  match r with
  | some (x, tail) => if lineEnds tail then some x else none
  | none => none

/-- One line of assembler text (R106, R107): the instructions it stands for; none of them when it holds only a comment. -/
def assembleLine (line : List Char) : Option (List Instr) :=
  let (w, rest) := mnemonicOf (skipSpaces line)
  let plain (i : Instr) : Option (List Instr) := if lineEnds rest then some [i] else none
  if w = [] then (if lineEnds rest then some [] else none)
  else if w = "NOP".toList then plain .nop
  else if w = "READALL".toList then plain .readall
  else if w = "ERASEALL".toList then plain .eraseall
  else if w = "RECOVER".toList then plain .recover
  else if w = "GETIDX".toList then plain .getidx
  else if w = "CRCINIT".toList then plain .crcinit
  else if w = "CRCREAD".toList then plain .crcread
  else if w = "CRCBYTE".toList then (lastOperand (byteOperand (skipSpaces rest))).map fun b => [.crcbyte b]
  else if w = "APPEND".toList then (lastOperand (quotedOperand rest)).map fun m => [.append m]
  else if w = "CRC16".toList then
    match lastOperand (quotedOperand rest) with
    | some bs => some (pseudoCrc16 bs)
    | none => (lastOperand (byteList rest.length rest)).map pseudoCrc16
  else if w = "CRCSTR".toList then (lastOperand (quotedOperand rest)).map pseudoCrcstr
  else none

/-- The bytes on the command port of a text of lines (R106). -/
def assemble : List (List Char) → Option (List Byte)
  | [] => some []
  | line :: rest =>
    match assembleLine line, assemble rest with
    | some is, some bs => some (is.flatMap encode ++ bs)
    | _, _ => none

end Sys2Proof.Machine
end

