-- ==== Sys2Proof/Machine/Whole.lean ====
section
/-! DEFINITION. The whole-command pseudocode of the four log commands (`43_log_fsm.md` R177, R183, R187, R190) as pure functions
of the store's answers, independent of the step table: what a command does when no reset cuts it. R196 says the two agree, and
that the step table governs; the statements that say so stand in Obligations. `none` means that the answers ran out, or one was
"no answer": the command then has no end. -/

namespace Sys2Proof.Machine

/-- What a command reads and leaves, apart from the store's answers. -/
structure LogView where
  nwi : Nat
  crc : Word
  store : Memory
  out : List Rsp
deriving DecidableEq, Repr

/-- The part of the state a whole command is a function of. -/
def State.view (s : State) : LogView :=
  { nwi := s.nwi, crc := s.crc, store := s.store, out := s.out }

/-- The view with the frames `fs` and then the status `c` emitted. -/
def LogView.close (v : LogView) (fs : List Rsp) (c : Status) : LogView :=
  { v with out := v.out ++ fs ++ [.status c] }

/-- A loop of `MemWrite`s: whether all succeeded, the store after it, and the transactions made. It ends at the first
IOError (R178, R181). -/
def wholeWrites : List (Nat × Byte) → List Answer → Memory → Option (Bool × Memory × List Transaction)
  | [], _, m => some (true, m, [])
  | (a, v) :: ws, .ok :: as, m =>
    (wholeWrites ws as (Memory.write m a v)).map fun (ok, m', ts) => (ok, m', .write a v :: ts)
  | (a, v) :: _, .err left :: _, m => some (false, Memory.write m a left, [.write a v])
  | _ :: _, .none :: _, _ => none
  | _ :: _, [], _ => none

/-- The writes of an erase of all slots, slot 0 first (R172). -/
def eraseWrites (maxEntries : Nat) : List (Nat × Byte) :=
  (List.range maxEntries).map fun k => (k * 64, 0x00)

/-- The writes of a record into slot `k`, offset 0 first (R180). -/
def recordWrites (k : Nat) (rec : List Byte) : List (Nat × Byte) :=
  rec.zipIdx.map fun (v, j) => (k * 64 + j, v)

/-- The status of a loop's end. -/
def endStatus (ok : Bool) : Status :=
  if ok then .ok else .ioError

/-- ERASEALL (R187). -/
def wholeEraseall (maxEntries : Nat) (as : List Answer) (v : LogView) : Option (LogView × List Transaction) :=
  (wholeWrites (eraseWrites maxEntries) as v.store).map fun (ok, m, ts) =>
    (LogView.close { v with store := m } [] (endStatus ok), ts)

/-- APPEND from the encode on (R177): the record of `p` into slot `v.nwi`. -/
def wholeRecord (p : List Byte) (as : List Answer) (v : LogView) : Option (LogView × List Transaction) :=
  (wholeWrites (recordWrites v.nwi (record p)) as v.store).map fun (ok, m, ts) =>
    (LogView.close { v with
      nwi := if ok then v.nwi + 1 else v.nwi
      crc := crc16 (p ++ [0x00])
      store := m } [] (endStatus ok), ts)

/-- APPEND (R177). -/
def wholeAppend (maxEntries : Nat) (m : List Byte) (as : List Answer) (v : LogView) :
    Option (LogView × List Transaction) :=
  if m = [] then some (v.close [] .invalidInput, [])
  else if v.nwi < maxEntries then wholeRecord (payload m) as v
  else
    match wholeWrites (eraseWrites maxEntries) as v.store with
    | none => none
    | some (false, st, ts) => some (LogView.close { v with store := st } [] .ioError, ts)
    | some (true, st, ts) =>
      (wholeRecord (payload m) (as.drop ts.length) { v with nwi := 0, store := st }).map fun (v', ts') =>
        (v', ts ++ ts')

/-- The reads of slot bytes `j, j+1, …`, `n` of them: whether all succeeded, and the transactions made (R184). -/
def wholeReads (k : Nat) : Nat → Nat → List Answer → Option (Bool × List Transaction)
  | _, 0, _ => some (true, [])
  | j, n + 1, .ok :: as =>
    (wholeReads k (j + 1) n as).map fun (ok, ts) => (ok, .read (k * 64 + j) :: ts)
  | j, _ + 1, .err _ :: _ => some (false, [.read (k * 64 + j)])
  | _, _ + 1, .none :: _ => none
  | _, _ + 1, [] => none

/-- The end of a scan: the strings of the valid slots it passed, the CRC register, the index it stopped at (`none` after an
IOError), and the transactions made. -/
structure Scan where
  strings : List (List Byte)
  crc : Word
  stop : Option Nat
  trace : List Transaction
deriving DecidableEq, Repr

/-- The scan of READALL and RECOVER (R183, R190) over slots `k, k+1, …`, `n` of them. -/
def scanSlots (m : Memory) : Nat → Nat → Word → List Answer → Option Scan
  | k, 0, crc, _ => some ⟨[], crc, some k, []⟩
  | k, n + 1, crc, as =>
    match wholeReads k 0 64 as with
    | none => none
    | some (false, ts) => some ⟨[], crc, none, ts⟩
    | some (true, ts) =>
      let crc := decodeCrc (slotBytes m k) crc
      match decodeRecord (slotBytes m k) with
      | .invalid => some ⟨[], crc, some k, ts⟩
      | .valid str =>
        (scanSlots m (k + 1) n crc (as.drop 64)).map fun r =>
          { r with strings := str :: r.strings, trace := ts ++ r.trace }

/-- READALL (R183). -/
def wholeReadall (maxEntries : Nat) (as : List Answer) (v : LogView) : Option (LogView × List Transaction) :=
  (scanSlots v.store 0 maxEntries v.crc as).map fun r =>
    (LogView.close { v with crc := r.crc } (r.strings.map .str) (endStatus r.stop.isSome), r.trace)

/-- RECOVER (R190): `NWI` is set to where the scan stopped, unless a read failed. -/
def wholeRecover (maxEntries : Nat) (as : List Answer) (v : LogView) : Option (LogView × List Transaction) :=
  (scanSlots v.store 0 maxEntries v.crc as).map fun r =>
    (LogView.close { v with crc := r.crc, nwi := r.stop.getD v.nwi } [] (endStatus r.stop.isSome), r.trace)

end Sys2Proof.Machine
end

