-- ==== Sys2Proof/Safety.lean ====
section
/-! DEFINITION. The terms claims are stated in: runs, the engine's invariant, slot classes and the clean log (`43_log_fsm.md`
R193 to R195, `20_memory.md` R55), answering environments (`20_memory.md` R66), and equality up to dead registers
(`10_state.md` R23 to R26). -/

namespace Sys2Proof.Machine

/-- `n` steps; it stops at the first fault or refusal. -/
def run : Nat → State → Host.Outcome State Fault Refusal
  | 0, s => .next s
  | n + 1, s =>
    match step s with
    | .next t => run n t
    | .fault r => .fault r
    | .refused r => .refused r

/-- The commands of a list, one after the other, each in its accept step. -/
def execAll : List Instr → State → Host.Outcome State Fault Refusal
  | [], s => .next s
  | i :: rest, s =>
    match exec i s with
    | .next t => execAll rest t
    | .fault r => .fault r
    | .refused r => .refused r

/-- The store's answer when the next step is the engine's turn; `none` when another agent moves next. -/
def State.turn (s : State) : Option Answer :=
  match s.script with
  | [] => some s.thereafter
  | .engine a :: _ => some a
  | _ :: _ => none

/-- The state with the next move taken off the script. -/
def State.popped (s : State) : State :=
  { s with script := s.script.tail }

/-- The store transactions the next step makes: the one of the engine's phase when it is a powered engine's turn, and none in the
move of another agent. -/
def State.issued (s : State) : List Transaction :=
  if s.turn.isSome && s.powered then s.transaction.toList else []

/-- The store transactions of the next `n` steps, in order. -/
def trace : Nat → State → List Transaction
  | 0, _ => []
  | n + 1, s =>
    s.issued ++
      match step s with
      | .next t => trace n t
      | .fault _ => []
      | .refused _ => []

/-- The store answers the transaction, with success or with IOError (`20_memory.md` R66). -/
def Answer.given : Answer → Bool
  | .ok => true
  | .err _ => true
  | .none => false

/-- The store's answer in a turn of the engine; `none` for a move of another agent. -/
def Move.answer : Move → Option Answer
  | .engine a => some a
  | .present _ => none
  | .powerLoss => none
  | .reset _ _ => none
  | .extWrite _ _ => none
  | .extRead _ => none

/-- The bytes a move presents on the command port. -/
def Move.presented : Move → List Byte
  | .present bs => bs
  | .engine _ => []
  | .powerLoss => []
  | .reset _ _ => []
  | .extWrite _ _ => []
  | .extRead _ => []

/-- A turn of the engine whose answer `p` admits, or bytes the host presents: it may always present them (`60_exceptions.md`
R252), also during a command. -/
def Move.engineOrHost (p : Answer → Bool) : Move → Bool
  | .engine a => p a
  | .present _ => true
  | .powerLoss => false
  | .reset _ _ => false
  | .extWrite _ _ => false
  | .extRead _ => false

/-- The reset event. -/
def Move.isReset : Move → Bool
  | .reset _ _ => true
  | .engine _ => false
  | .present _ => false
  | .powerLoss => false
  | .extWrite _ _ => false
  | .extRead _ => false

/-- Only the engine and the host move in the script. -/
abbrev State.undisturbed (s : State) : Prop :=
  s.script.all (Move.engineOrHost fun _ => true) = true

/-- Only the engine and the host move, and the store answers every transaction: the premise R66 names for termination. -/
abbrev State.answering (s : State) : Prop :=
  s.script.all (Move.engineOrHost Answer.given) = true ∧ s.thereafter.given = true

/-- Only the engine and the host move, and every transaction succeeds (`43_log_fsm.md` R194's premises). -/
abbrev State.succeeding (s : State) : Prop :=
  s.script.all (Move.engineOrHost (· = .ok)) = true ∧ s.thereafter = .ok

/-- The answers of the script's turns of the engine, in order. -/
def State.answers (s : State) : List Answer :=
  s.script.filterMap Move.answer

/-- How many of the next `n` moves are no turns of the engine. -/
def State.otherMoves (s : State) (n : Nat) : Nat :=
  (s.script.take n).countP fun m => m.answer.isNone

/-- From `t`, as many turns of the engine as `ts` has transactions, with the host's moves that stand between them in the script, make
exactly the transactions `ts` and end in `IDLE` with the view `v`; the bytes presented meanwhile wait at the end of the port. -/
def State.completesWith (t : State) (v : LogView) (ts : List Transaction) : Prop :=
  ∃ n u, n = ts.length + t.otherMoves n ∧ n ≤ t.script.length ∧ run n t = .next u ∧ u.ready ∧ u.view = v ∧
    trace n t = ts ∧ u.script = t.script.drop n ∧ u.port = t.port ++ (t.script.take n).flatMap Move.presented

/-- The slot's first byte is 0x00 (`20_memory.md` R55). -/
abbrev erasedSlot (m : Memory) (k : Nat) : Prop :=
  Memory.read m (slotAddr k 0) = 0x00

/-- The string of a valid slot (`20_memory.md` R55, `42_record_codec.md` R155). -/
def slotString (m : Memory) (k : Nat) : Option (List Byte) :=
  match decodeRecord (slotBytes m k) with
  | .valid s => some s
  | .invalid => none

/-- `decode` of the slot's 64 bytes returns a string. -/
abbrev validSlot (m : Memory) (k : Nat) : Prop :=
  (slotString m k).isSome = true

/-- The strings of slots `k, k+1, …`, `n` of them, up to the first that is not valid. -/
def stringsFrom (m : Memory) : Nat → Nat → List (List Byte)
  | _, 0 => []
  | k, n + 1 =>
    match slotString m k with
    | none => []
    | some s => s :: stringsFrom m (k + 1) n

/-- The strings the log holds: what READALL emits (`43_log_fsm.md` R183, R185). -/
def State.strings (s : State) : List (List Byte) :=
  stringsFrom s.store 0 s.config.maxEntries

/-- How many reads READALL and RECOVER make when all succeed: 64 of each slot up to the first that is not valid, and of every slot
when all are (`43_log_fsm.md` R184, R185, R191). -/
def State.scanReads (s : State) : Nat :=
  64 * min (s.strings.length + 1) s.config.maxEntries

/-- The volatile state is the reset state (`10_state.md` R36, `70_reset_and_hazards.md` R260, R263); `BUF` and `LEN` are unspecified
there. -/
abbrev State.volatileReset (s : State) : Prop :=
  s.powered = true ∧ s.phase = (if s.config.autoRecover then .vRead else .idle) ∧ s.nwi = 0 ∧ s.crc = 0xFFFF ∧
    s.si = 0 ∧ s.bc = 0

/-- A clean log (`43_log_fsm.md` R194). -/
abbrev State.clean (s : State) : Prop :=
  s.ready ∧ (∀ k < s.nwi, validSlot s.store k) ∧ (∀ k < s.config.maxEntries, s.nwi ≤ k → erasedSlot s.store k)

/-- The registers stay in their ranges (`00_scope.md` R9, `43_log_fsm.md` R193). -/
abbrev State.inRange (s : State) : Prop :=
  s.nwi ≤ s.config.maxEntries ∧ s.si ≤ s.config.maxEntries ∧ s.bc ≤ 64 ∧ s.len < 64

/-- The store's data is canonical and lists no address the store lacks. -/
abbrev State.storeWf (s : State) : Prop :=
  s.store.wf = true ∧ s.store.all (fun cell => cell.1 < s.config.storeSize) = true

/-- `LEN` and the first `LEN` bytes of `BUF` are a payload (`10_state.md` R24, `20_memory.md` R54). -/
abbrev State.payloadLoaded (s : State) : Prop :=
  1 ≤ s.len ∧ s.len ≤ 61 ∧ isMessage (s.buf.toList.take s.len) = true

/-- `A_ERASE` (`43_log_fsm.md` R178, R195 a). -/
abbrev State.aEraseWf (s : State) : Prop :=
  s.nwi = s.config.maxEntries ∧ s.si < s.config.maxEntries ∧ s.payloadLoaded ∧ ∀ k < s.si, erasedSlot s.store k

/-- `A_WRITE` (`43_log_fsm.md` R171, R179, R195 b). -/
abbrev State.aWriteWf (s : State) : Prop :=
  s.nwi < s.config.maxEntries ∧ s.bc < s.len + 3 ∧ s.payloadLoaded ∧
    s.buf.toList.take (s.len + 3) = record (s.buf.toList.take s.len) ∧
    s.crc = crc16 (s.buf.toList.take s.len ++ [0x00]) ∧
    ∀ j < s.bc, s.buf[j]? = some (Memory.read s.store (slotAddr s.nwi j))

/-- `R_READ` and `V_READ` (`43_log_fsm.md` R184, R185). -/
abbrev State.readWf (s : State) : Prop :=
  s.si < s.config.maxEntries ∧ s.bc < 64 ∧ (∀ k < s.si, validSlot s.store k) ∧
    ∀ j < s.bc, s.buf[j]? = some (Memory.read s.store (slotAddr s.si j))

/-- `E_WRITE` (`43_log_fsm.md` R187, R195 a). -/
abbrev State.eWriteWf (s : State) : Prop :=
  s.si < s.config.maxEntries ∧ ∀ k < s.si, erasedSlot s.store k

/-- The invariant of the machine: it holds at reset and every step keeps it (statements InvariantAtReset,
StepKeepsInvariant). -/
abbrev State.Inv (s : State) : Prop :=
  s.config.wf ∧ s.inRange ∧ s.storeWf ∧ s.out.all Rsp.wellFormed = true ∧
    (s.phase = .aErase → s.aEraseWf) ∧ (s.phase = .aWrite → s.aWriteWf) ∧
    (s.phase = .rRead → s.readWf) ∧ (s.phase = .vRead → s.readWf) ∧ (s.phase = .eWrite → s.eWriteWf)

/-- In how many bits two byte sequences of one length differ (`41_crc16.md` R134). -/
def bitDistance (s t : List Byte) : Nat :=
  ((s.zip t).map fun (a, b) => (List.range 8).countP fun i => (a ^^^ b).getLsbD i).sum

/-- The most steps a command takes after its accept step, while the store answers (`43_log_fsm.md` R176). -/
def stepBound (maxEntries : Nat) : Instr → Nat
  | .append _ => maxEntries + 64
  | .readall => 64 * maxEntries
  | .eraseall => maxEntries
  | .recover => 64 * maxEntries
  | .nop => 0
  | .getidx => 0
  | .crcinit => 0
  | .crcbyte _ => 0
  | .crcread => 0

/-- A status frame. -/
def Rsp.isStatus : Rsp → Bool
  | .status _ => true
  | .str _ => false
  | .u16 _ => false

/-- The frames a command may emit before its last frame, and the status it may end in (`30_encoding.md` R105). -/
def framesOf (maxEntries : Nat) (i : Instr) (fs : List Rsp) (c : Status) : Prop :=
  match i with
  | .nop => fs = [] ∧ c = .ok
  | .append _ => fs = [] ∧ (c = .ok ∨ c = .invalidInput ∨ c = .ioError)
  | .readall => (∀ f ∈ fs, ∃ str, f = .str str) ∧ fs.length ≤ maxEntries ∧ (c = .ok ∨ c = .ioError)
  | .eraseall => fs = [] ∧ (c = .ok ∨ c = .ioError)
  | .recover => fs = [] ∧ (c = .ok ∨ c = .ioError)
  | .getidx => (∃ v, fs = [.u16 v]) ∧ c = .ok
  | .crcinit => fs = [] ∧ c = .ok
  | .crcbyte _ => fs = [] ∧ c = .ok
  | .crcread => (∃ v, fs = [.u16 v]) ∧ c = .ok

/-- Equal but for registers the rest of the run cannot observe (`10_state.md` R23 to R26, U10): in `IDLE` all of `BUF`, `LEN`,
`SI`, `BC` are dead; in each other phase, those its steps write before they read. -/
abbrev State.sameButDead (s t : State) : Prop :=
  s = { t with buf := s.buf, len := s.len, si := s.si, bc := s.bc } ∧
    (s.phase = .aErase → s.si = t.si ∧ s.len = t.len ∧ s.buf.toList.take s.len = t.buf.toList.take s.len) ∧
    (s.phase = .aWrite → s.bc = t.bc ∧ s.len = t.len ∧
      s.buf.toList.take (s.len + 3) = t.buf.toList.take (s.len + 3)) ∧
    (s.phase = .rRead ∨ s.phase = .vRead →
      s.si = t.si ∧ s.bc = t.bc ∧ s.buf.toList.take s.bc = t.buf.toList.take s.bc) ∧
    (s.phase = .eWrite → s.si = t.si)

end Sys2Proof.Machine
end

