-- ==== Sys2Proof/Certificates/Slice0/Obligations.lean ====
section
/-! DEFINITION. The statements for the provers. Each names the rule of `spec/` it formalises; the machine-readable list is
`OBLIGATIONS.json`. `s.turn = some a` says that the next step is the engine's turn and the store answers `a`; `s.popped` is the
state with that move taken off the script. -/

open Sys2Proof Sys2Proof.Machine

/-! ### The CRC16 unit (`41_crc16.md`) -/

/-- R124: the nibble-fold form equals the bit-serial definition for every state and byte. -/
def Obligations.CrcNibbleFormIsBitSerial : Prop :=
  ∀ (c : Word) (b : Byte), crcByteNibble c b = crcByte c b

/-- R125: the parallel form equals the bit-serial definition for every state and byte. -/
def Obligations.CrcParallelFormIsBitSerial : Prop :=
  ∀ (c : Word) (b : Byte), crcByteParallel c b = crcByte c b

/-- R131: for a fixed byte the byte step permutes the states, for a fixed state it is injective in the byte, and it is
linear over GF(2) in the pair. -/
def Obligations.CrcByteIsBijectiveAndLinear : Prop :=
  (∀ b : Byte, Function.Bijective fun c : Word => crcByte c b) ∧
  (∀ c : Word, Function.Injective fun b : Byte => crcByte c b) ∧
  (∀ (c d : Word) (a b : Byte), crcByte (c ^^^ d) (a ^^^ b) = crcByte c a ^^^ crcByte d b) ∧
  crcByte 0 0 = 0

/-- R132: a CRC can be computed incrementally. -/
def Obligations.CrcIsIncremental : Prop :=
  (∀ (c : Word) (s t : List Byte), crcFold c (s ++ t) = crcFold (crcFold c s) t) ∧
  (∀ s t : List Byte, crc16 (s ++ t) = crcFold (crc16 s) t)

/-- R133: a sequence followed by its CRC, high byte first, has CRC zero; so a slot with its first null at `i` passes the
comparison of decode exactly when the CRC of its first `i + 3` bytes is zero. -/
def Obligations.CrcResidueIsZero : Prop :=
  (∀ s : List Byte, crc16 (s ++ [hiByte (crc16 s), loByte (crc16 s)]) = 0) ∧
  (∀ (B : List Byte) (i : Nat), B.length = 64 → terminatorIndex B = some i →
    ((∃ str, decodeRecord B = .valid str) ↔ crc16 (B.take (i + 3)) = 0))

/-- R134, first sentence: two sequences of one length of at most 64 bytes that differ in one or two bits have different
CRCs. -/
def Obligations.CrcSeparatesOneAndTwoBitErrors : Prop :=
  ∀ s t : List Byte, s.length = t.length → s.length ≤ 64 → (bitDistance s t = 1 ∨ bitDistance s t = 2) →
    crc16 s ≠ crc16 t

/-! ### The record codec (`42_record_codec.md`) -/

/-- R150: encode fails exactly on the empty message; else it is the first 61 bytes, the terminator and the CRC of both, high
byte first, `len(payload) + 3` bytes and at most 64. -/
def Obligations.EncodeMakesRecord : Prop :=
  encodeRecord [] = none ∧
  ∀ m : List Byte, m ≠ [] →
    ∃ (r : List Byte) (v : Word), encodeRecord m = some r ∧ v = crc16 (m.take 61 ++ [0x00]) ∧
      r = m.take 61 ++ [0x00, v.extractLsb' 8 8, v.extractLsb' 0 8] ∧
      r.length = (m.take 61).length + 3 ∧ r.length ≤ 64

/-- R158: decode gives back a message of 1 to 61 bytes, whatever fills the slot behind its record. -/
def Obligations.RecordRoundTrip : Prop :=
  ∀ m : List Byte, isMessage m = true → 1 ≤ m.length → m.length ≤ 61 →
    ∃ r, encodeRecord m = some r ∧
      ∀ tail : List Byte, (r ++ tail).length = 64 → decodeRecord (r ++ tail) = .valid m

/-- R159: a longer message is stored and read back as its first 61 bytes. -/
def Obligations.RecordTruncation : Prop :=
  ∀ m : List Byte, isMessage m = true → 61 < m.length →
    ∃ r, encodeRecord m = some r ∧ decodeRecord r = .valid (m.take 61) ∧ encodeRecord (m.take 61) = some r

/-- R155: decode answers Valid with the bytes before the first null when that null is at an index 1 to 61 and the two bytes
after it are the CRC of everything up to it, and Invalid otherwise; `CRC` is rewritten exactly when such a null exists. -/
def Obligations.DecodeFollowsItsRule : Prop :=
  ∀ B : List Byte, B.length = 64 →
    (∀ str, decodeRecord B = .valid str ↔
      ∃ i, 1 ≤ i ∧ i ≤ 61 ∧ B[i]? = some 0x00 ∧ (∀ j < i, B[j]? ≠ some 0x00) ∧ str = B.take i ∧
        B[i + 1]? = some (hiByte (crc16 (B.take (i + 1)))) ∧
        B[i + 2]? = some (loByte (crc16 (B.take (i + 1))))) ∧
    (∀ i old, 1 ≤ i → i ≤ 61 → B[i]? = some 0x00 → (∀ j < i, B[j]? ≠ some 0x00) →
      decodeCrc B old = crc16 (B.take (i + 1))) ∧
    (∀ old, (B[0]? = some 0x00 ∨ ∀ j ≤ 61, B[j]? ≠ some 0x00) →
      decodeCrc B old = old ∧ decodeRecord B = .invalid)

/-- R156: the verdict, the string and the CRC depend only on the bytes up to the stored CRC, on the first 62 bytes when there is
no terminator among them, and on the first byte when that is null. -/
def Obligations.DecodeIgnoresTheRest : Prop :=
  ∀ B B' : List Byte, B.length = 64 → B'.length = 64 →
    (∀ i, terminatorIndex B = some i → B.take (i + 3) = B'.take (i + 3) →
      decodeRecord B' = decodeRecord B ∧ ∀ old, decodeCrc B' old = decodeCrc B old) ∧
    (terminatorIndex B = none → B.take 62 = B'.take 62 →
      decodeRecord B' = decodeRecord B ∧ ∀ old, decodeCrc B' old = decodeCrc B old) ∧
    (B[0]? = some 0x00 → B'[0]? = some 0x00 →
      decodeRecord B' = decodeRecord B ∧ ∀ old, decodeCrc B' old = decodeCrc B old)

/-- R160, by R133 and R134: one or two flipped bits of a valid record that do not move its first null make it Invalid. -/
def Obligations.FlippedRecordBitsAreDetected : Prop :=
  ∀ (B B' : List Byte) (i : Nat) (str : List Byte), B.length = 64 → B'.length = 64 →
    terminatorIndex B = some i → terminatorIndex B' = some i → decodeRecord B = .valid str →
    (bitDistance (B.take (i + 3)) (B'.take (i + 3)) = 1 ∨ bitDistance (B.take (i + 3)) (B'.take (i + 3)) = 2) →
    decodeRecord B' = .invalid

/-! ### Frames (`30_encoding.md`) -/

/-- Every well-formed instruction, with every operand, is what its frame decodes to, whatever follows the frame. -/
def Obligations.DecodeOfEncode : Prop :=
  ∀ (i : Instr) (rest : List Byte), i.wellFormed = true → decodeFrame (encode i ++ rest) = some (.instr i, rest)

/-- The other direction (R95): what decodes is a frame of the command it decodes to, a decoded instruction is well formed, and bytes
presented later do not change the decoding of a complete frame. -/
def Obligations.DecodedBytesAreTheFrame : Prop :=
  ∀ (s : List Byte) (c : Cmd) (rest : List Byte), decodeFrame s = some (c, rest) →
    s = encodeCmd c ++ rest ∧ (∀ i, c = .instr i → i.wellFormed = true) ∧
    ∀ more : List Byte, decodeFrame (s ++ more) = some (c, rest ++ more)

/-- R100: one 0x00 byte always brings the decoder to a frame boundary. -/
def Obligations.ZeroByteReachesFrameBoundary : Prop :=
  (∀ rest : List Byte, decodeFrame (0x00 :: rest) = some (.instr .nop, rest)) ∧
  ∀ s : List Byte, s ≠ [] → decodeFrame s = none →
    (∃ m, s = 0x01 :: m ∧ decodeFrame (s ++ [0x00]) = some (.instr (.append m), [])) ∨
    (s = [0x11] ∧ decodeFrame (s ++ [0x00]) = some (.instr (.crcbyte 0x00), []))

/-- The frames of the test vectors V-F1 to V-F11, those of V-F4 and V-F5 in one stream and then each alone (R98, R99). A sanity
statement. -/
def Obligations.SpecFramesDecode : Prop :=
  decodeFrame [0x00] = some (.instr .nop, []) ∧
  decodeFrame [0x01, 0x42, 0x6F, 0x6F, 0x74, 0x00] = some (.instr (.append [0x42, 0x6F, 0x6F, 0x74]), []) ∧
  decodeFrame [0x01, 0x00] = some (.instr (.append []), []) ∧
  decodeFrame [0x02, 0x03, 0x04, 0x05] = some (.instr .readall, [0x03, 0x04, 0x05]) ∧
  decodeFrame [0x03, 0x04, 0x05] = some (.instr .eraseall, [0x04, 0x05]) ∧
  decodeFrame [0x04, 0x05] = some (.instr .recover, [0x05]) ∧
  decodeFrame [0x05] = some (.instr .getidx, []) ∧
  decodeFrame [0x10, 0x11, 0x31, 0x12] = some (.instr .crcinit, [0x11, 0x31, 0x12]) ∧
  decodeFrame [0x11, 0x31, 0x12] = some (.instr (.crcbyte 0x31), [0x12]) ∧
  decodeFrame [0x12] = some (.instr .crcread, []) ∧
  decodeFrame [0x11, 0x00] = some (.instr (.crcbyte 0x00), []) ∧
  decodeFrame [0x11, 0x11, 0x11] = some (.instr (.crcbyte 0x11), [0x11]) ∧
  decodeFrame [0x11] = none ∧
  decodeFrame [0x06] = some (.illegal 0x06, []) ∧
  decodeFrame [0xFF, 0x02] = some (.illegal 0xFF, [0x02]) ∧
  decodeFrame [0x02] = some (.instr .readall, []) ∧
  decodeFrame [0x01, 0x41, 0x00, 0x00] = some (.instr (.append [0x41]), [0x00]) ∧
  decodeFrame [0x01, 0x02, 0x03, 0x00] = some (.instr (.append [0x02, 0x03]), [])

/-- R102 to R105: the host reads every frame back from its bytes and nothing else of the stream, and a status frame is the byte
of R103's table for its status, 0x80 to 0x83. -/
def Obligations.ResponsesReadBack : Prop :=
  (∀ (f : Rsp) (rest : List Byte), f.wellFormed = true → parseResponse (f.bytes ++ rest) = some (f, rest)) ∧
  (Rsp.status .ok).bytes = [0x80] ∧ (Rsp.status .invalidInput).bytes = [0x81] ∧
  (Rsp.status .ioError).bytes = [0x82] ∧ (Rsp.status .illegalCommand).bytes = [0x83] ∧
  (∀ c : Status, ∃ b : Byte, (Rsp.status c).bytes = [b] ∧ 0x80 ≤ b.toNat ∧ b.toNat ≤ 0x83)

/-! ### Accepting a command (`43_log_fsm.md` R175) -/

/-- When the bytes on the port begin with the frame of an instruction, the engine's turn in `IDLE` is `exec` of it, with the frame
consumed and the move taken off the script. -/
def Obligations.StepRunsDecodedInstruction : Prop :=
  ∀ (s : State) (a : Answer) (i : Instr) (rest : List Byte), s.turn = some a → s.ready →
    decodeFrame s.port = some (.instr i, rest) →
    step s = exec i { s with port := rest, script := s.script.tail }

/-- R95: without a complete frame the engine makes no step in `IDLE`. That its turn then answers the same state as a next one, with
the move taken off the script, is the model's reading (DEDUCED, notes/assumptions/5.md). -/
def Obligations.IncompleteFrameWaits : Prop :=
  ∀ (s : State) (a : Answer), s.turn = some a → s.ready → decodeFrame s.port = none → step s = .next s.popped

/-- R222, R99: the 247 other opcodes take one byte, change nothing and are answered IllegalCommand, byte 0x83. -/
def Obligations.IllegalOpcodeIsAnswered : Prop :=
  (∀ (op : Byte) (rest : List Byte), decodeFrame (op :: rest) = some (.illegal op, rest) ↔
    (0x06 ≤ op.toNat ∧ op.toNat ≤ 0x0F) ∨ (0x13 ≤ op.toNat ∧ op.toNat ≤ 0xFF)) ∧
  ((List.range 256).countP fun n => (6 ≤ n && n ≤ 15) || (19 ≤ n && n ≤ 255)) = 247 ∧
  (∀ (s : State) (a : Answer) (op : Byte) (rest : List Byte), s.turn = some a → s.ready → s.port = op :: rest →
    (0x06 ≤ op.toNat ∧ op.toNat ≤ 0x0F) ∨ (0x13 ≤ op.toNat ∧ op.toNat ≤ 0xFF) →
    step s = .next { s with
      port := rest, script := s.script.tail, out := s.out ++ [.status .illegalCommand] }) ∧
  (Rsp.status .illegalCommand).bytes = [0x83]

/-- R175, R90, U13: a command is executed only in `IDLE`, and a busy engine's turn leaves the presented bytes waiting. That `exec` asked
elsewhere answers a refusal, and that without power, where nothing happens (R251, R261), it is refused and the bytes wait too, is
the model's reading (DEDUCED, notes/assumptions/12.md, notes/assumptions/15.md). -/
def Obligations.BusyEngineAcceptsNothing : Prop :=
  (∀ (i : Instr) (s : State), ¬ s.ready → exec i s = .refused .portNotReady) ∧
  (∀ (s t : State) (a : Answer), s.turn = some a → ¬ s.ready → step s = .next t → t.port = s.port)

/-- R220, NOP: with its corner case, a 0x00 byte at a frame boundary, as a terminator and as data. -/
def Obligations.NopCompletes : Prop :=
  encode .nop = [0x00] ∧
  (∀ rest : List Byte, decodeFrame (0x00 :: rest) = some (.instr .nop, rest) ∧
    decodeFrame (0x01 :: 0x00 :: rest) = some (.instr (.append []), rest) ∧
    decodeFrame (0x11 :: 0x00 :: rest) = some (.instr (.crcbyte 0x00), rest)) ∧
  (∀ s : State, s.ready → exec .nop s = .next { s with out := s.out ++ [.status .ok] }) ∧
  (Rsp.status .ok).bytes = [0x80]

/-- R221, GETIDX. -/
def Obligations.GetidxCompletes : Prop :=
  encode .getidx = [0x05] ∧
  (∀ s : State, s.ready → ∃ v : Word, v.toNat = s.nwi % 65536 ∧ (s.Inv → v.toNat = s.nwi ∧ s.nwi ≤ s.config.maxEntries) ∧
    exec .getidx s = .next { s with out := s.out ++ [.u16 v, .status .ok] }) ∧
  (∀ v : Word, responseBytes [.u16 v, .status .ok] = [0x02, v.extractLsb' 8 8, v.extractLsb' 0 8, 0x80])

/-- R128, CRCINIT: with its example, a CRCREAD after it. -/
def Obligations.CrcinitCompletes : Prop :=
  encode .crcinit = [0x10] ∧
  ∀ s : State, s.ready → ∃ t u,
    exec .crcinit s = .next t ∧ t = { s with crc := 0xFFFF, out := s.out ++ [.status .ok] } ∧
    exec .crcread t = .next u ∧ u.out = t.out ++ [.u16 0xFFFF, .status .ok]

/-- R129, CRCBYTE, for every data byte: with its example. -/
def Obligations.CrcbyteCompletes : Prop :=
  (∀ b : Byte, encode (.crcbyte b) = [0x11, b]) ∧
  (∀ (s : State) (b : Byte), s.ready →
    exec (.crcbyte b) s = .next { s with crc := crcByte s.crc b, out := s.out ++ [.status .ok] }) ∧
  crcByte 0xFFFF 0x31 = 0xC782

/-- R130, CRCREAD: with the check value of its example. -/
def Obligations.CrcreadCompletes : Prop :=
  encode .crcread = [0x12] ∧
  (∀ s : State, s.ready → exec .crcread s = .next { s with out := s.out ++ [.u16 s.crc, .status .ok] }) ∧
  (∀ v : Word, responseBytes [.u16 v, .status .ok] = [0x02, v.extractLsb' 8 8, v.extractLsb' 0 8, 0x80]) ∧
  crc16 [0x31, 0x32, 0x33, 0x34, 0x35, 0x36, 0x37, 0x38, 0x39] = 0x29B1

/-- The accept step of APPEND (R175, R177, R96): the empty message is rejected with nothing changed, also when the log is full; a
message that fits the log is loaded and encoded; a message for a full log is loaded and the wraparound erase starts. -/
def Obligations.AppendAcceptStep : Prop :=
  ∀ (s : State) (m : List Byte), s.ready →
    (m = [] → exec (.append m) s = .next { s with out := s.out ++ [.status .invalidInput] }) ∧
    (m ≠ [] → s.nwi < s.config.maxEntries → ∃ (buf : Buf) (rec : List Byte), encodeRecord m = some rec ∧
      exec (.append m) s = .next { s with
        phase := .aWrite, len := min m.length 61, bc := 0, crc := crc16 (m.take 61 ++ [0x00]), buf := buf } ∧
      ∀ j < 64, buf[j]? = if j < min m.length 61 + 3 then rec[j]? else s.buf[j]?) ∧
    (m ≠ [] → s.config.maxEntries ≤ s.nwi → ∃ buf : Buf,
      exec (.append m) s = .next { s with phase := .aErase, len := min m.length 61, si := 0, buf := buf } ∧
      ∀ j < 64, buf[j]? = if j < min m.length 61 then m[j]? else s.buf[j]?)

/-- The accept steps of READALL, ERASEALL and RECOVER (R175): what each sets, and nothing else. -/
def Obligations.ScanAndEraseAcceptSteps : Prop :=
  ∀ s : State, s.ready →
    exec .readall s = .next { s with si := 0, bc := 0, phase := .rRead } ∧
    exec .eraseall s = .next { s with si := 0, phase := .eWrite } ∧
    exec .recover s = .next { s with si := 0, bc := 0, phase := .vRead }

/-! ### Frames: what stays unchanged -/

/-- Frame of the commands that end in their accept step (`10_state.md` R27): only `CRC`, for CRCINIT and CRCBYTE, and the response
stream change; every byte of the store reads as before. -/
def Obligations.RegisterCommandsFrame : Prop :=
  ∀ (i : Instr) (s t : State),
    (i = .nop ∨ i = .getidx ∨ i = .crcinit ∨ (∃ b, i = .crcbyte b) ∨ i = .crcread) → exec i s = .next t →
    t = { s with crc := t.crc, out := t.out } ∧
    (i = .nop ∨ i = .getidx ∨ i = .crcread → t.crc = s.crc) ∧
    ∀ addr, Memory.read t.store addr = Memory.read s.store addr

/-- Frame of the accept step of the log commands (`10_state.md` R27, R175): no byte of the store, and no register but those the
command starts with. -/
def Obligations.LogAcceptStepsFrame : Prop :=
  ∀ (i : Instr) (s t : State), (i = .readall ∨ i = .eraseall ∨ i = .recover ∨ ∃ m, i = .append m) →
    exec i s = .next t →
    t = { s with phase := t.phase, len := t.len, buf := t.buf, si := t.si, bc := t.bc, crc := t.crc, out := t.out } ∧
    ((i = .readall ∨ i = .eraseall ∨ i = .recover) →
      t.len = s.len ∧ t.buf = s.buf ∧ t.crc = s.crc ∧ t.out = s.out) ∧
    (i = .eraseall → t.bc = s.bc) ∧
    (∀ m, i = .append m → m ≠ [] → t.out = s.out) ∧
    (∀ m, i = .append m → s.nwi < s.config.maxEntries → t.si = s.si) ∧
    (∀ m, i = .append m → s.config.maxEntries ≤ s.nwi → t.crc = s.crc ∧ t.bc = s.bc) ∧
    ∀ addr, Memory.read t.store addr = Memory.read s.store addr

/-- Frame of the engine's transaction steps (R174, `20_memory.md` R64): every byte of the store but the one at the address the step's
transaction writes reads as before; only the registers of R27 change. `State.transaction` computes that address as the rows
of the step table do. -/
def Obligations.TransactionStepsFrame : Prop :=
  ∀ (s t : State) (a : Answer), s.turn = some a → s.powered = true → s.phase ≠ .idle → s.store.wf = true →
    step s = .next t →
    t = { s.popped with
      phase := t.phase, nwi := t.nwi, crc := t.crc, buf := t.buf, si := t.si, bc := t.bc, store := t.store, out := t.out } ∧
    (∀ addr, (∀ v, s.transaction ≠ some (.write addr v)) →
      Memory.read t.store addr = Memory.read s.store addr) ∧
    (s.phase = .aErase → t.out = s.out ∨ t.out = s.out ++ [.status .ioError]) ∧
    (s.phase = .aWrite → t.crc = s.crc ∧ t.buf = s.buf ∧ t.si = s.si) ∧
    (s.phase = .eWrite → t.nwi = s.nwi ∧ t.crc = s.crc ∧ t.buf = s.buf ∧ t.bc = s.bc) ∧
    (s.phase = .rRead → t.nwi = s.nwi ∧ t.store = s.store) ∧
    (s.phase = .vRead → t.store = s.store)

/-- R63, R64: what a transaction does by its answer. A read that succeeds puts the byte into `BUF[BC]`, one that fails leaves `BUF`; a
write that succeeds leaves the byte, one that fails leaves any byte `left`; every other byte of the store is unchanged. Without
an answer the transaction has no effect and no step is enabled (R66, R174); that the engine's turn then answers the same state as a
next one is the model's reading (DEDUCED, notes/assumptions/5.md). -/
def Obligations.TransactionEffects : Prop :=
  ∀ (s : State) (a : Answer), s.Inv → s.turn = some a → s.powered = true →
    (∀ addr, s.transaction = some (.read addr) → ∃ t, step s = .next t ∧ t.store = s.store ∧
      (a = .ok → ∀ j < 64, t.buf[j]? = if j = s.bc then some (Memory.read s.store addr) else s.buf[j]?) ∧
      (a ≠ .ok → t.buf = s.buf)) ∧
    (∀ addr v, s.transaction = some (.write addr v) → ∃ t, step s = .next t ∧
      ∀ x, Memory.read t.store x =
        if x = addr then (match a with | .ok => v | .err left => left | .none => Memory.read s.store addr)
        else Memory.read s.store x) ∧
    (a = .none → s.phase ≠ .idle → step s = .next s.popped)

/-- R238: the entry of an error. The command makes no further write, one status frame is emitted, the engine is in `IDLE`, and every
register keeps its value: for IOError in every transaction phase, for InvalidInput and for IllegalCommand. -/
def Obligations.ErrorEntrySavesNothing : Prop :=
  (∀ (s : State) (left : Byte), s.Inv → s.turn = some (.err left) → s.powered = true → s.phase ≠ .idle →
    step s = .next { s.popped with
      phase := .idle
      out := s.out ++ [.status .ioError]
      store := match s.transaction with
        | some (.write addr _) => Memory.write s.store addr left
        | _ => s.store }) ∧
  (∀ s : State, s.ready → exec (.append []) s = .next { s with phase := .idle, out := s.out ++ [.status .invalidInput] }) ∧
  (∀ (s : State) (op : Byte), s.ready →
    execIllegal op s = .next { s with phase := .idle, out := s.out ++ [.status .illegalCommand] })

/-- R244, `20_memory.md` R66: with a store that never answers, the engine stays in its phase for ever: no step is enabled, and the
state is neither final nor faulted. That the model makes steps to the same state of this is its reading (DEDUCED,
notes/assumptions/5.md). -/
def Obligations.UnansweredTransactionWaitsForever : Prop :=
  ∀ (s : State) (n : Nat), s.Inv → s.powered = true → s.phase ≠ .idle → s.script = [] → s.thereafter = .none →
    run n s = .next s

/-! ### Whole-machine rules -/

/-- R173: `SI`, `BC` and `NWI` change only to 0, by one and never at their bound, or, `NWI` in RECOVER, to a copy of `SI`; `NWI`
returns to 0 only by the end of a wraparound erase, by RECOVER or by reset. -/
def Obligations.CountersMoveByOne : Prop :=
  ∀ s t : State, s.Inv → step s = .next t →
    (t.si = s.si ∨ t.si = 0 ∨ (t.si = s.si + 1 ∧ s.si < s.config.maxEntries)) ∧
    (t.bc = s.bc ∨ t.bc = 0 ∨ (t.bc = s.bc + 1 ∧ s.bc ≤ 63)) ∧
    (t.nwi = s.nwi ∨ t.nwi = 0 ∨ (t.nwi = s.nwi + 1 ∧ s.nwi < s.config.maxEntries) ∨
      (s.phase = .vRead ∧ t.nwi = t.si)) ∧
    (t.nwi = 0 → s.nwi ≠ 0 → s.phase = .aErase ∨ s.phase = .vRead ∨ ∃ l b, s.script.head? = some (.reset l b))

/-- R21, R22: which steps write `NWI` and `CRC`. -/
def Obligations.WritersOfNwiAndCrc : Prop :=
  ∀ s t : State, step s = .next t →
    (t.nwi ≠ s.nwi → (∃ l b, s.script.head? = some (.reset l b)) ∨
      (s.turn.isSome = true ∧ (s.phase = .aErase ∨ s.phase = .aWrite ∨ s.phase = .vRead))) ∧
    (t.crc ≠ s.crc → (∃ l b, s.script.head? = some (.reset l b)) ∨
      (s.turn.isSome = true ∧ (s.phase = .aErase ∨ s.phase = .rRead ∨ s.phase = .vRead ∨
        (s.phase = .idle ∧ ∃ i rest, decodeFrame s.port = some (.instr i, rest) ∧
          (i = .crcinit ∨ (∃ b, i = .crcbyte b) ∨ ∃ m, m ≠ [] ∧ i = .append m)))))

/-- R101, `10_state.md` R35: no step withdraws a frame, no step emits more than two, and none changes the parameters. -/
def Obligations.ResponsesAreAppendOnly : Prop :=
  ∀ s t : State, step s = .next t →
    (∃ fs, t.out = s.out ++ fs ∧ fs.length ≤ 2) ∧ t.config = s.config

/-- The reset state meets the invariant. -/
def Obligations.InvariantAtReset : Prop :=
  State.reset.Inv

/-- Every step keeps the invariant: the ranges of the registers (R193, R9), the canonical store, well-formed response frames (R101),
and in each phase what R171, R178, R184 and R195 say of it. -/
def Obligations.StepKeepsInvariant : Prop :=
  ∀ s t : State, s.Inv → step s = .next t → t.Inv

/-- In a state of the invariant no step faults, and only another master's access is refused (R235, U14, U15). -/
def Obligations.EngineNeverFaults : Prop :=
  ∀ s : State, s.Inv →
    (∀ r, step s ≠ .fault r) ∧
    (∀ r, step s = .refused r → (∃ addr v, s.script.head? = some (.extWrite addr v)) ∨
      ∃ addr, s.script.head? = some (.extRead addr))

/-- R171: every address the engine issues is `{slot, offset}` of a slot of the log, by the pairs of the phases, and needs no more
than 16 bits; in `A_WRITE`, `NWI < MAX_ENTRIES`. -/
def Obligations.AddressesStayInTheLog : Prop :=
  ∀ (s : State) (tx : Transaction), s.Inv → s.transaction = some tx →
    ∃ slot offset, slot < s.config.maxEntries ∧ offset ≤ 63 ∧ tx.addr = slot * 64 + offset ∧
      tx.addr = (BitVec.ofNat 10 slot ++ BitVec.ofNat 6 offset).toNat ∧
      tx.addr < s.config.storeSize ∧ tx.addr < 65536 ∧
      (s.phase = .aErase ∨ s.phase = .eWrite → slot = s.si ∧ offset = 0) ∧
      (s.phase = .aWrite → slot = s.nwi ∧ offset = s.bc) ∧
      (s.phase = .rRead ∨ s.phase = .vRead → slot = s.si ∧ offset = s.bc)

/-- `10_state.md` R23 to R26: what dead registers hold is never observed. Two states that differ only in them stay so, step by
step, with the same frames, store and outcome; in `IDLE` all four are dead. So nothing rests on their values after reset
(notes/assumptions/2.md). -/
def Obligations.DeadRegistersAreNotObserved : Prop :=
  (∀ s t : State, s.Inv → t.Inv → s.sameButDead t →
    (∃ s' t', step s = .next s' ∧ step t = .next t' ∧ s'.sameButDead t') ∨
    ∃ r, step s = .refused r ∧ step t = .refused r) ∧
  (∀ (s : State) (buf : Buf) (len si bc : Nat), s.phase = .idle →
    s.sameButDead { s with buf := buf, len := len, si := si, bc := bc })

/-- R280, D4: no result depends on `T_SETTLE`, and none of the engine's on `STORE_SIZE` beyond its bound. -/
def Obligations.SettleDelayHasNoEffect : Prop :=
  (∀ (s : State) (d : Nat), step { s with config := { s.config with tSettle := d } } =
    match step s with
    | .next t => .next { t with config := { t.config with tSettle := d } }
    | .fault r => .fault r
    | .refused r => .refused r) ∧
  (∀ (s : State) (n : Nat), s.Inv → s.turn.isSome = true → s.config.maxEntries * 64 ≤ n →
    ∃ t, step s = .next t ∧ step { s with config := { s.config with storeSize := n } } =
      .next { t with config := { t.config with storeSize := n } })

/-! ### The host, power and other masters (`60_exceptions.md`, `70_reset_and_hazards.md`) -/

/-- R252, R90: the host may present bytes in every state, during a command too; they join the end of the command port in the order
they come, and nothing else changes. That they wait there without power too is the model's reading of R252's "always" (DEDUCED,
notes/assumptions/15.md). -/
def Obligations.PresentedBytesJoinThePort : Prop :=
  ∀ (s : State) (bs : List Byte) (rest : List Move), s.script = .present bs :: rest →
    step s = .next { s with script := rest, port := s.port ++ bs }

/-- R260: the reset event, from every state, with any values left in `LEN` and `BUF`: the volatile registers take their reset values,
the store and the frames emitted are kept, and no frame is emitted. That exactly the incomplete frame at the end of the port is
discarded, complete ones waiting on, is the model's reading (DEDUCED, notes/assumptions/9.md). -/
def Obligations.ResetEventEffect : Prop :=
  (∀ (s : State) (l : BitVec 6) (b : Buf) (rest : List Move), s.script = .reset l b :: rest →
    step s = .next { s with
      script := rest, powered := true, phase := if s.config.autoRecover then .vRead else .idle
      nwi := 0, crc := 0xFFFF, si := 0, bc := 0, len := l.toNat, buf := b, port := completeFrames s.port }) ∧
  (∀ (cs : List Cmd) (part : List Byte),
    (∀ c ∈ cs, ∀ rest, decodeFrame (encodeCmd c ++ rest) = some (c, rest)) → decodeFrame part = none →
    completeFrames (cs.flatMap encodeCmd ++ part) = cs.flatMap encodeCmd)

/-- R251, R261: without power nothing happens in the block until a reset, the store keeps its contents and no frame is emitted or
withdrawn. R251 says that only the store survives; that the registers too keep their data until the reset writes them, that the
host's bytes may still be presented meanwhile, and that other masters are refused, is the model's reading (DEDUCED,
notes/assumptions/15.md). -/
def Obligations.UnpoweredBlockIsStill : Prop :=
  (∀ (s : State) (rest : List Move), s.script = .powerLoss :: rest →
    step s = .next { s with script := rest, powered := false }) ∧
  ∀ (s t : State) (n : Nat), s.powered = false → (s.script.take n).all (fun m => !m.isReset) = true →
    run n s = .next t → t = { s with port := t.port, script := t.script }

/-- R69, R252, U14, U15: another master moves only while the engine is powered and in `IDLE`, and only at an address of the store; its
write takes effect, inside the log region too, and its read changes nothing. The refusal without power is the model's reading
(notes/assumptions/8.md, notes/assumptions/15.md). -/
def Obligations.ForeignAccessOnlyInIdle : Prop :=
  ∀ (s : State) (addr : Word) (v : Byte) (rest : List Move),
    (s.script = .extWrite addr v :: rest →
      (s.ready → addr.toNat < s.config.storeSize → s.store.wf = true → ∃ t, step s = .next t ∧
        t = { s with script := rest, store := t.store } ∧
        ∀ x, Memory.read t.store x = if x = addr.toNat then v else Memory.read s.store x) ∧
      (s.ready → s.config.storeSize ≤ addr.toNat → step s = .refused (.foreignAddress addr.toNat)) ∧
      (¬ s.ready → step s = .refused .foreignAccess)) ∧
    (s.script = .extRead addr :: rest →
      (s.ready → addr.toNat < s.config.storeSize → step s = .next { s with script := rest }) ∧
      (s.ready → s.config.storeSize ≤ addr.toNat → step s = .refused (.foreignAddress addr.toNat)) ∧
      (¬ s.ready → step s = .refused .foreignAccess))

/-- R263: with AUTO_RECOVER the reset is followed by the steps of RECOVER and one unsolicited STATUS(OK), `NWI` being the number of
strings the log holds; without it the block is ready at once with `NWI = 0`. Transactions succeed here. -/
def Obligations.AutoRecoverRunsRecovery : Prop :=
  ∀ (s : State) (l : BitVec 6) (b : Buf), s.Inv → s.script = [.reset l b] → s.thereafter = .ok →
    ∃ t, step s = .next t ∧
      (s.config.autoRecover = false → t.ready ∧ t.nwi = 0 ∧ t.out = s.out) ∧
      (s.config.autoRecover = true → t.phase = .vRead ∧ t.nwi = 0 ∧ t.out = s.out ∧
        ∃ n u, run n t = .next u ∧ u.ready ∧ u.nwi = s.strings.length ∧ u.store = s.store ∧
          u.out = s.out ++ [.status .ok])

/-! ### Whole commands (`43_log_fsm.md`) -/

/-- R196 for APPEND: with the script's answers the steps of the table make the transactions of R177's pseudocode, in order, and end
in `IDLE` with its `NWI`, `CRC`, store and frames; bytes the host presents meanwhile wait. -/
def Obligations.AppendFollowsPseudocode : Prop :=
  ∀ (s : State) (m : List Byte) (v : LogView) (ts : List Transaction),
    s.Inv → s.ready → s.undisturbed → isMessage m = true →
    wholeAppend s.config.maxEntries m s.answers s.view = some (v, ts) →
    ∃ t, exec (.append m) s = .next t ∧ t.completesWith v ts

/-- R196 for READALL (R183). -/
def Obligations.ReadallFollowsPseudocode : Prop :=
  ∀ (s : State) (v : LogView) (ts : List Transaction), s.Inv → s.ready → s.undisturbed →
    wholeReadall s.config.maxEntries s.answers s.view = some (v, ts) →
    ∃ t, exec .readall s = .next t ∧ t.completesWith v ts

/-- R196 for ERASEALL (R187): `NWI` is not written (R188). -/
def Obligations.EraseallFollowsPseudocode : Prop :=
  ∀ (s : State) (v : LogView) (ts : List Transaction), s.Inv → s.ready → s.undisturbed →
    wholeEraseall s.config.maxEntries s.answers s.view = some (v, ts) →
    ∃ t, exec .eraseall s = .next t ∧ t.completesWith v ts ∧ v.nwi = s.nwi

/-- R196 for RECOVER (R190). -/
def Obligations.RecoverFollowsPseudocode : Prop :=
  ∀ (s : State) (v : LogView) (ts : List Transaction), s.Inv → s.ready → s.undisturbed →
    wholeRecover s.config.maxEntries s.answers s.view = some (v, ts) →
    ∃ t, exec .recover s = .next t ∧ t.completesWith v ts

/-- R176: while the store answers every transaction, a command is back in `IDLE` within its bound of turns of the engine,
whatever the host presents meanwhile. -/
def Obligations.CommandsTerminate : Prop :=
  ∀ (s : State) (i : Instr), s.Inv → s.ready → i.wellFormed = true → s.answering →
    ∃ t n u, exec i s = .next t ∧ n ≤ stepBound s.config.maxEntries i + s.otherMoves n ∧ run n t = .next u ∧ u.ready

/-- R105: when a command is first back in `IDLE`, it has emitted the frames of the table for it, and exactly one STATUS frame, the
last. -/
def Obligations.EveryCommandEndsInOneStatus : Prop :=
  ∀ (s : State) (i : Instr), s.Inv → s.ready → i.wellFormed = true → s.answering →
    ∃ t n u fs c, exec i s = .next t ∧ run n t = .next u ∧ u.ready ∧
      (∀ k < n, ∃ w, run k t = .next w ∧ ¬ w.ready) ∧
      u.out = s.out ++ fs ++ [.status c] ∧ (∀ f ∈ fs, f.isStatus = false) ∧ framesOf s.config.maxEntries i fs c

/-- R191, R185: for every contents of the store, RECOVER sets `NWI` to the index of the first Invalid slot, `MAX_ENTRIES` when there is
none, which is the number of strings READALL emits. Transactions succeed here. -/
def Obligations.RecoverCountsReadallStrings : Prop :=
  ∀ s : State, s.Inv → s.ready → s.succeeding →
    (∃ t n u, exec .recover s = .next t ∧ run n t = .next u ∧ u.ready ∧ u.store = s.store ∧
      u.nwi = s.strings.length ∧ u.out = s.out ++ [.status .ok] ∧
      (∀ k < u.nwi, validSlot s.store k) ∧
      (u.nwi < s.config.maxEntries ∧ ¬ validSlot s.store u.nwi ∨ u.nwi = s.config.maxEntries)) ∧
    (∃ t n u, exec .readall s = .next t ∧ run n t = .next u ∧ u.ready ∧ u.store = s.store ∧ u.nwi = s.nwi ∧
      u.out = s.out ++ s.strings.map .str ++ [.status .ok])

/-- R194 b: a successful non-empty APPEND keeps a clean log clean, and adds its first 61 bytes to the strings held, or holds only them
when the log was full. -/
def Obligations.AppendKeepsLogClean : Prop :=
  ∀ (s : State) (m : List Byte), s.Inv → s.clean → s.succeeding → isMessage m = true → m ≠ [] →
    ∃ t n u, exec (.append m) s = .next t ∧ run n t = .next u ∧ u.clean ∧
      u.out = s.out ++ [.status .ok] ∧
      (s.nwi < s.config.maxEntries → u.nwi = s.nwi + 1 ∧ u.strings = s.strings ++ [m.take 61]) ∧
      (s.nwi = s.config.maxEntries → u.nwi = 1 ∧ u.strings = [m.take 61])

/-- R194 c, d: in a clean log READALL emits the strings of slots `0 .. NWI-1`, RECOVER leaves `NWI`, and these and the commands of one
step keep the log clean. -/
def Obligations.ReadingKeepsLogClean : Prop :=
  ∀ s : State, s.Inv → s.clean → s.succeeding →
    s.strings.length = s.nwi ∧
    (∃ t n u, exec .readall s = .next t ∧ run n t = .next u ∧ u.clean ∧ u.store = s.store ∧
      u.out = s.out ++ s.strings.map .str ++ [.status .ok]) ∧
    (∃ t n u, exec .recover s = .next t ∧ run n t = .next u ∧ u.clean ∧ u.nwi = s.nwi ∧ u.store = s.store) ∧
    (∀ i, i = .nop ∨ i = .getidx ∨ i = .crcinit ∨ (∃ b, i = .crcbyte b) ∨ i = .crcread →
      ∃ u, exec i s = .next u ∧ u.clean)

/-- R194 a: ERASEALL with `NWI = 0`, and ERASEALL followed by RECOVER, give a clean log with no strings and `NWI = 0`. -/
def Obligations.EraseMakesLogClean : Prop :=
  ∀ s : State, s.Inv → s.ready → s.succeeding →
    ∃ t n u, exec .eraseall s = .next t ∧ run n t = .next u ∧ u.ready ∧ u.nwi = s.nwi ∧ u.strings = [] ∧
      (s.nwi = 0 → u.clean) ∧
      ∃ t' n' u', exec .recover u = .next t' ∧ run n' t' = .next u' ∧ u'.clean ∧ u'.nwi = 0 ∧ u'.strings = []

/-- R195, `20_memory.md` R65: power lost after `j` transactions leaves exactly the first `j` writes of the command in the store: of a
record (b), of an erase (a), of an erase and then a record in slot 0 when the log was full (a, b); reading commands leave the store
(c). The volatile state is then the reset state, and the status frame is missing unless the command was complete; the `STR`
frames READALL had emitted stay. -/
def Obligations.PowerLossLeavesWrittenPrefix : Prop :=
  ∀ (s : State) (j : Nat) (l : BitVec 6) (b : Buf), s.Inv → s.ready →
    s.script = List.replicate j (.engine .ok) ++ [.powerLoss, .reset l b] →
    (∀ m, isMessage m = true → m ≠ [] → s.nwi < s.config.maxEntries → j ≤ min m.length 61 + 3 →
      ∃ t u rec, exec (.append m) s = .next t ∧ run (j + 2) t = .next u ∧ encodeRecord m = some rec ∧
        u.volatileReset ∧ u.out = s.out ++ (if j = min m.length 61 + 3 then [.status .ok] else []) ∧
        (∀ x, some (Memory.read u.store x) =
          if s.nwi * 64 ≤ x ∧ x < s.nwi * 64 + j then rec[x - s.nwi * 64]? else some (Memory.read s.store x)) ∧
        (1 ≤ j → ¬ erasedSlot u.store s.nwi) ∧
        (j = min m.length 61 + 3 → slotString u.store s.nwi = some (m.take 61))) ∧
    (∀ m, isMessage m = true → m ≠ [] → s.nwi = s.config.maxEntries →
      j ≤ s.config.maxEntries + min m.length 61 + 3 →
      ∃ t u rec, exec (.append m) s = .next t ∧ run (j + 2) t = .next u ∧ encodeRecord m = some rec ∧
        u.volatileReset ∧
        u.out = s.out ++ (if j = s.config.maxEntries + min m.length 61 + 3 then [.status .ok] else []) ∧
        ∀ x, some (Memory.read u.store x) =
          if x < j - s.config.maxEntries then rec[x]?
          else if x % 64 = 0 ∧ x / 64 < min j s.config.maxEntries then some 0x00
          else some (Memory.read s.store x)) ∧
    (j ≤ s.config.maxEntries →
      ∃ t u, exec .eraseall s = .next t ∧ run (j + 2) t = .next u ∧ u.volatileReset ∧
        u.out = s.out ++ (if j = s.config.maxEntries then [.status .ok] else []) ∧
        ∀ x, Memory.read u.store x = if x % 64 = 0 ∧ x / 64 < j then 0x00 else Memory.read s.store x) ∧
    (j ≤ s.scanReads ∨ s.port = [] →
      (∃ t u, exec .readall s = .next t ∧ run (j + 2) t = .next u ∧ u.volatileReset ∧ u.store = s.store ∧
        u.out = s.out ++ (s.strings.take (j / 64)).map .str ++ (if s.scanReads ≤ j then [.status .ok] else [])) ∧
      ∃ t u, exec .recover s = .next t ∧ run (j + 2) t = .next u ∧ u.volatileReset ∧ u.store = s.store ∧
        u.out = s.out ++ (if s.scanReads ≤ j then [.status .ok] else []))

/-- R107: the pseudo-instruction CRC16 carries `crc16` of its bytes in its U16 frame, with `k + 2` STATUS(OK) frames; CRCSTR carries the
CRC of a record with that payload. -/
def Obligations.PseudoInstructionsCarryCrc : Prop :=
  ∀ (s : State) (bs : List Byte), s.ready →
    execAll (pseudoCrc16 bs) s = .next { s with
      crc := crc16 bs
      out := s.out ++ List.replicate (bs.length + 1) (.status .ok) ++ [.u16 (crc16 bs), .status .ok] } ∧
    execAll (pseudoCrcstr bs) s = .next { s with
      crc := crc16 (bs ++ [0x00])
      out := s.out ++ List.replicate (bs.length + 2) (.status .ok) ++ [.u16 (crc16 (bs ++ [0x00])), .status .ok] }
end

