-- ==== Sys2Proof/Laws/State.lean ====
section
/-! SUPPORT. One lemma per field per named update of State, true by definition: later proofs never unfold an update. -/

namespace Sys2Proof.Machine

@[simp] theorem emit_config (f : Rsp) (s : State) : (emit f s).config = s.config := rfl
@[simp] theorem emit_powered (f : Rsp) (s : State) : (emit f s).powered = s.powered := rfl
@[simp] theorem emit_phase (f : Rsp) (s : State) : (emit f s).phase = s.phase := rfl
@[simp] theorem emit_nwi (f : Rsp) (s : State) : (emit f s).nwi = s.nwi := rfl
@[simp] theorem emit_crc (f : Rsp) (s : State) : (emit f s).crc = s.crc := rfl
@[simp] theorem emit_buf (f : Rsp) (s : State) : (emit f s).buf = s.buf := rfl
@[simp] theorem emit_len (f : Rsp) (s : State) : (emit f s).len = s.len := rfl
@[simp] theorem emit_si (f : Rsp) (s : State) : (emit f s).si = s.si := rfl
@[simp] theorem emit_bc (f : Rsp) (s : State) : (emit f s).bc = s.bc := rfl
@[simp] theorem emit_store (f : Rsp) (s : State) : (emit f s).store = s.store := rfl
@[simp] theorem emit_out (f : Rsp) (s : State) : (emit f s).out = s.out ++ [f] := rfl
@[simp] theorem emit_port (f : Rsp) (s : State) : (emit f s).port = s.port := rfl
@[simp] theorem emit_script (f : Rsp) (s : State) : (emit f s).script = s.script := rfl
@[simp] theorem emit_thereafter (f : Rsp) (s : State) : (emit f s).thereafter = s.thereafter := rfl

@[simp] theorem raise_config (e : Status) (s : State) : (raise e s).config = s.config := rfl
@[simp] theorem raise_powered (e : Status) (s : State) : (raise e s).powered = s.powered := rfl
@[simp] theorem raise_phase (e : Status) (s : State) : (raise e s).phase = .idle := rfl
@[simp] theorem raise_nwi (e : Status) (s : State) : (raise e s).nwi = s.nwi := rfl
@[simp] theorem raise_crc (e : Status) (s : State) : (raise e s).crc = s.crc := rfl
@[simp] theorem raise_buf (e : Status) (s : State) : (raise e s).buf = s.buf := rfl
@[simp] theorem raise_len (e : Status) (s : State) : (raise e s).len = s.len := rfl
@[simp] theorem raise_si (e : Status) (s : State) : (raise e s).si = s.si := rfl
@[simp] theorem raise_bc (e : Status) (s : State) : (raise e s).bc = s.bc := rfl
@[simp] theorem raise_store (e : Status) (s : State) : (raise e s).store = s.store := rfl
@[simp] theorem raise_out (e : Status) (s : State) : (raise e s).out = s.out ++ [.status e] := rfl
@[simp] theorem raise_port (e : Status) (s : State) : (raise e s).port = s.port := rfl
@[simp] theorem raise_script (e : Status) (s : State) : (raise e s).script = s.script := rfl
@[simp] theorem raise_thereafter (e : Status) (s : State) : (raise e s).thereafter = s.thereafter := rfl

@[simp] theorem finish_config (s : State) : (finish s).config = s.config := rfl
@[simp] theorem finish_powered (s : State) : (finish s).powered = s.powered := rfl
@[simp] theorem finish_phase (s : State) : (finish s).phase = .idle := rfl
@[simp] theorem finish_nwi (s : State) : (finish s).nwi = s.nwi := rfl
@[simp] theorem finish_crc (s : State) : (finish s).crc = s.crc := rfl
@[simp] theorem finish_buf (s : State) : (finish s).buf = s.buf := rfl
@[simp] theorem finish_len (s : State) : (finish s).len = s.len := rfl
@[simp] theorem finish_si (s : State) : (finish s).si = s.si := rfl
@[simp] theorem finish_bc (s : State) : (finish s).bc = s.bc := rfl
@[simp] theorem finish_store (s : State) : (finish s).store = s.store := rfl
@[simp] theorem finish_out (s : State) : (finish s).out = s.out ++ [.status .ok] := rfl
@[simp] theorem finish_port (s : State) : (finish s).port = s.port := rfl
@[simp] theorem finish_script (s : State) : (finish s).script = s.script := rfl
@[simp] theorem finish_thereafter (s : State) : (finish s).thereafter = s.thereafter := rfl

@[simp] theorem loadMessage_config (m : List Byte) (s : State) : (loadMessage m s).config = s.config := rfl
@[simp] theorem loadMessage_powered (m : List Byte) (s : State) : (loadMessage m s).powered = s.powered := rfl
@[simp] theorem loadMessage_phase (m : List Byte) (s : State) : (loadMessage m s).phase = s.phase := rfl
@[simp] theorem loadMessage_nwi (m : List Byte) (s : State) : (loadMessage m s).nwi = s.nwi := rfl
@[simp] theorem loadMessage_crc (m : List Byte) (s : State) : (loadMessage m s).crc = s.crc := rfl
@[simp] theorem loadMessage_buf (m : List Byte) (s : State) :
    (loadMessage m s).buf = Buf.put s.buf 0 (payload m) := rfl
@[simp] theorem loadMessage_len (m : List Byte) (s : State) : (loadMessage m s).len = (payload m).length := rfl
@[simp] theorem loadMessage_si (m : List Byte) (s : State) : (loadMessage m s).si = s.si := rfl
@[simp] theorem loadMessage_bc (m : List Byte) (s : State) : (loadMessage m s).bc = s.bc := rfl
@[simp] theorem loadMessage_store (m : List Byte) (s : State) : (loadMessage m s).store = s.store := rfl
@[simp] theorem loadMessage_out (m : List Byte) (s : State) : (loadMessage m s).out = s.out := rfl
@[simp] theorem loadMessage_port (m : List Byte) (s : State) : (loadMessage m s).port = s.port := rfl
@[simp] theorem loadMessage_script (m : List Byte) (s : State) : (loadMessage m s).script = s.script := rfl
@[simp] theorem loadMessage_thereafter (m : List Byte) (s : State) :
    (loadMessage m s).thereafter = s.thereafter := rfl

@[simp] theorem encodeInPlace_config (s : State) : (encodeInPlace s).config = s.config := rfl
@[simp] theorem encodeInPlace_powered (s : State) : (encodeInPlace s).powered = s.powered := rfl
@[simp] theorem encodeInPlace_phase (s : State) : (encodeInPlace s).phase = s.phase := rfl
@[simp] theorem encodeInPlace_nwi (s : State) : (encodeInPlace s).nwi = s.nwi := rfl
@[simp] theorem encodeInPlace_crc (s : State) :
    (encodeInPlace s).crc = crc16 (s.buf.toList.take s.len ++ [0x00]) := rfl
theorem encodeInPlace_buf (s : State) :
    (encodeInPlace s).buf = Buf.put s.buf s.len [0x00, hiByte (encodeInPlace s).crc, loByte (encodeInPlace s).crc] := rfl
@[simp] theorem encodeInPlace_len (s : State) : (encodeInPlace s).len = s.len := rfl
@[simp] theorem encodeInPlace_si (s : State) : (encodeInPlace s).si = s.si := rfl
@[simp] theorem encodeInPlace_bc (s : State) : (encodeInPlace s).bc = s.bc := rfl
@[simp] theorem encodeInPlace_store (s : State) : (encodeInPlace s).store = s.store := rfl
@[simp] theorem encodeInPlace_out (s : State) : (encodeInPlace s).out = s.out := rfl
@[simp] theorem encodeInPlace_port (s : State) : (encodeInPlace s).port = s.port := rfl
@[simp] theorem encodeInPlace_script (s : State) : (encodeInPlace s).script = s.script := rfl
@[simp] theorem encodeInPlace_thereafter (s : State) : (encodeInPlace s).thereafter = s.thereafter := rfl

@[simp] theorem startRecord_config (s : State) : (startRecord s).config = s.config := rfl
@[simp] theorem startRecord_powered (s : State) : (startRecord s).powered = s.powered := rfl
@[simp] theorem startRecord_phase (s : State) : (startRecord s).phase = .aWrite := rfl
@[simp] theorem startRecord_nwi (s : State) : (startRecord s).nwi = s.nwi := rfl
@[simp] theorem startRecord_crc (s : State) : (startRecord s).crc = (encodeInPlace s).crc := rfl
@[simp] theorem startRecord_buf (s : State) : (startRecord s).buf = (encodeInPlace s).buf := rfl
@[simp] theorem startRecord_len (s : State) : (startRecord s).len = s.len := rfl
@[simp] theorem startRecord_si (s : State) : (startRecord s).si = s.si := rfl
@[simp] theorem startRecord_bc (s : State) : (startRecord s).bc = 0 := rfl
@[simp] theorem startRecord_store (s : State) : (startRecord s).store = s.store := rfl
@[simp] theorem startRecord_out (s : State) : (startRecord s).out = s.out := rfl
@[simp] theorem startRecord_port (s : State) : (startRecord s).port = s.port := rfl
@[simp] theorem startRecord_script (s : State) : (startRecord s).script = s.script := rfl
@[simp] theorem startRecord_thereafter (s : State) : (startRecord s).thereafter = s.thereafter := rfl

@[simp] theorem present_config (bs : List Byte) (s : State) : (present bs s).config = s.config := rfl
@[simp] theorem present_powered (bs : List Byte) (s : State) : (present bs s).powered = s.powered := rfl
@[simp] theorem present_phase (bs : List Byte) (s : State) : (present bs s).phase = s.phase := rfl
@[simp] theorem present_nwi (bs : List Byte) (s : State) : (present bs s).nwi = s.nwi := rfl
@[simp] theorem present_crc (bs : List Byte) (s : State) : (present bs s).crc = s.crc := rfl
@[simp] theorem present_buf (bs : List Byte) (s : State) : (present bs s).buf = s.buf := rfl
@[simp] theorem present_len (bs : List Byte) (s : State) : (present bs s).len = s.len := rfl
@[simp] theorem present_si (bs : List Byte) (s : State) : (present bs s).si = s.si := rfl
@[simp] theorem present_bc (bs : List Byte) (s : State) : (present bs s).bc = s.bc := rfl
@[simp] theorem present_store (bs : List Byte) (s : State) : (present bs s).store = s.store := rfl
@[simp] theorem present_out (bs : List Byte) (s : State) : (present bs s).out = s.out := rfl
@[simp] theorem present_port (bs : List Byte) (s : State) : (present bs s).port = s.port ++ bs := rfl
@[simp] theorem present_script (bs : List Byte) (s : State) : (present bs s).script = s.script := rfl
@[simp] theorem present_thereafter (bs : List Byte) (s : State) : (present bs s).thereafter = s.thereafter := rfl

@[simp] theorem powerLoss_config (s : State) : (powerLoss s).config = s.config := rfl
@[simp] theorem powerLoss_powered (s : State) : (powerLoss s).powered = false := rfl
@[simp] theorem powerLoss_phase (s : State) : (powerLoss s).phase = s.phase := rfl
@[simp] theorem powerLoss_nwi (s : State) : (powerLoss s).nwi = s.nwi := rfl
@[simp] theorem powerLoss_crc (s : State) : (powerLoss s).crc = s.crc := rfl
@[simp] theorem powerLoss_buf (s : State) : (powerLoss s).buf = s.buf := rfl
@[simp] theorem powerLoss_len (s : State) : (powerLoss s).len = s.len := rfl
@[simp] theorem powerLoss_si (s : State) : (powerLoss s).si = s.si := rfl
@[simp] theorem powerLoss_bc (s : State) : (powerLoss s).bc = s.bc := rfl
@[simp] theorem powerLoss_store (s : State) : (powerLoss s).store = s.store := rfl
@[simp] theorem powerLoss_out (s : State) : (powerLoss s).out = s.out := rfl
@[simp] theorem powerLoss_port (s : State) : (powerLoss s).port = s.port := rfl
@[simp] theorem powerLoss_script (s : State) : (powerLoss s).script = s.script := rfl
@[simp] theorem powerLoss_thereafter (s : State) : (powerLoss s).thereafter = s.thereafter := rfl

@[simp] theorem resetEvent_config (l : BitVec 6) (b : Buf) (s : State) : (resetEvent l b s).config = s.config := rfl
@[simp] theorem resetEvent_powered (l : BitVec 6) (b : Buf) (s : State) : (resetEvent l b s).powered = true := rfl
@[simp] theorem resetEvent_phase (l : BitVec 6) (b : Buf) (s : State) :
    (resetEvent l b s).phase = if s.config.autoRecover then .vRead else .idle := rfl
@[simp] theorem resetEvent_nwi (l : BitVec 6) (b : Buf) (s : State) : (resetEvent l b s).nwi = 0 := rfl
@[simp] theorem resetEvent_crc (l : BitVec 6) (b : Buf) (s : State) : (resetEvent l b s).crc = 0xFFFF := rfl
@[simp] theorem resetEvent_buf (l : BitVec 6) (b : Buf) (s : State) : (resetEvent l b s).buf = b := rfl
@[simp] theorem resetEvent_len (l : BitVec 6) (b : Buf) (s : State) : (resetEvent l b s).len = l.toNat := rfl
@[simp] theorem resetEvent_si (l : BitVec 6) (b : Buf) (s : State) : (resetEvent l b s).si = 0 := rfl
@[simp] theorem resetEvent_bc (l : BitVec 6) (b : Buf) (s : State) : (resetEvent l b s).bc = 0 := rfl
@[simp] theorem resetEvent_store (l : BitVec 6) (b : Buf) (s : State) : (resetEvent l b s).store = s.store := rfl
@[simp] theorem resetEvent_out (l : BitVec 6) (b : Buf) (s : State) : (resetEvent l b s).out = s.out := rfl
@[simp] theorem resetEvent_port (l : BitVec 6) (b : Buf) (s : State) :
    (resetEvent l b s).port = completeFrames s.port := rfl
@[simp] theorem resetEvent_script (l : BitVec 6) (b : Buf) (s : State) : (resetEvent l b s).script = s.script := rfl
@[simp] theorem resetEvent_thereafter (l : BitVec 6) (b : Buf) (s : State) :
    (resetEvent l b s).thereafter = s.thereafter := rfl

@[simp] theorem State.popped_config (s : State) : s.popped.config = s.config := rfl
@[simp] theorem State.popped_powered (s : State) : s.popped.powered = s.powered := rfl
@[simp] theorem State.popped_phase (s : State) : s.popped.phase = s.phase := rfl
@[simp] theorem State.popped_nwi (s : State) : s.popped.nwi = s.nwi := rfl
@[simp] theorem State.popped_crc (s : State) : s.popped.crc = s.crc := rfl
@[simp] theorem State.popped_buf (s : State) : s.popped.buf = s.buf := rfl
@[simp] theorem State.popped_len (s : State) : s.popped.len = s.len := rfl
@[simp] theorem State.popped_si (s : State) : s.popped.si = s.si := rfl
@[simp] theorem State.popped_bc (s : State) : s.popped.bc = s.bc := rfl
@[simp] theorem State.popped_store (s : State) : s.popped.store = s.store := rfl
@[simp] theorem State.popped_out (s : State) : s.popped.out = s.out := rfl
@[simp] theorem State.popped_port (s : State) : s.popped.port = s.port := rfl
@[simp] theorem State.popped_script (s : State) : s.popped.script = s.script.tail := rfl
@[simp] theorem State.popped_thereafter (s : State) : s.popped.thereafter = s.thereafter := rfl

end Sys2Proof.Machine
end

