-- ==== Sys2Proof/Laws/Codec.lean ====
section
/-! SUPPORT. Lengths of payloads and records, the two bytes of a word, and the buffer after a run of bytes is put into it. -/

namespace Sys2Proof.Machine

@[simp] theorem payload_length (m : List Byte) : (payload m).length = min 61 m.length := by
  simp [payload]

@[simp] theorem record_length (p : List Byte) : (record p).length = p.length + 3 := by
  simp [record]

theorem hiByte_append_loByte (v : Word) : hiByte v ++ loByte v = v := by
  apply BitVec.eq_of_getLsbD_eq
  intro i hi
  simp only [hiByte, loByte, BitVec.getLsbD_append, BitVec.getLsbD_extractLsb']
  by_cases h : i < 8
  · simp [h]
  · simp [h, show i - 8 < 8 by omega, show 8 + (i - 8) = i by omega]

/-- The buffer after `BUF[i : i + len(vs)) <- vs`, byte by byte. -/
theorem Buf.getElem?_put (b : Buf) (i : Nat) (vs : List Byte) (j : Nat) :
    (Buf.put b i vs)[j]? = if i ≤ j ∧ j < i + vs.length ∧ j < 64 then vs[j - i]? else b[j]? := by
  induction vs generalizing b i with
  | nil => simp [Buf.put]; omega
  | cons v rest ih =>
    rw [Buf.put, ih]
    by_cases h64 : j < 64
    · by_cases hij : i = j
      · subst hij
        simp [h64]
      · by_cases h1 : i + 1 ≤ j
        · have h2 : i ≤ j := by omega
          have e : j - i = (j - (i + 1)) + 1 := by omega
          by_cases h3 : j < i + 1 + rest.length
          · have h4 : j < i + (rest.length + 1) := by omega
            simp [h1, h2, h3, h4, h64, e]
          · have h4 : ¬ j < i + (rest.length + 1) := by omega
            simp [h3, h4, hij]
        · have h2 : ¬ i ≤ j := by omega
          simp [h1, h2, hij]
    · simp [h64]

end Sys2Proof.Machine
end

