-- ==== Sys2Proof/Laws/Memory.lean ====
section
/-! SUPPORT. The store as a function: what reading gives after a write, and that every write keeps the canonical form. -/

namespace Sys2Proof.Machine

@[simp] theorem Memory.read_nil (a : Nat) : Memory.read [] a = Config.unwritten := rfl

theorem Memory.wfFrom_mono {m : Memory} {low low' : Nat} (h : low' ≤ low) (hm : Memory.wfFrom low m = true) :
    Memory.wfFrom low' m = true := by
  cases m with
  | nil => rfl
  | cons c rest =>
    simp only [Memory.wfFrom, Bool.and_eq_true, decide_eq_true_eq] at hm ⊢
    exact ⟨⟨by omega, hm.1.2⟩, hm.2⟩

/-- Below the least listed address nothing is listed. -/
theorem Memory.read_below {m : Memory} {low a : Nat} (hm : Memory.wfFrom low m = true) (h : a < low) :
    Memory.read m a = Config.unwritten := by
  induction m generalizing low with
  | nil => rfl
  | cons c rest ih =>
    simp only [Memory.wfFrom, Bool.and_eq_true, decide_eq_true_eq] at hm
    have : a ≠ c.1 := by omega
    simp only [Memory.read, this, if_false]
    exact ih hm.2 (by omega)

theorem Memory.wfFrom_write {m : Memory} {low a : Nat} (v : Byte) (hm : Memory.wfFrom low m = true) (h : low ≤ a) :
    Memory.wfFrom low (Memory.write m a v) = true := by
  induction m generalizing low with
  | nil =>
    by_cases hv : v = Config.unwritten <;> simp [Memory.write, Memory.wfFrom, hv, h]
  | cons c rest ih =>
    have hm' := hm
    simp only [Memory.wfFrom, Bool.and_eq_true, decide_eq_true_eq] at hm'
    obtain ⟨⟨hlow, hne⟩, hrest⟩ := hm'
    simp only [Memory.write]
    split_ifs with h1 h2 h3 h4
    · exact hm
    · simp only [Memory.wfFrom, Bool.and_eq_true, decide_eq_true_eq]
      exact ⟨⟨h, h2⟩, ⟨by omega, hne⟩, hrest⟩
    · exact Memory.wfFrom_mono (by omega) hrest
    · simp only [Memory.wfFrom, Bool.and_eq_true, decide_eq_true_eq]
      exact ⟨⟨h, h4⟩, h3 ▸ hrest⟩
    · simp only [Memory.wfFrom, Bool.and_eq_true, decide_eq_true_eq]
      exact ⟨⟨hlow, hne⟩, ih hrest (by omega)⟩

/-- A write keeps the canonical form. -/
theorem Memory.wf_write {m : Memory} (a : Nat) (v : Byte) (hm : m.wf = true) : (m.write a v).wf = true :=
  Memory.wfFrom_write v hm (Nat.zero_le a)

theorem Memory.read_write_from {m : Memory} {low : Nat} (a b : Nat) (v : Byte) (hm : Memory.wfFrom low m = true) :
    Memory.read (Memory.write m a v) b = if b = a then v else Memory.read m b := by
  induction m generalizing low with
  | nil =>
    by_cases hv : v = Config.unwritten <;> by_cases hb : b = a <;> simp [Memory.write, Memory.read, hv, hb]
  | cons c rest ih =>
    obtain ⟨k, w⟩ := c
    simp only [Memory.wfFrom, Bool.and_eq_true, decide_eq_true_eq] at hm
    obtain ⟨-, hrest⟩ := hm
    have hbelow : ∀ x, x ≤ k → Memory.read rest x = Config.unwritten := fun x hx =>
      Memory.read_below hrest (by omega)
    rcases Nat.lt_trichotomy a k with h | rfl | h
    · by_cases hv : v = Config.unwritten <;> by_cases hb : b = a
      · subst hb
        simp [Memory.write, Memory.read, h, hv, Nat.ne_of_lt h, hbelow b (Nat.le_of_lt h)]
      · simp [Memory.write, Memory.read, h, hv, hb]
      · simp [Memory.write, Memory.read, h, hv, hb]
      · simp [Memory.write, Memory.read, h, hv, hb]
    · by_cases hv : v = Config.unwritten <;> by_cases hb : b = a
      · subst hb
        simp [Memory.write, hv, hbelow b (Nat.le_refl b)]
      · simp [Memory.write, Memory.read, hv, hb]
      · simp [Memory.write, Memory.read, hv, hb]
      · simp [Memory.write, Memory.read, hv, hb]
    · have h1 : ¬ a < k := by omega
      have h2 : a ≠ k := by omega
      by_cases hb : b = k
      · subst hb
        simp [Memory.write, Memory.read, h1, h2, Ne.symm h2]
      · simp [Memory.write, Memory.read, h1, h2, hb, ih hrest]

/-- Reading after a write (`20_memory.md` R68). -/
theorem Memory.read_write {m : Memory} (a b : Nat) (v : Byte) (hm : m.wf = true) :
    (m.write a v).read b = if b = a then v else m.read b :=
  Memory.read_write_from a b v hm

/-- A write lists no address but its own. -/
theorem Memory.mem_write {m : Memory} {a : Nat} {v : Byte} {c : Host.Cell} (h : c ∈ m.write a v) :
    c ∈ m ∨ c.1 = a := by
  induction m with
  | nil =>
    simp only [Memory.write] at h
    split_ifs at h <;> simp_all
  | cons d rest ih =>
    simp only [Memory.write] at h
    split_ifs at h <;> simp only [List.mem_cons] at h ⊢ <;> try tauto
    · rcases h with rfl | h
      · exact .inr rfl
      · tauto
    · rcases h with rfl | h
      · exact .inr rfl
      · tauto

/-- A write below `n` keeps every listed address below `n`. -/
theorem Memory.all_below_write {m : Memory} {n a : Nat} (v : Byte)
    (hm : m.all (fun c => c.1 < n) = true) (h : a < n) : (m.write a v).all (fun c => c.1 < n) = true := by
  simp only [List.all_eq_true, decide_eq_true_eq] at hm ⊢
  intro c hc
  rcases Memory.mem_write hc with h' | h'
  · exact hm c h'
  · omega

end Sys2Proof.Machine
end

