-- ==== Sys2Proof/Laws/Ops.lean ====
section
/-! SUPPORT. What each shared operation can do, said once: if it answers `next t`, one of these cases holds. -/

namespace Sys2Proof.Machine

variable {s t : State} {a : Answer}

theorem accept_of_ready (f : State → State) (h : s.ready) : accept f s = .next (f s) := if_pos h

theorem accept_of_busy (f : State → State) (h : ¬ s.ready) : accept f s = .refused .portNotReady := if_neg h

theorem accept_next {f : State → State} (h : accept f s = .next t) : s.ready ∧ t = f s := by
  unfold accept at h
  split at h
  · exact ⟨‹_›, by cases h; rfl⟩
  · cases h

theorem accept_not_fault (f : State → State) (r : Fault) : accept f s ≠ .fault r := by
  unfold accept
  split <;> simp

/-- A read that answers: the value, or the IOError entry, or waiting (`20_memory.md` R63, R66). -/
theorem readTransaction_next {addr : Nat} {k : Byte → State} (h : readTransaction addr a k s = .next t) :
    addr < s.config.storeSize ∧
      ((a = .ok ∧ t = k (Memory.read s.store addr)) ∨ ((∃ l, a = .err l) ∧ t = raise .ioError s) ∨
        (a = .none ∧ t = s)) := by
  unfold readTransaction at h
  split at h
  · refine ⟨‹_›, ?_⟩
    cases a <;> cases h <;> simp
  · cases h

/-- A write that answers: the store with the byte, or the IOError entry with any byte there, or waiting
(`20_memory.md` R64, R66). -/
theorem writeTransaction_next {addr : Nat} {v : Byte} {k : State → State}
    (h : writeTransaction addr v a k s = .next t) :
    addr < s.config.storeSize ∧
      ((a = .ok ∧ t = k { s with store := Memory.write s.store addr v }) ∨
        (∃ l, a = .err l ∧ t = raise .ioError { s with store := Memory.write s.store addr l }) ∨
        (a = .none ∧ t = s)) := by
  unfold writeTransaction at h
  split at h
  · refine ⟨‹_›, ?_⟩
    cases a <;> cases h <;> simp
  · cases h

theorem readTransaction_fault {addr : Nat} {k : Byte → State} {r : Fault}
    (h : readTransaction addr a k s = .fault r) : s.config.storeSize ≤ addr := by
  unfold readTransaction at h
  split at h
  · cases a <;> cases h
  · omega

theorem writeTransaction_fault {addr : Nat} {v : Byte} {k : State → State} {r : Fault}
    (h : writeTransaction addr v a k s = .fault r) : s.config.storeSize ≤ addr := by
  unfold writeTransaction at h
  split at h
  · cases a <;> cases h
  · omega

theorem readTransaction_not_refused (addr : Nat) (k : Byte → State) (r : Refusal) :
    readTransaction addr a k s ≠ .refused r := by
  unfold readTransaction
  split
  · cases a <;> simp
  · simp

theorem writeTransaction_not_refused (addr : Nat) (v : Byte) (k : State → State) (r : Refusal) :
    writeTransaction addr v a k s ≠ .refused r := by
  unfold writeTransaction
  split
  · cases a <;> simp
  · simp

/-- Another master's access that answers (`20_memory.md` R69). -/
theorem foreignAccess_next {addr : Word} {f : State → State} (h : foreignAccess addr f s = .next t) :
    s.ready ∧ addr.toNat < s.config.storeSize ∧ t = f s := by
  unfold foreignAccess at h
  split at h
  · split at h
    · exact ⟨‹_›, ‹_›, by cases h; rfl⟩
    · cases h
  · cases h

theorem foreignAccess_not_fault (addr : Word) (f : State → State) (r : Fault) : foreignAccess addr f s ≠ .fault r := by
  unfold foreignAccess
  split
  · split <;> simp
  · simp

end Sys2Proof.Machine
end

