-- ==== Sys2Proof/Laws/Step.lean ====
section
/-! SUPPORT. What one step can do, who moves, and how runs and their transactions compose. -/

namespace Sys2Proof.Machine

variable {s t : State} {a : Answer}

/-- When it is the engine's turn, the step is the engine's. -/
theorem step_of_turn (h : s.turn = some a) : step s = engineTurn a s.popped := by
  unfold State.turn at h
  split at h
  · rename_i hs
    cases h
    have hp : s.popped = s := by
      cases s
      simp_all [State.popped]
    rw [hp, step, hs]
  · rename_i hs
    cases h
    simp only [step, hs, move, State.popped, List.tail_cons]
  · cases h

/-- When another agent moves next, the step is that move. -/
theorem step_of_script {m : Move} {rest : List Move} (h : s.script = m :: rest) :
    step s = move m { s with script := rest } := by
  rw [step, h]

/-- Bytes presented take one step and join the end of the port (`60_exceptions.md` R252). -/
theorem step_of_present {bs : List Byte} {rest : List Move} (h : s.script = .present bs :: rest) :
    step s = .next { s with script := rest, port := s.port ++ bs } :=
  step_of_script h

/-- The engine's turn without power (`70_reset_and_hazards.md` R261). -/
theorem engineTurn_unpowered (h : s.powered = false) : engineTurn a s = .next s := by
  simp [engineTurn, h]

/-- The engine's turn in a transaction phase is the row of the phase. -/
theorem engineTurn_busy (hp : s.powered = true) (h : s.phase ≠ .idle) : engineTurn a s = engineStep a s := by
  simp [engineTurn, hp, h]

@[simp] theorem run_zero (s : State) : run 0 s = .next s := rfl

theorem run_succ_of_step {n : Nat} (h : step s = .next t) : run (n + 1) s = run n t := by
  rw [run, h]

theorem run_succ_of_fault {n : Nat} {r : Fault} (h : step s = .fault r) : run (n + 1) s = .fault r := by
  rw [run, h]

theorem run_succ_of_refused {n : Nat} {r : Refusal} (h : step s = .refused r) : run (n + 1) s = .refused r := by
  rw [run, h]

/-- A run of `m + n` steps is a run of `m` and then of `n`. -/
theorem run_add {m n : Nat} (h : run m s = .next t) : run (m + n) s = run n t := by
  induction m generalizing s with
  | zero => cases h; rw [Nat.zero_add]
  | succ m ih =>
    cases hs : step s with
    | next u =>
      rw [run_succ_of_step hs] at h
      rw [Nat.succ_add, run_succ_of_step hs, ih h]
    | fault r => simp [run, hs] at h
    | refused r => simp [run, hs] at h

@[simp] theorem trace_zero (s : State) : trace 0 s = [] := rfl

theorem trace_succ_of_step {n : Nat} (h : step s = .next t) : trace (n + 1) s = s.issued ++ trace n t := by
  rw [trace, h]

/-- The transactions of `m + n` steps are those of `m` and then those of `n`. -/
theorem trace_add {m n : Nat} (h : run m s = .next t) : trace (m + n) s = trace m s ++ trace n t := by
  induction m generalizing s with
  | zero => cases h; simp
  | succ m ih =>
    cases hs : step s with
    | next u =>
      rw [run_succ_of_step hs] at h
      rw [Nat.succ_add, trace_succ_of_step hs, trace_succ_of_step hs, ih h, List.append_assoc]
    | fault r => simp [run, hs] at h
    | refused r => simp [run, hs] at h

/-- While only the engine and the host move, some `k` moves of the host bring the engine's next turn: they add the bytes they present
to the port, take themselves off the script and change nothing else. -/
theorem exists_run_to_turn {p : Answer → Bool} (h : s.script.all (Move.engineOrHost p) = true) :
    ∃ k u a, run k s = .next u ∧
      u = { s with script := s.script.drop k, port := s.port ++ (s.script.take k).flatMap Move.presented } ∧
      u.turn = some a ∧ (p s.thereafter = true → p a = true) ∧ trace k s = [] ∧ k = s.otherMoves k ∧
      k ≤ s.script.length := by
  generalize hms : s.script = ms at h
  induction ms generalizing s with
  | nil =>
    refine ⟨0, s, s.thereafter, rfl, ?_, by simp [State.turn, hms], id, rfl, by simp [State.otherMoves], by simp⟩
    cases s; simp_all
  | cons m rest ih =>
    rw [List.all_cons, Bool.and_eq_true] at h
    cases m with
    | engine a =>
      refine ⟨0, s, a, rfl, ?_, by simp [State.turn, hms], fun _ => h.1, rfl, by simp [State.otherMoves], by simp⟩
      cases s; simp_all
    | present bs =>
      obtain ⟨k, u, a, hr, hu, ht, hp, hx, hk, hl⟩ := ih (s := { s with script := rest, port := s.port ++ bs }) rfl h.2
      have hs := step_of_present hms
      refine ⟨k + 1, u, a, (run_succ_of_step hs).trans hr, ?_, ht, hp, ?_, ?_, ?_⟩
      · simpa [Move.presented] using hu
      · rw [trace_succ_of_step hs, hx]
        simp [State.issued, State.turn, hms]
      · simp only [State.otherMoves] at hk
        rw [State.otherMoves, hms, List.take_succ_cons, List.countP_cons_of_pos rfl, ← hk]
      · simpa using hl
    | powerLoss => cases h.1
    | reset l b => cases h.1
    | extWrite x v => cases h.1
    | extRead x => cases h.1

theorem coreRun_next (M : Host.Core) {n : Nat} {s t : M.State} (h : M.step s = .next t) :
    M.run (n + 1) s = M.run n t := by
  simp only [Host.Core.run, h]

theorem coreRun_fault (M : Host.Core) {n : Nat} {s : M.State} {r : M.Fault} (h : M.step s = .fault r) :
    M.run (n + 1) s = .fault r := by
  simp only [Host.Core.run, h]

theorem coreRun_refused (M : Host.Core) {n : Nat} {s : M.State} {r : M.Refusal} (h : M.step s = .refused r) :
    M.run (n + 1) s = .refused r := by
  simp only [Host.Core.run, h]

/-- The runs of Safety are the host's runs of the machine. -/
theorem core_run (n : Nat) (s : State) : Host.Core.run Sys2Proof.core n s = run n s := by
  induction n generalizing s with
  | zero => rfl
  | succ n ih =>
    cases h : step s with
    | next t => exact (coreRun_next Sys2Proof.core h).trans ((ih t).trans (run_succ_of_step h).symm)
    | fault r => exact (coreRun_fault Sys2Proof.core h).trans (run_succ_of_fault h).symm
    | refused r => exact (coreRun_refused Sys2Proof.core h).trans (run_succ_of_refused h).symm

end Sys2Proof.Machine
end

