-- ==== Sys2Proof/Laws/Engine.lean ====
section
/-! SUPPORT. What each row of the step table can do: the cases of `writeTransaction_next` and `readTransaction_next`, with
the row's own continuation. -/

namespace Sys2Proof.Machine

variable {s t : State} {a : Answer}

/-- Row `A_WRITE`: the byte `BUF[BC]` exists and is written. -/
theorem stepAWrite_next (h : stepAWrite a s = .next t) :
    ∃ v, s.buf[s.bc]? = some v ∧
      writeTransaction (slotAddr s.nwi s.bc) v a (fun s =>
        if s.bc + 1 < s.len + 3 then { s with bc := s.bc + 1 }
        else finish { s with bc := s.bc + 1, nwi := s.nwi + 1 }) s = .next t := by
  unfold stepAWrite at h
  split at h
  · cases h
  · exact ⟨_, ‹_›, h⟩

/-- The slot read: waiting, the IOError entry, one more byte, or the slot's last byte and what follows it. -/
theorem slotReadStep_next {onSlot : Verdict → State → State} (h : slotReadStep onSlot a s = .next t) :
    s.bc < 64 ∧ slotAddr s.si s.bc < s.config.storeSize ∧
      ((a = .none ∧ t = s) ∨ ((∃ l, a = .err l) ∧ t = raise .ioError s) ∨
        (a = .ok ∧ ∃ b, b = s.buf.setIfInBounds s.bc (Memory.read s.store (slotAddr s.si s.bc)) ∧
          ((s.bc + 1 < 64 ∧ t = { s with buf := b, bc := s.bc + 1 }) ∨
            (s.bc = 63 ∧ t = onSlot (decodeRecord b.toList)
              { s with buf := b, crc := decodeCrc b.toList s.crc })))) := by
  unfold slotReadStep at h
  split at h
  · rename_i hb
    obtain ⟨hlt, ⟨ha, rfl⟩ | ⟨hl, rfl⟩ | ⟨ha, rfl⟩⟩ := readTransaction_next h
    · refine ⟨hb, hlt, .inr (.inr ⟨ha, _, rfl, ?_⟩)⟩
      by_cases h1 : s.bc + 1 < 64
      · exact .inl ⟨h1, by simp [h1]⟩
      · exact .inr ⟨by omega, by simp [h1]⟩
    · exact ⟨hb, hlt, .inr (.inl ⟨hl, rfl⟩)⟩
    · exact ⟨hb, hlt, .inl ⟨ha, rfl⟩⟩
  · cases h

end Sys2Proof.Machine
end

