-- ==== Sys2Proof/Laws/PerInstr.lean ====
section
/-! SUPPORT. Statements made per instruction. `FrameShape`: the frame of an instruction begins with its opcode, which is one
of the nine of the map (`30_encoding.md` R91, R98), and only formats B and S have a byte after it. -/

namespace Sys2Proof.Laws.FrameShape

def Statement (i : Instr) : Prop :=
  (encode i).head? = some (opcode i) ∧
    opcode i ∈ [0x00, 0x01, 0x02, 0x03, 0x04, 0x05, 0x10, 0x11, 0x12] ∧
    ((encode i).length = 1 ↔ opcode i ≠ 0x01 ∧ opcode i ≠ 0x11)

theorem nop : Statement .nop := by simp [Statement, encode, opcode, operandBytes]
theorem append (m : List Byte) : Statement (.append m) := by simp [Statement, encode, opcode, operandBytes]
theorem readall : Statement .readall := by simp [Statement, encode, opcode, operandBytes]
theorem eraseall : Statement .eraseall := by simp [Statement, encode, opcode, operandBytes]
theorem recover : Statement .recover := by simp [Statement, encode, opcode, operandBytes]
theorem getidx : Statement .getidx := by simp [Statement, encode, opcode, operandBytes]
theorem crcinit : Statement .crcinit := by simp [Statement, encode, opcode, operandBytes]
theorem crcbyte (imm8 : Byte) : Statement (.crcbyte imm8) := by simp [Statement, encode, opcode, operandBytes]
theorem crcread : Statement .crcread := by simp [Statement, encode, opcode, operandBytes]

end Sys2Proof.Laws.FrameShape
end

