-- ==== Sys2Proof/Tests/Slice0.lean ====
section
/-! SUPPORT. The model's own tests. Expected values are those of `spec/95_test_vectors.md` and of the rules' worked examples, named in
each comment; no value is the model's own answer pasted back. The `witness_` theorems show, for each statement with
hypotheses, concrete values that meet them together. -/

namespace Sys2Proof.Tests

open Sys2Proof Sys2Proof.Machine

/-- 2.7's start state but for the store, which is as never written: after reset, four slots, 256 bytes. -/
def base : State :=
  { State.reset with config := { maxEntries := 4, storeSize := 256, autoRecover := false, tSettle := 1 } }

/-- The same with one slot. -/
def oneSlot : State :=
  { State.reset with config := { maxEntries := 1, storeSize := 64, autoRecover := false, tSettle := 1 } }

/-- The next state, or the state itself where there is none. -/
def nextOr (s : State) : Host.Outcome State Fault Refusal → State
  | .next t => t
  | .fault _ => s
  | .refused _ => s

/-- The state after a command's accept step. -/
def accepted (i : Instr) (s : State) : State :=
  nextOr s (exec i s)

/-- A slot image: these bytes, then the byte `pad` up to 64. -/
def image (bs : List Byte) (pad : Byte) : List Byte :=
  bs ++ List.replicate (64 - bs.length) pad

/-- "Boot". -/
def boot : List Byte := [0x42, 0x6F, 0x6F, 0x74]

/-! ### Well-formedness -/

/-- R96: a message with a 0x00 byte is no message. -/
theorem test_message_with_null_is_ill_formed : (Instr.append [0x41, 0x00, 0x42]).wellFormed = false := by decide

theorem test_empty_message_is_well_formed : (Instr.append []).wellFormed = true := by decide

/-- R8: `MAX_ENTRIES` 0 and 1025, and a store too small for the log, are no parameters. -/
theorem test_bad_parameters_are_ill_formed :
    ¬ (Config.wf ⟨0, 64, false, 1⟩) ∧ ¬ (Config.wf ⟨1025, 65600, false, 1⟩) ∧ ¬ (Config.wf ⟨4, 255, false, 1⟩) ∧
      Config.wf Config.reference := by decide

/-- The canonical form of the store refuses falling addresses and listed bytes that read the same unlisted. -/
theorem test_memory_form_is_checked :
    Memory.wf [(5, 1), (4, 1)] = false ∧ Memory.wf [(4, 0xFF)] = false ∧ Memory.wf [(4, 1), (5, 1)] = true := by
  decide

/-! ### Frames, written out from R98 and R91, bit by bit -/

theorem test_decode_nop : decodeFrame [0b00000000] = some (.instr .nop, []) := by decide
/-- V-F11. -/
theorem test_decode_append :
    decodeFrame [0b00000001, 0b00000010, 0b00000011, 0b00000000] = some (.instr (.append [0x02, 0x03]), []) := by decide
theorem test_decode_readall : decodeFrame [0b00000010] = some (.instr .readall, []) := by decide
theorem test_decode_eraseall : decodeFrame [0b00000011] = some (.instr .eraseall, []) := by decide
theorem test_decode_recover : decodeFrame [0b00000100] = some (.instr .recover, []) := by decide
theorem test_decode_getidx : decodeFrame [0b00000101] = some (.instr .getidx, []) := by decide
theorem test_decode_crcinit : decodeFrame [0b00010000] = some (.instr .crcinit, []) := by decide
/-- V-F7. -/
theorem test_decode_crcbyte :
    decodeFrame [0b00010001, 0b00010001, 0b00010001] = some (.instr (.crcbyte 0x11), [0x11]) ∧
      decodeFrame [0x11] = none := by decide
theorem test_decode_crcread : decodeFrame [0b00010010] = some (.instr .crcread, []) := by decide
/-- V-F8, V-F9. -/
theorem test_decode_illegal :
    decodeFrame [0x06] = some (.illegal 0x06, []) ∧ decodeFrame [0xFF, 0x02] = some (.illegal 0xFF, [0x02]) := by decide
/-- V-F10. -/
theorem test_decode_stops_at_terminator :
    decodeFrame [0x01, 0x41, 0x00, 0x00] = some (.instr (.append [0x41]), [0x00]) := by decide

theorem test_encode_append : encode (.append boot) = [0x01, 0x42, 0x6F, 0x6F, 0x74, 0x00] := by decide

/-- The table's rows: APPEND with an operand word of zeros is the empty APPEND; CRCBYTE has its byte in bits 15..8. -/
theorem test_table_words :
    decodeTableWord 8 0x01 = some (.append []) ∧ decodeTableWord 24 0x4201 = some (.append [0x42]) ∧
      decodeTableWord 16 0x3111 = some (.crcbyte 0x31) ∧ decodeTableWord 8 0x12 = some .crcread ∧
      decodeTableWord 8 0x13 = none := by decide

/-- R260: the incomplete frame at the end is discarded, the whole ones wait. -/
theorem test_complete_frames : completeFrames [0x02, 0x11, 0x00, 0x01, 0x41] = [0x02, 0x11, 0x00] := by decide

/-! ### The CRC16 unit -/

/-- V-B1, V-B2, V-B12. -/
theorem test_crc_bit : crcBit 0xFFFF false = 0xEFDF ∧ crcBit 0xEFDF true = 0xDFBE ∧ crcBit 0x8000 true = 0 := by decide

/-- V-Y1, V-Y5, V-Y6, V-Y10 in the three forms. -/
theorem test_crc_byte :
    crcByte 0xFFFF 0x00 = 0xE1F0 ∧ crcByte 0x0000 0x80 = 0x9188 ∧ crcByte 0x1234 0x56 = 0x3C40 ∧
      crcByteNibble 0x1234 0x56 = 0x3C40 ∧ crcByteParallel 0x1234 0x56 = 0x3C40 ∧
      crcByteNibble 0xFFFF 0x42 = 0x8976 ∧ crcByteParallel 0xFFFF 0x42 = 0x8976 := by decide

/-- V-S9, V-S13, V-S27. -/
theorem test_crc16 :
    crc16 [0x31, 0x32, 0x33, 0x34, 0x35, 0x36, 0x37, 0x38, 0x39] = 0x29B1 ∧
      crc16 (boot ++ [0x00]) = 0xBA1C ∧ crc16 (boot ++ [0x00, 0xBA, 0x1C]) = 0x0000 := by decide +kernel

/-! ### The record codec -/

/-- V-E3, V-E1, V-E2. -/
theorem test_encode_record :
    encodeRecord boot = some [0x42, 0x6F, 0x6F, 0x74, 0x00, 0xBA, 0x1C] ∧
      encodeRecord [0x41] = some [0x41, 0x00, 0x23, 0xF2] ∧ encodeRecord [] = none := by decide +kernel

/-- V-E10, and V-E5's truncation. -/
theorem test_encode_longer :
    encodeRecord [0x4C, 0x45, 0x44, 0x20, 0x31, 0x20, 0x74, 0x6F, 0x67, 0x67, 0x6C, 0x65, 0x64] =
        some [0x4C, 0x45, 0x44, 0x20, 0x31, 0x20, 0x74, 0x6F, 0x67, 0x67, 0x6C, 0x65, 0x64, 0x00, 0x5F, 0x9F] ∧
      payload (List.replicate 62 0x78) = List.replicate 61 0x78 := by decide +kernel

/-- V-D1, V-D3, V-D9, V-D11. -/
theorem test_decode_record :
    decodeRecord (image [0x41, 0x00, 0x23, 0xF2] 0xFF) = .valid [0x41] ∧
      decodeRecord (image [0x00, 0x41, 0x00, 0x23, 0xF2] 0xFF) = .invalid ∧
      decodeRecord (image [0x42, 0x6F, 0x6F, 0x74, 0x00, 0xBB, 0x1C] 0xFF) = .invalid ∧
      decodeCrc (image [0x43, 0x6F, 0x6F, 0x74, 0x00, 0xBA, 0x1C] 0xFF) 0x1111 = 0x104D := by decide +kernel

/-- V-D6's terminator at 61; V-D7, V-D8: a first null at 62 or 63 is not scanned. -/
theorem test_decode_terminator_range :
    terminatorIndex (image (List.replicate 61 0x78 ++ [0x00, 0xE9, 0x0E]) 0) = some 61 ∧
      decodeCrc (image (List.replicate 62 0x78 ++ [0x00]) 0x78) 0x1111 = 0x1111 ∧
      decodeRecord (image (List.replicate 63 0x78) 0x00) = .invalid := by decide +kernel

/-- V-D12 (`90_conflicts.md` C3): the first null, not some null. -/
theorem test_decode_first_null :
    decodeRecord (image [0x41, 0x00, 0x43, 0x00, 0xC4, 0x77] 0xFF) = .invalid := by decide +kernel

/-! ### One step each -/

/-- V-C1, V-C2, V-C3: the responses of NOP, GETIDX, CRCREAD after reset. -/
theorem test_responses_after_reset :
    responseBytes (accepted .nop base).out = [0x80] ∧
      responseBytes (accepted .getidx base).out = [0x02, 0x00, 0x00, 0x80] ∧
      responseBytes (accepted .crcread base).out = [0x02, 0xFF, 0xFF, 0x80] := by decide

/-- V-C4. -/
theorem test_crcbyte : (accepted (.crcbyte 0x31) base).crc = 0xC782 := by decide

/-- V-C5. -/
theorem test_crcinit : (accepted .crcinit { base with crc := 0x1234 }).crc = 0xFFFF := by decide

/-- R221's example. -/
theorem test_getidx : responseBytes (accepted .getidx { base with nwi := 3 }).out = [0x02, 0x00, 0x03, 0x80] := by decide

/-- V-C6: `FF` is answered 83 and consumed. -/
theorem test_illegal :
    responseBytes (nextOr base (step { base with port := [0xFF, 0x02] })).out = [0x83] ∧
      (nextOr base (step { base with port := [0xFF, 0x02] })).port = [0x02] := by decide

/-- V-A3: the empty APPEND to a full log is answered 81 and starts no erase. -/
theorem test_append_empty :
    responseBytes (accepted (.append []) { base with nwi := 4 }).out = [0x81] ∧
      (accepted (.append []) { base with nwi := 4 }).phase = .idle := by decide

/-- R182's example, its accept step: `CRC` is the record's, the record lies in `BUF`. -/
theorem test_append :
    (accepted (.append boot) base).crc = 0xBA1C ∧ (accepted (.append boot) base).phase = .aWrite ∧
      (accepted (.append boot) base).buf.toList.take 7 = [0x42, 0x6F, 0x6F, 0x74, 0x00, 0xBA, 0x1C] := by decide +kernel

/-- V-C12: the first write answered IOError, the byte left EE. -/
theorem test_append_ioerror :
    let t := nextOr base (engineStep (.err 0xEE) (accepted (.append [0x41]) base))
    t.nwi = 0 ∧ t.crc = 0x23F2 ∧ Memory.read t.store 0 = 0xEE ∧ responseBytes t.out = [0x82] := by decide +kernel

/-- R178: a full log starts the erase at slot 0. -/
theorem test_append_wrap :
    (accepted (.append [0x63]) { base with nwi := 4, si := 3 }).transaction = some (.write 0 0x00) := by decide +kernel

/-- V-C9, V-C10, V-C11: the first transactions of READALL, ERASEALL, RECOVER. -/
theorem test_first_transactions :
    (accepted .readall base).transaction = some (.read 0) ∧ (accepted .eraseall base).transaction = some (.write 0 0x00) ∧
      (accepted .recover base).transaction = some (.read 0) := by decide

/-- V-C10: the second write of ERASEALL is to address 64. -/
theorem test_eraseall_next_slot :
    let t := nextOr base (engineStep .ok (accepted .eraseall base))
    Memory.read t.store 0 = 0x00 ∧ t.transaction = some (.write 64 0x00) := by decide

/-- V-C13: a failed read leaves `BUF` and the store. -/
theorem test_readall_ioerror :
    let t := nextOr base (engineStep (.err 0xEE) (accepted .readall base))
    t.buf = base.buf ∧ t.store = [] ∧ responseBytes t.out = [0x82] := by decide

/-- The last read of an Invalid slot 2 ends RECOVER with `NWI = 2` (R191). -/
theorem test_recover_stops_at_invalid :
    let t := nextOr base (engineStep .ok { base with phase := .vRead, si := 2, bc := 63, nwi := 4 })
    t.nwi = 2 ∧ t.phase = .idle ∧ responseBytes t.out = [0x80] := by decide +kernel

/-- The reset event with `AUTO_RECOVER` (R263). -/
theorem test_reset_event :
    let s := { base with config := ⟨4, 256, true, 1⟩, nwi := 3, crc := 0, phase := .aWrite, port := [0x01, 0x41] }
    let t := resetEvent 7 base.buf s
    t.phase = .vRead ∧ t.nwi = 0 ∧ t.crc = 0xFFFF ∧ t.port = [] := by decide

/-- A foreign write while the engine is busy is refused (U14). -/
theorem test_foreign_write_busy :
    extWrite 64 0x00 (accepted .readall base) = .refused .foreignAccess := rfl

/-- The host's first step on a row of the table: GETIDX fetched and run from reset. -/
theorem test_fetch_word : (nextOr base (step (State.reset.withFetchWord 8 0x05))).out = [.u16 0, .status .ok] := by decide

/-- `30_encoding.md` R106's examples, and R107's expansions. -/
theorem test_assembler :
    assemble ["APPEND \"Boot\" ; at start".toList, "READALL".toList, "; nothing".toList, "CRCBYTE 0x31".toList] =
        some [0x01, 0x42, 0x6F, 0x6F, 0x74, 0x00, 0x02, 0x11, 0x31] ∧
      assembleLine "CRCBYTE '1'".toList = some [.crcbyte 0x31] ∧ assembleLine "APPEND \"\\x00\"".toList = none ∧
      assembleLine "APPEND \"\\xFF\\\"\"".toList = some [.append [0xFF, 0x22]] ∧
      assembleLine "CRC16 0x31, 0x32".toList = some [.crcinit, .crcbyte 0x31, .crcbyte 0x32, .crcread] ∧
      assembleLine "CRCSTR \"A\"".toList = some [.crcinit, .crcbyte 0x41, .crcbyte 0x00, .crcread] := by decide +kernel

/-! ### Witnesses: values that meet the hypotheses of the statements -/

theorem witness_CrcResidueIsZero :
    (image (record [0x41]) 0xFF).length = 64 ∧ terminatorIndex (image (record [0x41]) 0xFF) = some 1 ∧
      terminatorIndex (image (record (List.replicate 61 0x78)) 0xFF) = some 61 := by decide +kernel

theorem witness_CrcSeparatesOneAndTwoBitErrors :
    bitDistance [0x00, 0x10] [0x00, 0x11] = 1 ∧ bitDistance [0x80, 0x00] [0x00, 0x01] = 2 := by decide

theorem witness_RecordRoundTrip :
    isMessage [0xFF] = true ∧ isMessage (List.replicate 61 0x01) = true ∧
      (record [0xFF] ++ List.replicate 60 0x00).length = 64 ∧ (record (List.replicate 61 0x01) ++ []).length = 64 := by
  decide +kernel

theorem witness_RecordTruncation : isMessage (List.replicate 62 0x78) = true ∧ 61 < (List.replicate 62 (0x78 : Byte)).length := by
  decide +kernel

/-- Clause by clause: the null at index 1 and at 61, a null first byte, and a first null at 62. -/
theorem witness_DecodeFollowsItsRule :
    ((image [0x41] 0x00)[1]? = some 0x00 ∧ ∀ j < 1, (image [0x41] 0x00)[j]? ≠ some 0x00) ∧
    ((image (List.replicate 61 0x78) 0x00)[61]? = some 0x00 ∧ ∀ j < 61, (image (List.replicate 61 0x78) 0x00)[j]? ≠ some 0x00) ∧
    (image [0x00] 0xFF)[0]? = some 0x00 ∧
    (∀ j ≤ 61, (image (List.replicate 62 0x78) 0x00)[j]? ≠ some 0x00) ∧ (image [0x41] 0x00).length = 64 := by decide +kernel

theorem witness_DecodeIgnoresTheRest :
    (terminatorIndex (image [0x41] 0x00) = some 1 ∧ (image [0x41] 0x00).take 4 = (image [0x41, 0, 0, 0] 0xFF).take 4) ∧
    (terminatorIndex (image (List.replicate 62 0x78) 0x00) = none ∧
      (image (List.replicate 62 0x78) 0x00).take 62 = (image [] 0x78).take 62) ∧
    (image [0x00] 0xFF)[0]? = some 0x00 ∧ (image [0x00] 0x11)[0]? = some 0x00 := by decide +kernel

theorem witness_FlippedRecordBitsAreDetected :
    let B := image [0x42, 0x6F, 0x6F, 0x74, 0x00, 0xBA, 0x1C] 0xFF
    let B1 := image [0x43, 0x6F, 0x6F, 0x74, 0x00, 0xBA, 0x1C] 0xFF
    let B2 := image [0x43, 0x6F, 0x6F, 0x74, 0x00, 0xBA, 0x1D] 0xFF
    B.length = 64 ∧ terminatorIndex B = some 4 ∧ terminatorIndex B1 = some 4 ∧ terminatorIndex B2 = some 4 ∧
      decodeRecord B = .valid boot ∧ bitDistance (B.take 7) (B1.take 7) = 1 ∧ bitDistance (B.take 7) (B2.take 7) = 2 := by
  decide +kernel

theorem witness_DecodeOfEncode :
    (Instr.append boot).wellFormed = true ∧ (Instr.append []).wellFormed = true ∧ (Instr.crcbyte 0x00).wellFormed = true := by
  decide

theorem witness_DecodedBytesAreTheFrame :
    decodeFrame [0x11, 0x00, 0x02] = some (.instr (.crcbyte 0x00), [0x02]) ∧ decodeFrame [0x13] = some (.illegal 0x13, []) := by
  decide

theorem witness_ZeroByteReachesFrameBoundary : decodeFrame [0x11] = none ∧ decodeFrame [0x01, 0x41] = none := by decide

theorem witness_ResponsesReadBack :
    (Rsp.str [0x41]).wellFormed = true ∧ (Rsp.str (List.replicate 61 0x41)).wellFormed = true ∧
      (Rsp.str []).wellFormed = false := by decide +kernel

theorem witness_StepRunsDecodedInstruction :
    let s := { base with port := [0x11, 0x31, 0x12] }
    s.turn = some .ok ∧ s.ready ∧ decodeFrame s.port = some (.instr (.crcbyte 0x31), [0x12]) := by decide

theorem witness_IncompleteFrameWaits :
    let s := { base with port := [0x01, 0x41], script := [.engine .none] }
    s.turn = some .none ∧ s.ready ∧ decodeFrame s.port = none := by decide

theorem witness_IllegalOpcodeIsAnswered :
    let s := { base with port := [0x0F, 0x13] }
    s.turn = some .ok ∧ s.ready ∧ s.port = 0x0F :: [0x13] := by decide

theorem witness_BusyEngineAcceptsNothing :
    let s := accepted .readall { base with port := [0x05] }
    ¬ s.ready ∧ s.turn = some .ok ∧ ∃ t, step s = .next t := ⟨by decide, by decide, _, rfl⟩

/-- Ready, for the statements that ask no more of a command. -/
theorem witness_ready : base.ready ∧ State.reset.ready ∧ { base with nwi := 4 }.ready := by decide

set_option synthInstance.maxSize 4000 in
/-- The invariant and a ready engine, with room in the log and without. -/
theorem witness_ready_and_invariant : base.Inv ∧ { base with nwi := 4 }.Inv ∧ base.ready := by decide +kernel

theorem witness_AppendAcceptStep :
    base.ready ∧ boot ≠ [] ∧ base.nwi < base.config.maxEntries ∧ base.config.maxEntries ≤ { base with nwi := 4 }.nwi := by decide

theorem witness_RegisterCommandsFrame :
    (∃ t, exec .nop base = .next t) ∧ (∃ t, exec .getidx base = .next t) ∧ (∃ t, exec .crcinit base = .next t) ∧
      (∃ t, exec (.crcbyte 0) base = .next t) ∧ ∃ t, exec .crcread base = .next t :=
  ⟨⟨_, rfl⟩, ⟨_, rfl⟩, ⟨_, rfl⟩, ⟨_, rfl⟩, ⟨_, rfl⟩⟩

theorem witness_LogAcceptStepsFrame :
    (∃ t, exec .readall base = .next t) ∧ (∃ t, exec .eraseall base = .next t) ∧ (∃ t, exec .recover base = .next t) ∧
      (∃ t, exec (.append boot) base = .next t) ∧ ∃ t, exec (.append boot) { base with nwi := 4 } = .next t :=
  ⟨⟨_, rfl⟩, ⟨_, rfl⟩, ⟨_, rfl⟩, ⟨_, rfl⟩, ⟨_, rfl⟩⟩

/-- A state of each transaction phase. -/
def busy : List State :=
  [accepted (.append boot) { base with nwi := 4 }, accepted (.append boot) base, accepted .readall base,
    accepted .eraseall base, accepted .recover base]

set_option synthInstance.maxSize 4000 in
/-- TransactionStepsFrame, TransactionEffects, AddressesStayInTheLog: the invariant in each transaction phase. -/
theorem witness_transaction_phases :
    busy.map State.phase = [.aErase, .aWrite, .rRead, .eWrite, .vRead] ∧
      ∀ s ∈ busy, s.Inv ∧ s.turn = some .ok ∧ s.powered = true ∧ s.transaction.isSome = true := by decide +kernel

theorem witness_TransactionStepsFrame : ∃ t, step (accepted .eraseall base) = .next t := ⟨_, rfl⟩

set_option synthInstance.maxSize 4000 in
theorem witness_ErrorEntrySavesNothing :
    let s := accepted (.append boot) { base with script := [.engine (.err 0xEE)] }
    s.Inv ∧ s.turn = some (.err 0xEE) ∧ s.powered = true ∧ s.phase ≠ .idle := by decide +kernel

set_option synthInstance.maxSize 4000 in
theorem witness_UnansweredTransactionWaitsForever :
    let s := accepted .readall { base with thereafter := .none }
    s.Inv ∧ s.powered = true ∧ s.phase ≠ .idle ∧ s.script = [] ∧ s.thereafter = .none := by decide +kernel

set_option synthInstance.maxSize 4000 in
/-- CountersMoveByOne, WritersOfNwiAndCrc, ResponsesAreAppendOnly, StepKeepsInvariant, EngineNeverFaults: a state of the
invariant that steps, by the engine and by a reset from a full log; and one whose foreign access is refused. -/
theorem witness_steps :
    base.Inv ∧ (∃ t, step base = .next t) ∧
      { base with nwi := 4, script := [.reset 0 base.buf] }.Inv ∧
      (∃ t, step { base with nwi := 4, script := [.reset 0 base.buf] } = .next t ∧ t.nwi = 0) ∧
      ∃ r, step { base with script := [.extRead 256] } = .refused r :=
  ⟨by decide +kernel, ⟨_, rfl⟩, by decide +kernel, ⟨_, rfl, rfl⟩, ⟨_, rfl⟩⟩

set_option synthInstance.maxSize 4000 in
theorem witness_DeadRegistersAreNotObserved :
    let t := { base with len := 9, si := 2, bc := 5, buf := Vector.replicate 64 7 }
    base.Inv ∧ t.Inv ∧ base.sameButDead t ∧ base ≠ t := by decide +kernel

theorem witness_SettleDelayHasNoEffect : base.turn.isSome = true ∧ base.config.maxEntries * 64 ≤ 300 := by decide

theorem witness_ResetEventEffect :
    let cs : List Cmd := [.instr (.append boot), .illegal 0x06]
    (∀ c ∈ cs, ∀ rest, decodeFrame (encodeCmd c ++ rest) = some (c, rest)) ∧ decodeFrame [0x11] = none ∧
      { base with script := [.reset 3 base.buf] }.script = .reset 3 base.buf :: [] := by
  refine ⟨?_, by decide, rfl⟩
  intro c hc rest
  simp only [List.mem_cons, List.not_mem_nil, or_false] at hc
  rcases hc with rfl | rfl <;> rfl

theorem witness_UnpoweredBlockIsStill :
    let s := { base with powered := false, script := [.engine .ok, .present [0x05]] }
    s.powered = false ∧ (s.script.take 2).all (fun m => !m.isReset) = true ∧ ∃ t, run 2 s = .next t :=
  ⟨rfl, rfl, _, rfl⟩

/-- Each clause: allowed, outside the store, busy. -/
theorem witness_ForeignAccessOnlyInIdle :
    (base.ready ∧ (64 : Word).toNat < base.config.storeSize ∧ base.store.wf = true) ∧
      base.config.storeSize ≤ (256 : Word).toNat ∧ ¬ (accepted .recover base).ready := by decide

set_option synthInstance.maxSize 4000 in
theorem witness_AutoRecoverRunsRecovery :
    let s := { base with script := [.reset 0 base.buf] }
    let t := { s with config := ⟨4, 256, true, 1⟩ }
    s.Inv ∧ t.Inv ∧ s.script = [.reset 0 base.buf] ∧ s.thereafter = .ok ∧ s.config.autoRecover = false ∧
      t.config.autoRecover = true := by decide +kernel

set_option synthInstance.maxSize 4000 in
/-- APPEND that succeeds, with bytes presented meanwhile and answers left over, and one whose wraparound erase fails. -/
theorem witness_AppendFollowsPseudocode :
    let s := { oneSlot with script :=
      [.engine .ok, .present [0x05, 0x01], .engine .ok, .engine .ok, .present [0x00], .engine .ok, .engine (.err 0x11)] }
    let t := { oneSlot with nwi := 1, script := [.engine (.err 0x11)] }
    s.Inv ∧ s.ready ∧ s.undisturbed ∧ isMessage [0x41] = true ∧ (wholeAppend 1 [0x41] s.answers s.view).isSome = true ∧
      t.Inv ∧ t.undisturbed ∧ (wholeAppend 1 [0x41] t.answers t.view).isSome = true := by decide +kernel

set_option synthInstance.maxSize 4000 in
/-- READALL and RECOVER that succeed, bytes presented before their first read, and that fail at their second read. -/
theorem witness_ReadallFollowsPseudocode :
    let s := { oneSlot with script := .present [0x05] :: List.replicate 64 (.engine .ok) }
    let t := { oneSlot with script := [.engine .ok, .engine (.err 0)] }
    s.Inv ∧ s.ready ∧ s.undisturbed ∧ (wholeReadall 1 s.answers s.view).isSome = true ∧
      (wholeRecover 1 s.answers s.view).isSome = true ∧ t.Inv ∧ t.ready ∧ t.undisturbed ∧
      (wholeReadall 1 t.answers t.view).isSome = true ∧ (wholeRecover 1 t.answers t.view).isSome = true := by
  decide +kernel

set_option synthInstance.maxSize 4000 in
theorem witness_EraseallFollowsPseudocode :
    let s := { base with script := .present [0x05] :: List.replicate 4 (.engine .ok) }
    let t := { base with script := [.engine .ok, .engine (.err 0xEE)] }
    s.Inv ∧ s.ready ∧ s.undisturbed ∧ (wholeEraseall 4 s.answers s.view).isSome = true ∧
      t.Inv ∧ t.ready ∧ t.undisturbed ∧ (wholeEraseall 4 t.answers t.view).isSome = true := by decide +kernel

/-- CommandsTerminate, EveryCommandEndsInOneStatus: an answering environment that also fails, and presents bytes. -/
theorem witness_answering :
    let s := { base with script := [.engine .ok, .present [0x05], .engine (.err 0xEE)] }
    s.answering ∧ base.answering ∧ (Instr.append boot).wellFormed = true := by decide

set_option synthInstance.maxSize 4000 in
/-- RecoverCountsReadallStrings, AppendKeepsLogClean, ReadingKeepsLogClean, EraseMakesLogClean: a clean log with room, and a
full one, whose transactions succeed, bytes being presented after the first. -/
theorem witness_clean :
    let s := { oneSlot with store := [(0, 0x00)], script := [.engine .ok, .present [0x05]] }
    let t := { oneSlot with nwi := 1, store := [(0, 0x41), (1, 0x00), (2, 0x23), (3, 0xF2)] }
    s.Inv ∧ s.clean ∧ s.succeeding ∧ t.Inv ∧ t.clean ∧ t.succeeding ∧ isMessage boot = true ∧ boot ≠ [] := by
  decide +kernel

/-- `base` with the script of PowerLossLeavesWrittenPrefix. -/
def cutAfter (j : Nat) : State :=
  { base with script := List.replicate j (Move.engine .ok) ++ [Move.powerLoss, Move.reset 0 base.buf] }

set_option synthInstance.maxSize 4000 in
/-- Each clause, at its first and its last `j`: a record of 4 bytes, the same with the log full, an ERASEALL of 4 slots, and a scan
that ends with the first slot. -/
theorem witness_PowerLossLeavesWrittenPrefix :
    (∀ j ∈ [0, 2, 4, 7, 11, 64], (cutAfter j).Inv ∧ (cutAfter j).ready ∧ { cutAfter j with nwi := 4 }.Inv) ∧
      isMessage boot = true ∧ boot ≠ [] ∧ base.nwi < base.config.maxEntries ∧ 7 = min boot.length 61 + 3 ∧
      11 = base.config.maxEntries + min boot.length 61 + 3 ∧ 4 = base.config.maxEntries ∧
      (∀ j, (cutAfter j).scanReads = 64) ∧ base.port = [] := by
  refine ⟨by decide +kernel, by decide, by decide, by decide, by decide, by decide, by decide, fun j => ?_, rfl⟩
  show base.scanReads = 64
  decide +kernel

theorem witness_PresentedBytesJoinThePort :
    let s := { accepted .readall base with script := [.present [0x05, 0x01], .engine .ok], port := [0x02] }
    s.script = .present [0x05, 0x01] :: [.engine .ok] ∧ s.phase = .rRead := by decide

end Sys2Proof.Tests
end

section
/-! # The registers: what writes them, what each may hold, and when none is observed (`10_state.md`) -/

namespace Sys2Proof.Machine

variable {s t : State} {a : Answer}

/-! ## Who moves, and what the engine's turn does -/

/-- What the accept step of a command does to the state (`43_log_fsm.md` R175). -/
def acceptEffect : Cmd → State → State
  | .instr .nop, s => finish s
  | .instr (.append m), s =>
    if m.length = 0 then raise .invalidInput s
    else if s.config.maxEntries ≤ s.nwi then { loadMessage m s with si := 0, phase := .aErase }
    else startRecord (loadMessage m s)
  | .instr .readall, s => { s with si := 0, bc := 0, phase := .rRead }
  | .instr .eraseall, s => { s with si := 0, phase := .eWrite }
  | .instr .recover, s => { s with si := 0, bc := 0, phase := .vRead }
  | .instr .getidx, s => finish (emit (.u16 (BitVec.ofNat 16 s.nwi)) s)
  | .instr .crcinit, s => finish { s with crc := 0xFFFF }
  | .instr (.crcbyte imm8), s => finish { s with crc := crcByte s.crc imm8 }
  | .instr .crcread, s => finish (emit (.u16 s.crc) s)
  | .illegal _, s => raise .illegalCommand s

theorem exec_eq_accept (i : Instr) (s : State) : exec i s = accept (acceptEffect (.instr i)) s := by
  cases i <;> rfl

theorem execIllegal_eq_accept (op : Byte) (s : State) : execIllegal op s = accept (acceptEffect (.illegal op)) s := rfl

/-- The engine waits for the rest of a frame (`30_encoding.md` R95). -/
theorem engineTurn_waiting (hp : s.powered = true) (hi : s.phase = .idle) (hf : decodeFrame s.port = none) :
    engineTurn a s = .next s := by
  simp [engineTurn, hp, hi, fetch, hf]

/-- The accept step of the frame at the head of the port (`43_log_fsm.md` R175). -/
theorem engineTurn_accept {c : Cmd} {rest : List Byte} (hp : s.powered = true) (hi : s.phase = .idle)
    (hf : decodeFrame s.port = some (c, rest)) : engineTurn a s = .next (acceptEffect c { s with port := rest }) := by
  have hr : State.ready { s with port := rest } := ⟨hp, hi⟩
  have hfetch : fetch s = some (c, { s with port := rest }) := by rw [fetch, hf, Option.map_some]
  rw [engineTurn, if_pos hp, if_pos hi, hfetch, ← accept_of_ready _ hr]
  cases c with
  | instr i => exact exec_eq_accept i _
  | illegal op => exact execIllegal_eq_accept op _

/-- The four things the engine's turn can be: nothing without power, waiting, an accept step, a transaction step. -/
theorem engineTurn_cases (a : Answer) (s : State) :
    engineTurn a s = .next s ∨
      (s.powered = true ∧ s.phase = .idle ∧
        ∃ c rest, decodeFrame s.port = some (c, rest) ∧ engineTurn a s = .next (acceptEffect c { s with port := rest })) ∨
      (s.powered = true ∧ s.phase ≠ .idle ∧ engineTurn a s = engineStep a s) := by
  by_cases hp : s.powered = true
  · by_cases hi : s.phase = .idle
    · cases hf : decodeFrame s.port with
      | none => exact .inl (engineTurn_waiting hp hi hf)
      | some f => exact .inr (.inl ⟨hp, hi, f.1, f.2, rfl, engineTurn_accept hp hi hf⟩)
    · exact .inr (.inr ⟨hp, hi, engineTurn_busy hp hi⟩)
  · exact .inl (engineTurn_unpowered (Bool.eq_false_iff.mpr hp))

/-- A step is a move: the next one of the script, or the engine's turn when there is none. -/
theorem step_eq_move (s : State) : step s = move (s.script.headD (.engine s.thereafter)) s.popped := by
  cases hs : s.script with
  | nil => exact step_of_turn (by rw [State.turn, hs])
  | cons m rest => rw [step_of_script hs, State.popped, hs]; rfl

/-- A step is the engine's turn or the next move of another agent. -/
theorem step_cases (s : State) :
    (∃ a, s.turn = some a ∧ step s = engineTurn a s.popped) ∨
      ∃ m, s.script.head? = some m ∧ m.answer = none ∧ step s = move m s.popped := by
  cases hs : s.script with
  | nil =>
    have ht : s.turn = some s.thereafter := by rw [State.turn, hs]
    exact .inl ⟨_, ht, step_of_turn ht⟩
  | cons m rest =>
    have hstep : step s = move m s.popped := by rw [step_eq_move, hs]; rfl
    cases m with
    | engine a => exact .inl ⟨a, by rw [State.turn, hs], hstep⟩
    | present _ | powerLoss | reset _ _ | extWrite _ _ | extRead _ => exact .inr ⟨_, rfl, rfl, hstep⟩

/-! ## The commands that end in their accept step -/

/-- Settles O29: each of these commands is `accept` of an update of `CRC` and the response stream. -/
theorem registerCommandsFrame : Obligations.RegisterCommandsFrame := by
  intro i s t hi h
  rw [exec_eq_accept] at h
  obtain ⟨⟨-, hidle⟩, rfl⟩ := accept_next h
  obtain rfl | rfl | rfl | ⟨b, rfl⟩ | rfl := hi <;> simp [acceptEffect, finish, emit, hidle]

/-! ## The reset state -/

/-- In `IDLE` the invariant asks nothing of a phase. -/
theorem inv_of_idle (h : s.phase = .idle) :
    s.Inv ↔ s.config.wf ∧ s.inRange ∧ s.storeWf ∧ s.out.all Rsp.wellFormed = true := by
  simp only [State.Inv, h, reduceCtorEq, false_implies, and_true]

/-- Settles O38: the reset state is in `IDLE`, its registers are zero, its store and response stream empty. -/
theorem invariantAtReset : Obligations.InvariantAtReset :=
  (inv_of_idle rfl).mpr ⟨by decide, by decide, by decide, rfl⟩

/-! ## The writers of `NWI` and `CRC` -/

@[simp] theorem acceptEffect_nwi (c : Cmd) (s : State) : (acceptEffect c s).nwi = s.nwi := by
  cases c with
  | illegal op => simp [acceptEffect]
  | instr i =>
    cases i with
    | append m => simp only [acceptEffect]; split_ifs <;> simp
    | nop | readall | eraseall | recover | getidx | crcinit | crcbyte _ | crcread => simp [acceptEffect]

/-- Only CRCINIT, CRCBYTE and a non-empty APPEND write `CRC` in their accept step (`10_state.md` R22). -/
theorem acceptEffect_crc {c : Cmd} (hne : (acceptEffect c s).crc ≠ s.crc) :
    ∃ i, c = .instr i ∧ (i = .crcinit ∨ (∃ b, i = .crcbyte b) ∨ ∃ m, m ≠ [] ∧ i = .append m) := by
  cases c with
  | illegal op => simp [acceptEffect] at hne
  | instr i =>
    refine ⟨i, rfl, ?_⟩
    cases i with
    | crcinit => exact .inl rfl
    | crcbyte b => exact .inr (.inl ⟨b, rfl⟩)
    | append m =>
      have hm : m ≠ [] := by rintro rfl; simp [acceptEffect] at hne
      exact .inr (.inr ⟨m, hm, rfl⟩)
    | nop | readall | eraseall | recover | getidx | crcread => simp [acceptEffect] at hne

@[simp] theorem readallSlot_nwi (r : Verdict) (s : State) : (readallSlot r s).nwi = s.nwi := by
  cases r with
  | invalid => rfl
  | valid str => simp only [readallSlot]; split_ifs <;> simp

theorem stepRRead_nwi (h : stepRRead a s = .next t) : t.nwi = s.nwi := by
  obtain ⟨-, -, ⟨-, rfl⟩ | ⟨-, rfl⟩ | ⟨-, b, -, ⟨-, rfl⟩ | ⟨-, rfl⟩⟩⟩ := slotReadStep_next h <;> simp

theorem stepEWrite_nwi_crc (h : stepEWrite a s = .next t) : t.nwi = s.nwi ∧ t.crc = s.crc := by
  obtain ⟨-, ⟨-, rfl⟩ | ⟨l, -, rfl⟩ | ⟨-, rfl⟩⟩ := writeTransaction_next h
  · dsimp only; split_ifs <;> simp
  · simp
  · simp

theorem stepAWrite_crc (h : stepAWrite a s = .next t) : t.crc = s.crc := by
  obtain ⟨v, -, hw⟩ := stepAWrite_next h
  obtain ⟨-, ⟨-, rfl⟩ | ⟨l, -, rfl⟩ | ⟨-, rfl⟩⟩ := writeTransaction_next hw
  · dsimp only; split_ifs <;> simp
  · simp
  · rfl

theorem engineStep_nwi (h : engineStep a s = .next t) (hne : t.nwi ≠ s.nwi) :
    s.phase = .aErase ∨ s.phase = .aWrite ∨ s.phase = .vRead := by
  unfold engineStep at h
  cases hph : s.phase <;> simp only [hph] at h
  case idle => cases h; exact absurd rfl hne
  case rRead => exact absurd (stepRRead_nwi h) hne
  case eWrite => exact absurd (stepEWrite_nwi_crc h).1 hne
  all_goals simp

theorem engineStep_crc (h : engineStep a s = .next t) (hne : t.crc ≠ s.crc) :
    s.phase = .aErase ∨ s.phase = .rRead ∨ s.phase = .vRead := by
  unfold engineStep at h
  cases hph : s.phase <;> simp only [hph] at h
  case idle => cases h; exact absurd rfl hne
  case aWrite => exact absurd (stepAWrite_crc h) hne
  case eWrite => exact absurd (stepEWrite_nwi_crc h).2 hne
  all_goals simp

/-- The other agents write `NWI` and `CRC` by the reset event only. -/
theorem move_nwi_crc {m : Move} (hm : m.answer = none) (h : move m s = .next t) :
    (∃ l b, m = .reset l b) ∨ (t.nwi = s.nwi ∧ t.crc = s.crc) := by
  cases m with
  | engine a => cases hm
  | reset l b => exact .inl ⟨l, b, rfl⟩
  | present bs => cases h; simp
  | powerLoss => cases h; simp
  | extWrite addr v =>
    rw [move, extWrite] at h
    obtain ⟨-, -, rfl⟩ := foreignAccess_next h; simp
  | extRead addr =>
    rw [move, extRead] at h
    obtain ⟨-, -, rfl⟩ := foreignAccess_next h; simp

theorem engineTurn_nwi (h : engineTurn a s = .next t) (hne : t.nwi ≠ s.nwi) :
    s.phase = .aErase ∨ s.phase = .aWrite ∨ s.phase = .vRead := by
  obtain he | ⟨-, -, c, rest, -, he⟩ | ⟨-, -, he⟩ := engineTurn_cases a s <;> rw [he] at h
  · cases h; exact absurd rfl hne
  · cases h; exact absurd (acceptEffect_nwi c _) hne
  · exact engineStep_nwi h hne

theorem engineTurn_crc (h : engineTurn a s = .next t) (hne : t.crc ≠ s.crc) :
    s.phase = .aErase ∨ s.phase = .rRead ∨ s.phase = .vRead ∨
      (s.phase = .idle ∧ ∃ i rest, decodeFrame s.port = some (.instr i, rest) ∧
        (i = .crcinit ∨ (∃ b, i = .crcbyte b) ∨ ∃ m, m ≠ [] ∧ i = .append m)) := by
  obtain he | ⟨-, hi, c, rest, hf, he⟩ | ⟨-, -, he⟩ := engineTurn_cases a s <;> rw [he] at h
  · cases h; exact absurd rfl hne
  · cases h
    obtain ⟨i, rfl, hw⟩ := acceptEffect_crc hne
    exact .inr (.inr (.inr ⟨hi, i, rest, hf, hw⟩))
  · exact (engineStep_crc h hne).imp_right (Or.imp_right .inl)

/-- Settles O36: by who moves; the engine's turn by what it does, every other move by `move_nwi_crc`. -/
theorem writersOfNwiAndCrc : Obligations.WritersOfNwiAndCrc := by
  intro s t h
  obtain ⟨a, ht, he⟩ | ⟨m, hm, hna, he⟩ := step_cases s <;> rw [he] at h
  · have hturn : s.turn.isSome = true := by rw [ht]; rfl
    exact ⟨fun hne => .inr ⟨hturn, engineTurn_nwi (s := s.popped) h hne⟩,
      fun hne => .inr ⟨hturn, engineTurn_crc (s := s.popped) h hne⟩⟩
  · obtain ⟨l, b, rfl⟩ | ⟨hnwi, hcrc⟩ := move_nwi_crc hna h
    · exact ⟨fun _ => .inl ⟨l, b, hm⟩, fun _ => .inl ⟨l, b, hm⟩⟩
    · exact ⟨fun hne => absurd hnwi hne, fun hne => absurd hcrc hne⟩

/-! ## No step faults -/

/-- The address of a byte of a slot of the log lies in the store (`20_memory.md` R51). -/
theorem slotAddr_lt_storeSize {c : Config} {slot offset : Nat} (hc : c.wf) (hs : slot < c.maxEntries) (ho : offset < 64) :
    slotAddr slot offset < c.storeSize := by
  obtain ⟨-, -, hsize, -⟩ := hc
  unfold slotAddr
  omega

theorem writeTransaction_not_fault {addr : Nat} {v : Byte} {k : State → State} (h : addr < s.config.storeSize)
    (r : Fault) : writeTransaction addr v a k s ≠ .fault r :=
  fun hf => absurd (writeTransaction_fault hf) (by omega)

theorem slotReadStep_not_fault {onSlot : Verdict → State → State} (hb : s.bc < 64)
    (h : slotAddr s.si s.bc < s.config.storeSize) (r : Fault) : slotReadStep onSlot a s ≠ .fault r := by
  rw [slotReadStep, if_pos hb]
  exact fun hf => absurd (readTransaction_fault hf) (by omega)

/-- In `A_WRITE` the byte counter stays in `BUF` (`43_log_fsm.md` R173). -/
theorem bc_lt_of_aWriteWf (h : s.aWriteWf) : s.bc < 64 := by
  obtain ⟨-, hbc, ⟨-, hlen, -⟩, -⟩ := h
  omega

theorem engineStep_not_fault (h : s.Inv) (r : Fault) : engineStep a s ≠ .fault r := by
  obtain ⟨hc, -, -, -, haErase, haWrite, hrRead, hvRead, heWrite⟩ := h
  unfold engineStep
  cases hph : s.phase with
  | idle => simp
  | aErase =>
    obtain ⟨-, hsi, -⟩ := haErase hph
    exact writeTransaction_not_fault (slotAddr_lt_storeSize hc hsi (by omega)) r
  | aWrite =>
    have hb := bc_lt_of_aWriteWf (haWrite hph)
    obtain ⟨hnwi, -⟩ := haWrite hph
    simp only [stepAWrite, Vector.getElem?_eq_getElem hb]
    exact writeTransaction_not_fault (slotAddr_lt_storeSize hc hnwi hb) r
  | rRead =>
    obtain ⟨hsi, hb, -⟩ := hrRead hph
    exact slotReadStep_not_fault hb (slotAddr_lt_storeSize hc hsi hb) r
  | vRead =>
    obtain ⟨hsi, hb, -⟩ := hvRead hph
    exact slotReadStep_not_fault hb (slotAddr_lt_storeSize hc hsi hb) r
  | eWrite =>
    obtain ⟨hsi, -⟩ := heWrite hph
    exact writeTransaction_not_fault (slotAddr_lt_storeSize hc hsi (by omega)) r

theorem engineTurn_not_fault (h : s.Inv) (r : Fault) : engineTurn a s ≠ .fault r := by
  obtain he | ⟨-, -, c, rest, -, he⟩ | ⟨-, -, he⟩ := engineTurn_cases a s <;> rw [he]
  · simp
  · simp
  · exact engineStep_not_fault h r

theorem move_not_fault (m : Move) (h : s.Inv) (r : Fault) : move m s ≠ .fault r := by
  cases m with
  | engine a => exact engineTurn_not_fault h r
  | present _ | powerLoss | reset _ _ => simp [move]
  | extWrite addr v => rw [move, extWrite]; exact foreignAccess_not_fault addr _ r
  | extRead addr => rw [move, extRead]; exact foreignAccess_not_fault addr _ r

/-- In a state of the invariant no step faults (`60_exceptions.md` R235). -/
theorem step_not_fault (h : s.Inv) (r : Fault) : step s ≠ .fault r := by
  rw [step_eq_move]
  exact move_not_fault (s := s.popped) _ h r

/-! ## The buffer up to an offset -/

/-- Two buffers agree before offset `n` byte by byte. -/
theorem take_toList_eq_iff {b b' : Buf} {n : Nat} :
    b.toList.take n = b'.toList.take n ↔ ∀ j < n, b[j]? = b'[j]? := by
  constructor
  · intro h j hj
    have := congrArg (·[j]?) h
    simpa [List.getElem?_take, hj] using this
  · intro h
    apply List.ext_getElem?
    intro j
    by_cases hj : j < n
    · simpa [List.getElem?_take, hj] using h j hj
    · simp [hj]

/-- Buffers that agree before `n` agree before `n + len(vs)` once `vs` is put at `n` into both. -/
theorem take_put_congr {b b' : Buf} {n : Nat} (vs : List Byte) (h : b.toList.take n = b'.toList.take n) :
    (Buf.put b n vs).toList.take (n + vs.length) = (Buf.put b' n vs).toList.take (n + vs.length) := by
  rw [take_toList_eq_iff] at h ⊢
  intro j hj
  rw [Buf.getElem?_put, Buf.getElem?_put]
  by_cases hn : j < n
  · simp [show ¬ n ≤ j by omega, h j hn]
  · by_cases h64 : j < 64
    · simp only [show n ≤ j by omega, hj, h64, and_self, if_true]
    · simp [h64]

/-- A buffer is its first 64 bytes. -/
theorem eq_of_take_64 {b b' : Buf} (h : b.toList.take 64 = b'.toList.take 64) : b = b' := by
  rw [take_toList_eq_iff] at h
  exact Vector.ext fun j hj => by simpa [hj] using h j hj

/-! ## Dead registers -/

/-- `sameButDead`'s first clause: equal outside the four registers that may be dead. -/
def State.sameOutside (s t : State) : Prop :=
  s = { t with buf := s.buf, len := s.len, si := s.si, bc := s.bc }

theorem State.sameOutside.exists_eq (h : s.sameOutside t) :
    ∃ buf len si bc, s = { t with buf := buf, len := len, si := si, bc := bc } :=
  ⟨_, _, _, _, h⟩

theorem sameOutside_iff :
    s.sameOutside t ↔ s.config = t.config ∧ s.powered = t.powered ∧ s.phase = t.phase ∧ s.nwi = t.nwi ∧ s.crc = t.crc ∧
      s.store = t.store ∧ s.out = t.out ∧ s.port = t.port ∧ s.script = t.script ∧ s.thereafter = t.thereafter := by
  cases s; cases t; simp [State.sameOutside]

theorem State.sameButDead.outside (h : s.sameButDead t) : s.sameOutside t := h.1

theorem sameButDead_refl (s : State) : s.sameButDead s := by
  simp [State.sameButDead]

theorem sameButDead_of_idle (h : s.sameOutside t) (hp : s.phase = .idle) : s.sameButDead t :=
  ⟨h, by simp [hp]⟩

theorem sameButDead_of_aErase (h : s.sameOutside t) (hp : s.phase = .aErase) (hsi : s.si = t.si) (hlen : s.len = t.len)
    (hbuf : s.buf.toList.take s.len = t.buf.toList.take s.len) : s.sameButDead t :=
  ⟨h, fun _ => ⟨hsi, hlen, hlen ▸ hbuf⟩, by simp [hp]⟩

theorem sameButDead_of_aWrite (h : s.sameOutside t) (hp : s.phase = .aWrite) (hbc : s.bc = t.bc) (hlen : s.len = t.len)
    (hbuf : s.buf.toList.take (s.len + 3) = t.buf.toList.take (s.len + 3)) : s.sameButDead t :=
  ⟨h, by simp [hp], fun _ => ⟨hbc, hlen, hlen ▸ hbuf⟩, by simp [hp]⟩

theorem sameButDead_of_read (h : s.sameOutside t) (hp : s.phase = .rRead ∨ s.phase = .vRead) (hsi : s.si = t.si)
    (hbc : s.bc = t.bc) (hbuf : s.buf.toList.take s.bc = t.buf.toList.take s.bc) : s.sameButDead t := by
  refine ⟨h, ?_, ?_, fun _ => ⟨hsi, hbc, hbc ▸ hbuf⟩, ?_⟩ <;> obtain hp | hp := hp <;> simp [hp]

theorem sameButDead_of_eWrite (h : s.sameOutside t) (hp : s.phase = .eWrite) (hsi : s.si = t.si) : s.sameButDead t :=
  ⟨h, by simp [hp], by simp [hp], by simp [hp], fun _ => hsi⟩

/-- Both answer, with states that `sameButDead` relates, or both stop for the same reason. -/
inductive SameOutcome : Host.Outcome State Fault Refusal → Host.Outcome State Fault Refusal → Prop where
  | next {s t : State} (h : s.sameButDead t) : SameOutcome (.next s) (.next t)
  | fault (r : Fault) : SameOutcome (.fault r) (.fault r)
  | refused (r : Refusal) : SameOutcome (.refused r) (.refused r)

/-! ### The accept step -/

/-- The record is built from `LEN` and the first `LEN` bytes of `BUF` alone (`42_record_codec.md` R151). -/
theorem startRecord_sameButDead (h : s.sameOutside t) (hlen : s.len = t.len)
    (hbuf : s.buf.toList.take s.len = t.buf.toList.take s.len) : (startRecord s).sameButDead (startRecord t) := by
  have hcrc : (encodeInPlace s).crc = (encodeInPlace t).crc := by simp only [encodeInPlace_crc, hbuf, ← hlen]
  have hput : (startRecord s).buf.toList.take (s.len + 3) = (startRecord t).buf.toList.take (s.len + 3) := by
    rw [startRecord_buf, startRecord_buf, encodeInPlace_buf, encodeInPlace_buf, hcrc, ← hlen]
    exact take_put_congr [0x00, _, _] hbuf
  have hout : (startRecord s).sameOutside (startRecord t) := by
    rw [sameOutside_iff] at h ⊢
    simp only [startRecord_config, startRecord_powered, startRecord_phase, startRecord_nwi, startRecord_crc, hcrc,
      startRecord_store, startRecord_out, startRecord_port, startRecord_script, startRecord_thereafter]
    tauto
  exact sameButDead_of_aWrite hout rfl rfl hlen hput

theorem acceptEffect_sameButDead (c : Cmd) (h : s.sameOutside t) : (acceptEffect c s).sameButDead (acceptEffect c t) := by
  obtain ⟨buf, len, si, bc, rfl⟩ := h.exists_eq
  cases c with
  | illegal op => exact sameButDead_of_idle rfl rfl
  | instr i =>
    cases i with
    | nop | getidx | crcinit | crcbyte _ | crcread => exact sameButDead_of_idle rfl rfl
    | append m =>
      have hbuf := take_put_congr (b := buf) (b' := t.buf) (n := 0) (payload m) rfl
      rw [Nat.zero_add] at hbuf
      simp only [acceptEffect]
      split_ifs
      · exact sameButDead_of_idle rfl rfl
      · exact sameButDead_of_aErase rfl rfl rfl rfl hbuf
      · exact startRecord_sameButDead rfl rfl hbuf
    | readall => exact sameButDead_of_read rfl (.inl rfl) rfl rfl rfl
    | recover => exact sameButDead_of_read rfl (.inr rfl) rfl rfl rfl
    | eraseall => exact sameButDead_of_eWrite rfl rfl rfl

/-! ### The transaction steps -/

/-- One write of both engines, at one address and with one byte: it is enough to compare what follows a success. -/
theorem writeTransaction_sameButDead {addr : Nat} {v : Byte} {k : State → State} (h : s.sameButDead t)
    (hk : ∀ m, (k { s with store := m }).sameButDead (k { t with store := m })) :
    SameOutcome (writeTransaction addr v a k s) (writeTransaction addr v a k t) := by
  obtain ⟨buf, len, si, bc, rfl⟩ := h.outside.exists_eq
  unfold writeTransaction
  dsimp only
  split
  · cases a with
    | ok => exact .next (hk _)
    | err left => exact .next (sameButDead_of_idle rfl rfl)
    | none => exact .next h
  · exact .fault _

/-- One read of both engines, at one address: it is enough to compare what follows a success. -/
theorem readTransaction_sameButDead {addr : Nat} {k k' : Byte → State} (h : s.sameButDead t)
    (hk : ∀ v, (k v).sameButDead (k' v)) :
    SameOutcome (readTransaction addr a k s) (readTransaction addr a k' t) := by
  obtain ⟨buf, len, si, bc, rfl⟩ := h.outside.exists_eq
  unfold readTransaction
  dsimp only
  split
  · cases a with
    | ok => exact .next (hk _)
    | err left => exact .next (sameButDead_of_idle rfl rfl)
    | none => exact .next h
  · exact .fault _

theorem stepAErase_sameButDead (h : s.sameButDead t) (hp : s.phase = .aErase) :
    SameOutcome (stepAErase a s) (stepAErase a t) := by
  have ⟨_, haErase, _⟩ := h
  obtain ⟨hsi, hlen, hbuf⟩ := haErase hp
  unfold stepAErase
  rw [hsi]
  refine writeTransaction_sameButDead h fun m => ?_
  obtain ⟨buf, len, si, bc, rfl⟩ := h.outside.exists_eq
  obtain rfl : si = t.si := hsi
  obtain rfl : len = t.len := hlen
  dsimp only
  split
  · exact sameButDead_of_aErase rfl hp rfl rfl hbuf
  · exact startRecord_sameButDead rfl rfl hbuf

theorem stepAWrite_sameButDead (h : s.sameButDead t) (hp : s.phase = .aWrite) (hwf : s.aWriteWf) :
    SameOutcome (stepAWrite a s) (stepAWrite a t) := by
  have ⟨_, _, haWrite, _⟩ := h
  obtain ⟨hbc, hlen, hbuf⟩ := haWrite hp
  obtain ⟨-, hlt, -⟩ := hwf
  have hv : s.buf[s.bc]? = t.buf[t.bc]? := hbc ▸ take_toList_eq_iff.mp (hlen ▸ hbuf) s.bc hlt
  obtain ⟨-, -, -, hnwi, -⟩ := sameOutside_iff.mp h.outside
  unfold stepAWrite
  rw [hv, hbc, hnwi]
  split
  · exact .fault _
  · refine writeTransaction_sameButDead h fun m => ?_
    obtain ⟨buf, len, si, bc, rfl⟩ := h.outside.exists_eq
    obtain rfl : bc = t.bc := hbc
    obtain rfl : len = t.len := hlen
    dsimp only
    split
    · exact sameButDead_of_aWrite rfl hp rfl rfl hbuf
    · exact sameButDead_of_idle rfl rfl

theorem stepEWrite_sameButDead (h : s.sameButDead t) (hp : s.phase = .eWrite) :
    SameOutcome (stepEWrite a s) (stepEWrite a t) := by
  have ⟨_, _, _, _, heWrite⟩ := h
  have hsi := heWrite hp
  unfold stepEWrite
  rw [hsi]
  refine writeTransaction_sameButDead h fun m => ?_
  obtain ⟨buf, len, si, bc, rfl⟩ := h.outside.exists_eq
  obtain rfl : si = t.si := hsi
  dsimp only
  split
  · exact sameButDead_of_eWrite rfl hp rfl
  · exact sameButDead_of_idle rfl rfl

/-- What follows a slot read does not look at `BUF`, `LEN` or `BC`. -/
def IgnoresDead (onSlot : Verdict → State → State) : Prop :=
  ∀ (r : Verdict) (s t : State), s.sameOutside t → s.phase = .rRead ∨ s.phase = .vRead → s.si = t.si →
    (onSlot r s).sameButDead (onSlot r t)

theorem readallSlot_valid (str : List Byte) (s : State) :
    readallSlot (.valid str) s =
      if s.si + 1 < s.config.maxEntries then { s with si := s.si + 1, bc := 0, out := s.out ++ [.str str] }
      else finish { s with si := s.config.maxEntries, out := s.out ++ [.str str] } := rfl

theorem readallSlot_ignoresDead : IgnoresDead readallSlot := by
  intro r s t h hp hsi
  obtain ⟨buf, len, si, bc, rfl⟩ := h.exists_eq
  obtain rfl : si = t.si := hsi
  cases r with
  | invalid => exact sameButDead_of_idle rfl rfl
  | valid str =>
    rw [readallSlot_valid, readallSlot_valid]
    dsimp only
    split
    · exact sameButDead_of_read rfl hp rfl rfl rfl
    · exact sameButDead_of_idle rfl rfl

theorem recoverSlot_ignoresDead : IgnoresDead recoverSlot := by
  intro r s t h hp hsi
  obtain ⟨buf, len, si, bc, rfl⟩ := h.exists_eq
  obtain rfl : si = t.si := hsi
  cases r with
  | invalid => exact sameButDead_of_idle rfl rfl
  | valid str =>
    dsimp only [recoverSlot]
    split
    · exact sameButDead_of_read rfl hp rfl rfl rfl
    · exact sameButDead_of_idle rfl rfl

/-- The bytes of `BUF` from `BC` on are dead while a slot is read: the 64th byte read makes the buffers equal (R184). -/
theorem slotReadStep_sameButDead {onSlot : Verdict → State → State} (hon : IgnoresDead onSlot) (h : s.sameButDead t)
    (hp : s.phase = .rRead ∨ s.phase = .vRead) : SameOutcome (slotReadStep onSlot a s) (slotReadStep onSlot a t) := by
  have ⟨_, _, _, hread, _⟩ := h
  obtain ⟨hsi, hbc, hbuf⟩ := hread hp
  unfold slotReadStep
  rw [hsi, hbc]
  split
  case isFalse => exact .fault _
  case isTrue hlt =>
    refine readTransaction_sameButDead h fun v => ?_
    obtain ⟨buf, len, si, bc, rfl⟩ := h.outside.exists_eq
    obtain rfl : si = t.si := hsi
    obtain rfl : bc = t.bc := hbc
    have hput : (buf.setIfInBounds t.bc v).toList.take (t.bc + 1) =
        (t.buf.setIfInBounds t.bc v).toList.take (t.bc + 1) := take_put_congr [v] hbuf
    dsimp only
    split
    · exact sameButDead_of_read rfl hp rfl rfl hput
    · have hlast : t.bc + 1 = 64 := by omega
      rw [hlast] at hput
      rw [eq_of_take_64 hput]
      exact hon _ _ _ rfl hp rfl

theorem engineStep_sameButDead (h : s.sameButDead t) (hs : s.Inv) : SameOutcome (engineStep a s) (engineStep a t) := by
  obtain ⟨-, -, -, -, -, haWrite, -⟩ := hs
  obtain ⟨-, -, hphase, -⟩ := sameOutside_iff.mp h.outside
  unfold engineStep
  rw [← hphase]
  cases hp : s.phase with
  | idle => exact .next h
  | aErase => exact stepAErase_sameButDead h hp
  | aWrite => exact stepAWrite_sameButDead h hp (haWrite hp)
  | rRead => exact slotReadStep_sameButDead readallSlot_ignoresDead h (.inl hp)
  | eWrite => exact stepEWrite_sameButDead h hp
  | vRead => exact slotReadStep_sameButDead recoverSlot_ignoresDead h (.inr hp)

/-! ### Every move -/

theorem engineTurn_sameButDead (h : s.sameButDead t) (hs : s.Inv) : SameOutcome (engineTurn a s) (engineTurn a t) := by
  obtain ⟨-, hpow, hphase, -, -, -, -, hport, -⟩ := sameOutside_iff.mp h.outside
  by_cases hp : s.powered = true
  · by_cases hi : s.phase = .idle
    · cases hf : decodeFrame s.port with
      | none =>
        rw [engineTurn_waiting hp hi hf, engineTurn_waiting (hpow ▸ hp) (hphase ▸ hi) (hport ▸ hf)]
        exact .next h
      | some f =>
        rw [engineTurn_accept hp hi hf, engineTurn_accept (hpow ▸ hp) (hphase ▸ hi) (hport ▸ hf)]
        obtain ⟨buf, len, si, bc, rfl⟩ := h.outside.exists_eq
        exact .next (acceptEffect_sameButDead _ rfl)
    · rw [engineTurn_busy hp hi, engineTurn_busy (hpow ▸ hp) (hphase ▸ hi)]
      exact engineStep_sameButDead h hs
  · have hp' := Bool.eq_false_iff.mpr hp
    rw [engineTurn_unpowered hp', engineTurn_unpowered (hpow ▸ hp')]
    exact .next h

/-- Another master's access asks for power, phase and store size only. -/
theorem foreignAccess_sameButDead {addr : Word} {f : State → State} (h : s.sameButDead t)
    (hf : (f s).sameButDead (f t)) : SameOutcome (foreignAccess addr f s) (foreignAccess addr f t) := by
  obtain ⟨hc, hpow, hphase, -⟩ := sameOutside_iff.mp h.outside
  unfold foreignAccess State.ready
  rw [hpow, hphase, hc]
  split
  · split
    · exact .next hf
    · exact .refused _
  · exact .refused _

theorem move_sameButDead (m : Move) (h : s.sameButDead t) (hs : s.Inv) : SameOutcome (move m s) (move m t) := by
  have hlive := h.2
  cases m with
  | engine a => exact engineTurn_sameButDead h hs
  | extWrite addr v =>
    rw [move, move, extWrite, extWrite]
    refine foreignAccess_sameButDead h ?_
    obtain ⟨buf, len, si, bc, rfl⟩ := h.outside.exists_eq
    exact ⟨rfl, hlive⟩
  | extRead addr => exact foreignAccess_sameButDead h h
  | present bs =>
    obtain ⟨buf, len, si, bc, rfl⟩ := h.outside.exists_eq
    exact .next ⟨rfl, hlive⟩
  | powerLoss =>
    obtain ⟨buf, len, si, bc, rfl⟩ := h.outside.exists_eq
    exact .next ⟨rfl, hlive⟩
  | reset l b =>
    obtain ⟨buf, len, si, bc, rfl⟩ := h.outside.exists_eq
    exact .next (sameButDead_refl _)

theorem step_sameButDead (h : s.sameButDead t) (hs : s.Inv) : SameOutcome (step s) (step t) := by
  have hlive := h.2
  obtain ⟨buf, len, si, bc, rfl⟩ := h.outside.exists_eq
  rw [step_eq_move, step_eq_move t]
  exact move_sameButDead (s := State.popped _) (t := t.popped) _ ⟨rfl, hlive⟩ hs

/-- Settles O42: `step_sameButDead`, and no step of the invariant faults. -/
theorem deadRegistersAreNotObserved : Obligations.DeadRegistersAreNotObserved := by
  refine ⟨fun s t hs _ h => ?_, fun s buf len si bc hi => sameButDead_of_idle rfl hi⟩
  have hsame := step_sameButDead h hs
  generalize hx : step s = x, hy : step t = y at hsame
  cases hsame with
  | next h' => exact .inl ⟨_, _, rfl, rfl, h'⟩
  | fault r => exact absurd hx (step_not_fault hs r)
  | refused r => exact .inr ⟨r, rfl, rfl⟩

end Sys2Proof.Machine
end

section
/-! # The store's transactions, and access to the store from outside (`20_memory.md`) -/

namespace Sys2Proof.Machine

variable {s t : State} {a : Answer}

/-! ## Access of another master -/

theorem foreignAccess_of_ready {addr : Word} (f : State → State) (h : s.ready) (ha : addr.toNat < s.config.storeSize) :
    foreignAccess addr f s = .next (f s) := by
  rw [foreignAccess, if_pos h, if_pos ha]

theorem foreignAccess_outside {addr : Word} (f : State → State) (h : s.ready) (ha : s.config.storeSize ≤ addr.toNat) :
    foreignAccess addr f s = .refused (.foreignAddress addr.toNat) := by
  rw [foreignAccess, if_pos h, if_neg (by omega)]

theorem foreignAccess_of_busy {addr : Word} (f : State → State) (h : ¬ s.ready) :
    foreignAccess addr f s = .refused .foreignAccess := if_neg h

/-- Settles O46: both moves are `foreignAccess`, whose guards ask for power, phase and store size; a write in them reads
back by `Memory.read_write`. -/
theorem foreignAccessOnlyInIdle : Obligations.ForeignAccessOnlyInIdle := by
  intro s addr v rest
  constructor <;> intro hs <;> rw [step_of_script hs]
  · rw [move, extWrite]
    exact ⟨fun hr ha hwf => ⟨_, foreignAccess_of_ready _ hr ha, rfl, fun x => Memory.read_write addr.toNat x v hwf⟩,
      fun hr ha => foreignAccess_outside _ hr ha, fun hr => foreignAccess_of_busy _ hr⟩
  · rw [move, extRead]
    exact ⟨fun hr ha => foreignAccess_of_ready _ hr ha, fun hr ha => foreignAccess_outside _ hr ha,
      fun hr => foreignAccess_of_busy _ hr⟩

/-! ## The engine's transaction steps answer -/

theorem slotReadStep_not_refused (onSlot : Verdict → State → State) (r : Refusal) :
    slotReadStep onSlot a s ≠ .refused r := by
  unfold slotReadStep
  split
  · exact readTransaction_not_refused _ _ r
  · simp

theorem engineStep_not_refused (r : Refusal) : engineStep a s ≠ .refused r := by
  unfold engineStep
  cases s.phase with
  | idle => simp
  | aErase | eWrite => exact writeTransaction_not_refused _ _ _ r
  | aWrite =>
    dsimp only [stepAWrite]
    split
    · simp
    · exact writeTransaction_not_refused _ _ _ r
  | rRead | vRead => exact slotReadStep_not_refused _ r

theorem engineStep_exists_next (h : s.Inv) (a : Answer) : ∃ t, engineStep a s = .next t := by
  cases he : engineStep a s with
  | next t => exact ⟨t, rfl⟩
  | fault r => exact absurd he (engineStep_not_fault h r)
  | refused r => exact absurd he (engineStep_not_refused r)

/-- Outside `IDLE` the turn of a powered engine is the row of its phase (`43_log_fsm.md` R174). -/
theorem step_of_busy_turn (ht : s.turn = some a) (hp : s.powered = true) (hi : s.phase ≠ .idle) :
    step s = engineStep a s.popped := by
  rw [step_of_turn ht, engineTurn_busy (s := s.popped) hp hi]

theorem phase_ne_idle_of_transaction {tx : Transaction} (h : s.transaction = some tx) : s.phase ≠ .idle := by
  intro hi
  simp [State.transaction, hi] at h

/-! ## Which row makes a transaction -/

/-- The rows that write: what follows the write leaves the store alone. -/
theorem engineStep_of_write {addr : Nat} {v : Byte} (h : s.transaction = some (.write addr v)) :
    ∃ k : State → State, (∀ u, (k u).store = u.store) ∧ ∀ a, engineStep a s = writeTransaction addr v a k s := by
  unfold State.transaction at h
  cases hp : s.phase <;> simp only [hp] at h <;> simp only [engineStep, hp]
  case idle | rRead | vRead => cases h
  case aErase | eWrite =>
    cases h
    refine ⟨_, fun u => ?_, fun _ => rfl⟩
    split <;> rfl
  case aWrite =>
    obtain ⟨_, hv, hw⟩ := Option.map_eq_some_iff.mp h
    cases hw
    simp only [stepAWrite, hv]
    refine ⟨_, fun u => ?_, fun _ => rfl⟩
    split <;> rfl

/-- What follows a slot read leaves the store and `BUF` alone. -/
def KeepsStoreAndBuf (onSlot : Verdict → State → State) : Prop :=
  ∀ r u, (onSlot r u).store = u.store ∧ (onSlot r u).buf = u.buf

theorem readallSlot_keepsStoreAndBuf : KeepsStoreAndBuf readallSlot := by
  intro r u
  cases r with
  | invalid => exact ⟨rfl, rfl⟩
  | valid str => rw [readallSlot_valid]; split <;> exact ⟨rfl, rfl⟩

theorem recoverSlot_keepsStoreAndBuf : KeepsStoreAndBuf recoverSlot := by
  intro r u
  cases r with
  | invalid => exact ⟨rfl, rfl⟩
  | valid str => dsimp only [recoverSlot]; split <;> exact ⟨rfl, rfl⟩

/-- The rows that read: both read byte `BC` of slot `SI` (`43_log_fsm.md` R171). -/
theorem engineStep_of_read {addr : Nat} (h : s.transaction = some (.read addr)) :
    addr = slotAddr s.si s.bc ∧
      ∃ onSlot, KeepsStoreAndBuf onSlot ∧ ∀ a, engineStep a s = slotReadStep onSlot a s := by
  unfold State.transaction at h
  cases hp : s.phase <;> simp only [hp] at h <;> simp only [engineStep, hp]
  case idle | aErase | eWrite => cases h
  case aWrite => obtain ⟨v, -, hw⟩ := Option.map_eq_some_iff.mp h; cases hw
  case rRead => cases h; exact ⟨rfl, _, readallSlot_keepsStoreAndBuf, fun _ => rfl⟩
  case vRead => cases h; exact ⟨rfl, _, recoverSlot_keepsStoreAndBuf, fun _ => rfl⟩

/-! ## What a transaction does by its answer -/

/-- The byte a write of `v` leaves at its address, which held `old` (`20_memory.md` R64, R66). -/
def Answer.written (v old : Byte) : Answer → Byte
  | .ok => v
  | .err left => left
  | .none => old

theorem read_writeTransaction {addr : Nat} {v : Byte} {k : State → State} (hk : ∀ u, (k u).store = u.store)
    (hwf : s.store.wf = true) (h : writeTransaction addr v a k s = .next t) (x : Nat) :
    Memory.read t.store x =
      if x = addr then a.written v (Memory.read s.store addr) else Memory.read s.store x := by
  obtain ⟨-, ⟨rfl, rfl⟩ | ⟨left, rfl, rfl⟩ | ⟨rfl, rfl⟩⟩ := writeTransaction_next h
  · rw [hk]; exact Memory.read_write addr x v hwf
  · exact Memory.read_write addr x left hwf
  · simp only [Answer.written]
    split_ifs with hx
    · rw [hx]
    · rfl

theorem slotReadStep_store {onSlot : Verdict → State → State} (hon : KeepsStoreAndBuf onSlot)
    (h : slotReadStep onSlot a s = .next t) : t.store = s.store := by
  obtain ⟨-, -, ⟨-, rfl⟩ | ⟨-, rfl⟩ | ⟨-, b, -, ⟨-, rfl⟩ | ⟨-, rfl⟩⟩⟩ := slotReadStep_next h
  · rfl
  · rfl
  · rfl
  · exact (hon _ _).1

theorem slotReadStep_buf_of_ok {onSlot : Verdict → State → State} (hon : KeepsStoreAndBuf onSlot)
    (h : slotReadStep onSlot .ok s = .next t) :
    t.buf = s.buf.setIfInBounds s.bc (Memory.read s.store (slotAddr s.si s.bc)) := by
  obtain ⟨-, -, ⟨ha, -⟩ | ⟨⟨_, ha⟩, -⟩ | ⟨-, b, rfl, ⟨-, rfl⟩ | ⟨-, rfl⟩⟩⟩ := slotReadStep_next h
  · cases ha
  · cases ha
  · rfl
  · exact (hon _ _).2

theorem slotReadStep_buf_of_not_ok {onSlot : Verdict → State → State} (ha : a ≠ .ok)
    (h : slotReadStep onSlot a s = .next t) : t.buf = s.buf := by
  obtain ⟨-, -, ⟨-, rfl⟩ | ⟨-, rfl⟩ | ⟨hok, -⟩⟩ := slotReadStep_next h
  · rfl
  · rfl
  · exact absurd hok ha

theorem writeTransaction_unanswered {addr : Nat} {v : Byte} {k : State → State}
    (h : writeTransaction addr v .none k s = .next t) : t = s := by
  obtain ⟨-, ⟨ha, -⟩ | ⟨_, ha, -⟩ | ⟨-, ht⟩⟩ := writeTransaction_next h
  · cases ha
  · cases ha
  · exact ht

theorem slotReadStep_unanswered {onSlot : Verdict → State → State} (h : slotReadStep onSlot .none s = .next t) :
    t = s := by
  obtain ⟨-, -, ⟨-, ht⟩ | ⟨⟨_, ha⟩, -⟩ | ⟨ha, -⟩⟩ := slotReadStep_next h
  · exact ht
  · cases ha
  · cases ha

/-- Without an answer the engine waits in its phase (`20_memory.md` R66). -/
theorem engineStep_unanswered (h : s.Inv) : engineStep .none s = .next s := by
  obtain ⟨t, ht⟩ := engineStep_exists_next h .none
  suffices t = s by rw [ht, this]
  unfold engineStep at ht
  cases hp : s.phase <;> simp only [hp] at ht
  case idle => cases ht; rfl
  case aErase | eWrite => exact writeTransaction_unanswered ht
  case aWrite =>
    obtain ⟨v, -, hw⟩ := stepAWrite_next ht
    exact writeTransaction_unanswered hw
  case rRead | vRead => exact slotReadStep_unanswered ht

/-- Settles O32: a transaction belongs to one row of the step table; `slotReadStep` and `writeTransaction` say what it does. -/
theorem transactionEffects : Obligations.TransactionEffects := by
  intro s a hs hturn hpow
  have hinv : s.popped.Inv := hs
  obtain ⟨-, -, ⟨hwf, -⟩, -⟩ := hs
  obtain ⟨t, he⟩ := engineStep_exists_next hinv a
  have hstep : s.phase ≠ .idle → step s = .next t := fun hi => (step_of_busy_turn hturn hpow hi).trans he
  refine ⟨fun addr htx => ?_, fun addr v htx => ?_, ?_⟩
  · obtain ⟨rfl, onSlot, hon, hrow⟩ := engineStep_of_read (s := s.popped) htx
    rw [hrow] at he
    refine ⟨t, hstep (phase_ne_idle_of_transaction htx), slotReadStep_store (s := s.popped) hon he, ?_,
      fun ha => slotReadStep_buf_of_not_ok (s := s.popped) ha he⟩
    rintro rfl j hj
    rw [slotReadStep_buf_of_ok hon he, Vector.getElem?_setIfInBounds]
    by_cases hjb : j = s.bc
    · simp [← hjb, hj]
    · simp [hjb, Ne.symm hjb]
  · obtain ⟨k, hk, hrow⟩ := engineStep_of_write (s := s.popped) htx
    rw [hrow] at he
    exact ⟨t, hstep (phase_ne_idle_of_transaction htx), read_writeTransaction (s := s.popped) hk hwf he⟩
  · rintro rfl hi
    rw [step_of_busy_turn hturn hpow hi, engineStep_unanswered hinv]

end Sys2Proof.Machine
end

section
/-! # Command and response frames: what decodes, what waits, and how responses are read back (`30_encoding.md`) -/

namespace Sys2Proof

/-! ## Format S -/

theorem isMessage_cons {b : Byte} {m : List Byte} : isMessage (b :: m) = true ↔ b ≠ 0 ∧ isMessage m = true := by
  simp only [isMessage, List.all_cons, Bool.and_eq_true, decide_eq_true_eq]

/-- A message is read up to its terminator, whatever follows (R94). -/
theorem splitMessage_of_isMessage {m : List Byte} (hm : isMessage m = true) (tail : List Byte) :
    splitMessage (m ++ 0x00 :: tail) = some (m, tail) := by
  induction m with
  | nil => rfl
  | cons b m ih =>
    obtain ⟨hb, hm⟩ := isMessage_cons.mp hm
    rw [List.cons_append, splitMessage, if_neg hb, ih hm, Option.map_some]

/-- What is read stands before the first 0x00 (R94). -/
theorem eq_of_splitMessage {s m tail : List Byte} (h : splitMessage s = some (m, tail)) :
    s = m ++ 0x00 :: tail ∧ isMessage m = true := by
  induction s generalizing m with
  | nil => cases h
  | cons b s ih =>
    rw [splitMessage] at h
    split_ifs at h with hb
    · cases h
      exact ⟨by rw [hb, List.nil_append], rfl⟩
    · obtain ⟨⟨m', tail'⟩, h', heq⟩ := Option.map_eq_some_iff.mp h
      cases heq
      obtain ⟨rfl, hm⟩ := ih h'
      exact ⟨rfl, isMessage_cons.mpr ⟨hb, hm⟩⟩

/-- While no 0x00 has come, the bytes are a message still open (R94, R100). -/
theorem isMessage_of_splitMessage {s : List Byte} (h : splitMessage s = none) : isMessage s = true := by
  induction s with
  | nil => rfl
  | cons b s ih =>
    rw [splitMessage] at h
    split_ifs at h with hb
    exact isMessage_cons.mpr ⟨hb, ih (Option.map_eq_none_iff.mp h)⟩

/-! ## Command frames -/

/-- The commands that a frame carries: the well-formed instructions, and an illegal opcode that the opcode map lacks
(R98, R99). -/
def Cmd.framed : Cmd → Prop
  | .instr i => i.wellFormed = true
  | .illegal op => op ∉ [0x00, 0x01, 0x02, 0x03, 0x04, 0x05, 0x10, 0x11, 0x12]

theorem decodeFrame_append (s : List Byte) :
    decodeFrame (0x01 :: s) = (splitMessage s).map fun p => (.instr (.append p.1), p.2) := rfl

/-- The frame of a command decodes to it, whatever follows (R95). -/
theorem decodeFrame_encodeCmd {c : Cmd} (hc : c.framed) (rest : List Byte) :
    decodeFrame (encodeCmd c ++ rest) = some (c, rest) := by
  cases c with
  | illegal op =>
    simp only [Cmd.framed, List.mem_cons, List.not_mem_nil, or_false, not_or] at hc
    simp only [encodeCmd, List.singleton_append, decodeFrame, hc, if_false]
  | instr i =>
    cases i with
    | append m =>
      have hbytes : encodeCmd (.instr (.append m)) ++ rest = 0x01 :: (m ++ 0x00 :: rest) := by
        simp [encodeCmd, encode, opcode, operandBytes]
      rw [hbytes, decodeFrame_append, splitMessage_of_isMessage hc, Option.map_some]
    | nop | readall | eraseall | recover | getidx | crcinit | crcbyte _ | crcread => rfl

/-- What decodes is the frame of a command that has one (R95). -/
theorem framed_of_decodeFrame {s rest : List Byte} {c : Cmd} (h : decodeFrame s = some (c, rest)) :
    c.framed ∧ s = encodeCmd c ++ rest := by
  unfold decodeFrame at h
  split at h
  · cases h
  rename_i op s
  split_ifs at h with h0 h1 h2 h3 h4 h5 h10 h11 h12
  -- an opcode outside the map, then CRCBYTE, APPEND, and the commands that are their opcode alone
  on_goal 10 =>
    cases h
    exact ⟨by simp only [Cmd.framed, List.mem_cons, List.not_mem_nil, *, or_self, not_false_eq_true], rfl⟩
  all_goals subst op
  on_goal 8 =>
    cases s with
    | nil => cases h
    | cons b tail => cases h; exact ⟨rfl, rfl⟩
  on_goal 2 =>
    obtain ⟨⟨m, tail⟩, hm, hc⟩ := Option.map_eq_some_iff.mp h
    obtain ⟨rfl, hmsg⟩ := eq_of_splitMessage hm
    cases hc
    exact ⟨hmsg, by simp [encodeCmd, encode, opcode, operandBytes]⟩
  all_goals cases h; exact ⟨rfl, rfl⟩

/-- The frames that wait for more bytes: an open APPEND, and CRCBYTE without its data byte (R100). -/
theorem open_of_decodeFrame {op : Byte} {s : List Byte} (h : decodeFrame (op :: s) = none) :
    (op = 0x01 ∧ isMessage s = true) ∨ (op = 0x11 ∧ s = []) := by
  unfold decodeFrame at h
  dsimp only at h
  split_ifs at h with h0 h1 h2 h3 h4 h5 h10 h11 h12
  · exact .inl ⟨h1, isMessage_of_splitMessage (Option.map_eq_none_iff.mp h)⟩
  · cases s with
    | nil => exact .inr ⟨h11, rfl⟩
    | cons b tail => cases h

/-- Settles O13: the well-formed instructions are among the commands with a frame. -/
theorem decodeOfEncode : Obligations.DecodeOfEncode :=
  fun i rest hi => decodeFrame_encodeCmd (c := .instr i) hi rest

/-- Settles O14: the decoded bytes are a frame, and a frame decodes whatever follows it. -/
theorem decodedBytesAreTheFrame : Obligations.DecodedBytesAreTheFrame := by
  intro s c rest h
  obtain ⟨hc, rfl⟩ := framed_of_decodeFrame h
  refine ⟨rfl, ?_, fun more => ?_⟩
  · rintro i rfl
    exact hc
  · rw [List.append_assoc]
    exact decodeFrame_encodeCmd hc (rest ++ more)

/-- Settles O15: 0x00 is the terminator of an open APPEND, and the data byte of an open CRCBYTE. -/
theorem zeroByteReachesFrameBoundary : Obligations.ZeroByteReachesFrameBoundary := by
  refine ⟨fun rest => rfl, fun s hs h => ?_⟩
  obtain ⟨op, s, rfl⟩ := List.exists_cons_of_ne_nil hs
  obtain ⟨rfl, hm⟩ | ⟨rfl, rfl⟩ := open_of_decodeFrame h
  · exact .inl ⟨s, rfl, by simpa [encode, opcode, operandBytes] using decodeOfEncode (.append s) [] hm⟩
  · exact .inr ⟨rfl, rfl⟩

/-- Settles O16: the decoder evaluated on each vector. -/
theorem specFramesDecode : Obligations.SpecFramesDecode := by
  unfold Obligations.SpecFramesDecode
  and_intros <;> decide

namespace Machine

/-! ## Response frames -/

theorem parseResponse_str (s : List Byte) :
    parseResponse (0x01 :: s) = (splitMessage s).map fun p => (.str p.1, p.2) := rfl

/-- The host reads a frame back from its bytes, and nothing else of the stream (R105). -/
theorem parseResponse_bytes {f : Rsp} (hf : f.wellFormed = true) (rest : List Byte) :
    parseResponse (f.bytes ++ rest) = some (f, rest) := by
  cases f with
  | str s =>
    obtain ⟨-, hs⟩ := Bool.and_eq_true_iff.mp hf
    have hbytes : (Rsp.str s).bytes ++ rest = 0x01 :: (s ++ 0x00 :: rest) := by simp [Rsp.bytes]
    rw [hbytes, parseResponse_str, splitMessage_of_isMessage hs, Option.map_some]
  | u16 v =>
    have hparse : parseResponse ((Rsp.u16 v).bytes ++ rest) = some (.u16 (hiByte v ++ loByte v), rest) := rfl
    rw [hparse, hiByte_append_loByte]
  | status c => cases c <;> rfl

/-- Settles O17: `parseResponse_bytes`, and R103's table of the four status bytes. -/
theorem responsesReadBack : Obligations.ResponsesReadBack := by
  refine ⟨fun f rest hf => parseResponse_bytes hf rest, rfl, rfl, rfl, rfl, fun c => ⟨c.byte, rfl, ?_⟩⟩
  cases c <;> decide

/-! ## The engine waits for a whole frame -/

/-- Settles O19: the engine's turn is `engineTurn_waiting`. -/
theorem incompleteFrameWaits : Obligations.IncompleteFrameWaits :=
  fun s _ hturn hready hnone =>
    (step_of_turn hturn).trans (engineTurn_waiting (s := s.popped) hready.1 hready.2 hnone)

end Machine

end Sys2Proof
end

section
/-! # The response stream: frames are only appended, and the pseudo-instructions emit the CRC of their bytes
(`30_encoding.md` R101, R107) -/

namespace Sys2Proof.Machine

variable {s t : State} {a : Answer}

/-! ## Every step appends to the response stream -/

/-- The parameters stay, and `t` has emitted at most two frames more than `s` (R101, `10_state.md` R35). -/
def State.AppendsOut (s t : State) : Prop :=
  t.config = s.config ∧ s.out <+: t.out ∧ t.out.length ≤ s.out.length + 2

/-- A turn of the engine appends to the response stream, and leaves the power and the environment's coming moves. -/
structure EngineKeeps (s t : State) : Prop where
  appends : s.AppendsOut t
  powered : t.powered = s.powered
  script : t.script = s.script
  thereafter : t.thereafter = s.thereafter

theorem engineKeeps_refl (s : State) : EngineKeeps s s := by
  constructor <;> simp [State.AppendsOut]

theorem acceptEffect_keeps (c : Cmd) (s : State) : EngineKeeps s (acceptEffect c s) := by
  cases c with
  | illegal op => constructor <;> simp [acceptEffect, State.AppendsOut]
  | instr i =>
    cases i with
    | append m => simp only [acceptEffect]; split_ifs <;> constructor <;> simp [State.AppendsOut]
    | nop | readall | eraseall | recover | getidx | crcinit | crcbyte _ | crcread =>
      constructor <;> simp [acceptEffect, State.AppendsOut]

theorem writeTransaction_keeps {addr : Nat} {v : Byte} {k : State → State} (hk : ∀ u, EngineKeeps u (k u))
    (h : writeTransaction addr v a k s = .next t) : EngineKeeps s t := by
  obtain ⟨-, ⟨-, rfl⟩ | ⟨l, -, rfl⟩ | ⟨-, rfl⟩⟩ := writeTransaction_next h
  · obtain ⟨ho, hp, hs, ht⟩ := hk { s with store := Memory.write s.store addr v }
    exact ⟨ho, hp, hs, ht⟩
  · constructor <;> simp [State.AppendsOut]
  · exact engineKeeps_refl t

theorem slotReadStep_keeps {onSlot : Verdict → State → State} (hon : ∀ r u, EngineKeeps u (onSlot r u))
    (h : slotReadStep onSlot a s = .next t) : EngineKeeps s t := by
  obtain ⟨-, -, ⟨-, rfl⟩ | ⟨-, rfl⟩ | ⟨-, b, -, ⟨-, rfl⟩ | ⟨-, rfl⟩⟩⟩ := slotReadStep_next h
  · exact engineKeeps_refl t
  · constructor <;> simp [State.AppendsOut]
  · constructor <;> simp [State.AppendsOut]
  · obtain ⟨ho, hp, hs, ht⟩ := hon (decodeRecord b.toList) { s with buf := b, crc := decodeCrc b.toList s.crc }
    exact ⟨ho, hp, hs, ht⟩

theorem readallSlot_keeps (r : Verdict) (s : State) : EngineKeeps s (readallSlot r s) := by
  cases r with
  | invalid => constructor <;> simp [readallSlot, State.AppendsOut]
  | valid str => rw [readallSlot_valid]; split <;> constructor <;> simp [State.AppendsOut]

theorem recoverSlot_keeps (r : Verdict) (s : State) : EngineKeeps s (recoverSlot r s) := by
  cases r with
  | invalid => constructor <;> simp [recoverSlot, State.AppendsOut]
  | valid str => dsimp only [recoverSlot]; split <;> constructor <;> simp [State.AppendsOut]

theorem engineStep_keeps (h : engineStep a s = .next t) : EngineKeeps s t := by
  unfold engineStep at h
  cases hp : s.phase <;> simp only [hp] at h
  case idle => cases h; exact engineKeeps_refl s
  case aErase | eWrite =>
    refine writeTransaction_keeps (fun u => ?_) h
    split <;> constructor <;> simp [State.AppendsOut]
  case aWrite =>
    obtain ⟨v, -, hw⟩ := stepAWrite_next h
    refine writeTransaction_keeps (fun u => ?_) hw
    split <;> constructor <;> simp [State.AppendsOut]
  case rRead => exact slotReadStep_keeps readallSlot_keeps h
  case vRead => exact slotReadStep_keeps recoverSlot_keeps h

theorem engineTurn_keeps (h : engineTurn a s = .next t) : EngineKeeps s t := by
  obtain he | ⟨-, -, c, rest, -, he⟩ | ⟨-, -, he⟩ := engineTurn_cases a s <;> rw [he] at h
  · cases h; exact engineKeeps_refl s
  · cases h
    obtain ⟨ho, hp, hs, ht⟩ := acceptEffect_keeps c { s with port := rest }
    exact ⟨ho, hp, hs, ht⟩
  · exact engineStep_keeps h

theorem move_appendsOut {m : Move} (h : move m s = .next t) : s.AppendsOut t := by
  cases m with
  | engine a => exact (engineTurn_keeps h).appends
  | present _ | powerLoss | reset _ _ => cases h; simp [State.AppendsOut]
  | extWrite addr v =>
    rw [move, extWrite] at h
    obtain ⟨-, -, rfl⟩ := foreignAccess_next h; simp [State.AppendsOut]
  | extRead addr =>
    rw [move, extRead] at h
    obtain ⟨-, -, rfl⟩ := foreignAccess_next h; simp [State.AppendsOut]

/-- Settles O37: every step is a move, and every move only appends to the response stream. -/
theorem responsesAreAppendOnly : Obligations.ResponsesAreAppendOnly := by
  intro s t h
  rw [step_eq_move] at h
  obtain ⟨hconfig, ⟨fs, hfs⟩, hlen⟩ := move_appendsOut (s := s.popped) h
  refine ⟨⟨fs, hfs.symm, ?_⟩, hconfig⟩
  rw [← hfs, List.length_append] at hlen
  omega

/-! ## The pseudo-instructions -/

theorem execAll_cons_of_next {i : Instr} {is : List Instr} (h : exec i s = .next t) :
    execAll (i :: is) s = execAll is t := by
  rw [execAll, h]

theorem execAll_append_of_next {is js : List Instr} (h : execAll is s = .next t) :
    execAll (is ++ js) s = execAll js t := by
  induction is generalizing s with
  | nil => cases h; rfl
  | cons i is ih =>
    cases he : exec i s with
    | next u =>
      rw [execAll_cons_of_next he] at h
      rw [List.cons_append, execAll_cons_of_next he, ih h]
    | fault r => simp [execAll, he] at h
    | refused r => simp [execAll, he] at h

theorem exec_of_ready (i : Instr) (h : s.ready) : exec i s = .next (acceptEffect (.instr i) s) := by
  rw [exec_eq_accept, accept_of_ready _ h]

/-- The state with `CRC` set to `c` and the frames `fs` emitted: all that the commands of the CRC16 unit do. -/
def State.withCrc (s : State) (c : Word) (fs : List Rsp) : State :=
  { s with crc := c, out := s.out ++ fs }

theorem State.withCrc_withCrc (s : State) (c d : Word) (fs gs : List Rsp) :
    (s.withCrc c fs).withCrc d gs = s.withCrc d (fs ++ gs) := by
  simp [State.withCrc]

theorem exec_crcinit (h : s.ready) : exec .crcinit s = .next (s.withCrc 0xFFFF [.status .ok]) := by
  rw [exec_of_ready _ h]
  simp [acceptEffect, finish, emit, State.withCrc, h.2]

theorem exec_crcbyte (b : Byte) (h : s.ready) :
    exec (.crcbyte b) s = .next (s.withCrc (crcByte s.crc b) [.status .ok]) := by
  rw [exec_of_ready _ h]
  simp [acceptEffect, finish, emit, State.withCrc, h.2]

theorem exec_crcread (h : s.ready) : exec .crcread s = .next (s.withCrc s.crc [.u16 s.crc, .status .ok]) := by
  rw [exec_of_ready _ h]
  simp [acceptEffect, finish, emit, State.withCrc, h.2]

/-- One CRCBYTE for each byte folds the CRC over them, with a STATUS(OK) each (`41_crc16.md` R126, R129). -/
theorem execAll_crcbytes (bs : List Byte) (h : s.ready) :
    execAll (bs.map .crcbyte) s =
      .next (s.withCrc (crcFold s.crc bs) (List.replicate bs.length (.status .ok))) := by
  induction bs generalizing s with
  | nil => simp [execAll, crcFold, State.withCrc]
  | cons b bs ih =>
    rw [List.map_cons, execAll_cons_of_next (exec_crcbyte b h), ih (s := s.withCrc _ _) h, State.withCrc_withCrc]
    rfl

theorem execAll_pseudoCrc16 (bs : List Byte) (h : s.ready) :
    execAll (pseudoCrc16 bs) s = .next (s.withCrc (crc16 bs)
      (List.replicate (bs.length + 1) (.status .ok) ++ [.u16 (crc16 bs), .status .ok])) := by
  have hinit := exec_crcinit h
  have hbytes := execAll_crcbytes bs (s := s.withCrc 0xFFFF [.status .ok]) h
  rw [State.withCrc_withCrc] at hbytes
  have hread := exec_crcread (s := s.withCrc (crc16 bs) (List.replicate (bs.length + 1) (.status .ok))) h
  rw [State.withCrc_withCrc] at hread
  rw [pseudoCrc16, List.append_assoc, List.singleton_append, execAll_cons_of_next hinit, execAll_append_of_next hbytes]
  exact execAll_cons_of_next hread

/-- CRCSTR is CRC16 of the text and its terminator (R107). -/
theorem pseudoCrcstr_eq_pseudoCrc16 (text : List Byte) : pseudoCrcstr text = pseudoCrc16 (text ++ [0x00]) := by
  simp [pseudoCrcstr, pseudoCrc16]

/-- Settles O59: both are `execAll_pseudoCrc16`, of the bytes and of the bytes with a terminator. -/
theorem pseudoInstructionsCarryCrc : Obligations.PseudoInstructionsCarryCrc := by
  intro s bs h
  have hcrcstr := execAll_pseudoCrc16 (bs ++ [0x00]) h
  rw [← pseudoCrcstr_eq_pseudoCrc16, List.length_append, List.length_singleton] at hcrcstr
  rw [execAll_pseudoCrc16 bs h, hcrcstr]
  simp [State.withCrc]

end Sys2Proof.Machine
end

section
/-! # From the accept step to the STATUS frame: what a command emits on its way back to `IDLE`
(`30_encoding.md` R105, `43_log_fsm.md` R176) -/

namespace Sys2Proof.Machine

variable {s t u : State} {a : Answer}

/-! ## A running command -/

/-- The counters that a transaction phase uses are in their bounds (`43_log_fsm.md` R171, R173); `IDLE` is
none. -/
def State.inBounds (s : State) : Prop :=
  match s.phase with
  | .idle => False
  | .aErase => s.si < s.config.maxEntries ∧ s.len ≤ 61
  | .aWrite => s.nwi < s.config.maxEntries ∧ s.bc < s.len + 3 ∧ s.len ≤ 61
  | .rRead => s.si < s.config.maxEntries ∧ s.bc < 64
  | .eWrite => s.si < s.config.maxEntries
  | .vRead => s.si < s.config.maxEntries ∧ s.bc < 64

/-- A powered engine in a transaction phase: the part of the invariant that the end of the command rests on. -/
def State.running (s : State) : Prop :=
  s.powered = true ∧ s.config.wf ∧ s.inBounds

/-- How many turns of the engine a running command has left at most, while the store answers (`43_log_fsm.md` R176). -/
def State.work (s : State) : Nat :=
  match s.phase with
  | .idle => 0
  | .aErase => s.config.maxEntries - s.si + (s.len + 3)
  | .aWrite => s.len + 3 - s.bc
  | .rRead => 64 * (s.config.maxEntries - s.si) - s.bc
  | .eWrite => s.config.maxEntries - s.si
  | .vRead => 64 * (s.config.maxEntries - s.si) - s.bc

/-- How many STR frames a running command may still emit: READALL one a slot, the others none. -/
def State.stringsLeft (s : State) : Nat :=
  if s.phase = .rRead then s.config.maxEntries - s.si else 0

/-- The frames `fs` and then the status `c` are a way the running command may end (R105). -/
def State.mayEndWith (s : State) (fs : List Rsp) (c : Status) : Prop :=
  (∀ f ∈ fs, ∃ str, f = .str str) ∧ fs.length ≤ s.stringsLeft ∧ (c = .ok ∨ c = .ioError)

/-- What an answered transaction step does to a running command: it goes on, nearer to its end, or it ends with
one STATUS frame. -/
inductive CommandTurn (s : State) : State → Prop where
  | goesOn {t : State} (fs : List Rsp) (hrun : t.running) (hwork : t.work < s.work) (hout : t.out = s.out ++ fs)
      (hend : ∀ gs c, t.mayEndWith gs c → s.mayEndWith (fs ++ gs) c) : CommandTurn s t
  | ends {t : State} (fs : List Rsp) (c : Status) (hready : t.ready) (hout : t.out = s.out ++ fs ++ [.status c])
      (hend : s.mayEndWith fs c) : CommandTurn s t

theorem State.running.powered (h : s.running) : s.powered = true := h.1

theorem State.running.busy (h : s.running) : s.phase ≠ .idle := by
  intro hp
  simp [State.running, State.inBounds, hp] at h

theorem State.running.not_ready (h : s.running) : ¬ s.ready := fun hr => h.busy hr.2

theorem State.running.work_pos (h : s.running) : 0 < s.work := by
  obtain ⟨-, -, hin⟩ := h
  cases hph : s.phase <;> simp only [State.inBounds, hph] at hin <;> simp only [State.work, hph] <;> omega

theorem mayEndWith_nil {c : Status} (hc : c = .ok ∨ c = .ioError) : s.mayEndWith [] c :=
  ⟨by simp, Nat.zero_le _, hc⟩

/-- A step that emits nothing, and after which no more strings may come than before. -/
theorem commandTurn_silent (hrun : t.running) (hwork : t.work < s.work) (hout : t.out = s.out)
    (hleft : t.stringsLeft ≤ s.stringsLeft) : CommandTurn s t :=
  .goesOn [] hrun hwork (by simp [hout]) fun gs c ⟨hstr, hlen, hc⟩ => ⟨hstr, hlen.trans hleft, hc⟩

theorem commandTurn_finish (hp : u.powered = true) (hout : u.out = s.out) : CommandTurn s (finish u) :=
  .ends [] .ok ⟨hp, rfl⟩ (by simp [hout]) (mayEndWith_nil (.inl rfl))

theorem commandTurn_ioError (hp : u.powered = true) (hout : u.out = s.out) : CommandTurn s (raise .ioError u) :=
  .ends [] .ioError ⟨hp, rfl⟩ (by simp [hout]) (mayEndWith_nil (.inr rfl))

/-! ## The rows of the step table -/

theorem writeTransaction_commandTurn {addr : Nat} {v : Byte} {k : State → State} (ha : a.given = true)
    (hp : s.powered = true) (haddr : addr < s.config.storeSize) (hk : ∀ m, CommandTurn s (k { s with store := m })) :
    ∃ t, writeTransaction addr v a k s = .next t ∧ CommandTurn s t := by
  simp only [writeTransaction, haddr, if_true]
  cases a with
  | ok => exact ⟨_, rfl, hk _⟩
  | err left => exact ⟨_, rfl, commandTurn_ioError hp rfl⟩
  | none => cases ha

theorem stepAErase_commandTurn (ha : a.given = true) (hph : s.phase = .aErase) (h : s.running) :
    ∃ t, stepAErase a s = .next t ∧ CommandTurn s t := by
  have ⟨hp, hc, hin⟩ := h
  simp only [State.inBounds, hph] at hin
  obtain ⟨hsi, hlen⟩ := hin
  refine writeTransaction_commandTurn ha hp (slotAddr_lt_storeSize hc hsi (by omega)) fun m => ?_
  dsimp only
  split
  case isTrue hnext =>
    refine commandTurn_silent ⟨hp, hc, ?_⟩ ?_ rfl (by simp [State.stringsLeft, hph])
    · simp only [State.inBounds, hph]
      exact ⟨hnext, hlen⟩
    · simp only [State.work, hph]; omega
  case isFalse =>
    have hmax := hc.1
    refine commandTurn_silent ⟨hp, hc, hmax, Nat.succ_pos _, hlen⟩ ?_ rfl (by simp [State.stringsLeft])
    simp only [State.work, startRecord_phase, startRecord_len, startRecord_bc, hph]; omega

theorem stepAWrite_commandTurn (ha : a.given = true) (hph : s.phase = .aWrite) (h : s.running) :
    ∃ t, stepAWrite a s = .next t ∧ CommandTurn s t := by
  have ⟨hp, hc, hin⟩ := h
  simp only [State.inBounds, hph] at hin
  obtain ⟨hnwi, hbc, hlen⟩ := hin
  have hb : s.bc < 64 := by omega
  simp only [stepAWrite, Vector.getElem?_eq_getElem hb]
  refine writeTransaction_commandTurn ha hp (slotAddr_lt_storeSize hc hnwi hb) fun m => ?_
  split
  case isTrue hnext =>
    refine commandTurn_silent ⟨hp, hc, ?_⟩ ?_ rfl (by simp [State.stringsLeft, hph])
    · simp only [State.inBounds, hph]
      exact ⟨hnwi, hnext, hlen⟩
    · simp only [State.work, hph]; omega
  case isFalse => exact commandTurn_finish hp rfl

theorem stepEWrite_commandTurn (ha : a.given = true) (hph : s.phase = .eWrite) (h : s.running) :
    ∃ t, stepEWrite a s = .next t ∧ CommandTurn s t := by
  have ⟨hp, hc, hsi⟩ := h
  simp only [State.inBounds, hph] at hsi
  refine writeTransaction_commandTurn ha hp (slotAddr_lt_storeSize hc hsi (by omega)) fun m => ?_
  split
  case isTrue hnext =>
    refine commandTurn_silent ⟨hp, hc, ?_⟩ ?_ rfl (by simp [State.stringsLeft, hph])
    · simpa only [State.inBounds, hph] using hnext
    · simp only [State.work, hph]; omega
  case isFalse => exact commandTurn_finish hp rfl

/-- The slot read: with the 64th byte what follows is `onSlot`. -/
theorem slotReadStep_commandTurn {onSlot : Verdict → State → State} (ha : a.given = true)
    (hph : s.phase = .rRead ∨ s.phase = .vRead) (h : s.running)
    (hon : ∀ r b c, s.bc = 63 → CommandTurn s (onSlot r { s with buf := b, crc := c })) :
    ∃ t, slotReadStep onSlot a s = .next t ∧ CommandTurn s t := by
  have ⟨hp, hc, hin⟩ := h
  have ⟨hsi, hbc⟩ : s.si < s.config.maxEntries ∧ s.bc < 64 := by
    obtain hph | hph := hph <;> simpa only [State.inBounds, hph] using hin
  simp only [slotReadStep, hbc, readTransaction, slotAddr_lt_storeSize hc hsi hbc, if_true]
  cases a with
  | none => cases ha
  | err left => exact ⟨_, rfl, commandTurn_ioError hp rfl⟩
  | ok =>
    refine ⟨_, rfl, ?_⟩
    split
    case isTrue hnext =>
      refine commandTurn_silent ⟨hp, hc, ?_⟩ ?_ rfl (Nat.le_refl s.stringsLeft) <;> obtain hph | hph := hph
      · simpa only [State.inBounds, hph] using ⟨hsi, hnext⟩
      · simpa only [State.inBounds, hph] using ⟨hsi, hnext⟩
      · simp only [State.work, hph]; omega
      · simp only [State.work, hph]; omega
    case isFalse => exact hon _ _ _ (by omega)

theorem readallSlot_commandTurn (hph : s.phase = .rRead) (h : s.running) (hbc : s.bc = 63) (r : Verdict) (b : Buf)
    (c : Word) : CommandTurn s (readallSlot r { s with buf := b, crc := c }) := by
  have ⟨hp, hc, hin⟩ := h
  simp only [State.inBounds, hph] at hin
  cases r with
  | invalid => exact commandTurn_finish hp rfl
  | valid str =>
    rw [readallSlot_valid]
    split
    case isTrue hnext =>
      refine .goesOn [.str str] ⟨hp, hc, ?_⟩ ?_ rfl ?_
      · simpa only [State.inBounds, hph] using ⟨hnext, by omega⟩
      · simp only [State.work, hph]; omega
      · rintro gs c ⟨hstr, hlen, hc⟩
        simp only [State.stringsLeft, hph, if_true] at hlen
        refine ⟨by simpa using hstr, ?_, hc⟩
        simp only [State.stringsLeft, hph, if_true, List.length_append, List.length_singleton]
        omega
    case isFalse =>
      refine .ends [.str str] .ok ⟨hp, rfl⟩ rfl ⟨by simp, ?_, .inl rfl⟩
      simp only [State.stringsLeft, hph, if_true, List.length_singleton]
      omega

theorem recoverSlot_commandTurn (hph : s.phase = .vRead) (h : s.running) (hbc : s.bc = 63) (r : Verdict) (b : Buf)
    (c : Word) : CommandTurn s (recoverSlot r { s with buf := b, crc := c }) := by
  have ⟨hp, hc, hin⟩ := h
  simp only [State.inBounds, hph] at hin
  cases r with
  | invalid => exact commandTurn_finish hp rfl
  | valid str =>
    dsimp only [recoverSlot]
    split
    case isTrue hnext =>
      refine commandTurn_silent ⟨hp, hc, ?_⟩ ?_ rfl (by simp [State.stringsLeft, hph])
      · simpa only [State.inBounds, hph] using ⟨hnext, by omega⟩
      · simp only [State.work, hph]; omega
    case isFalse => exact commandTurn_finish hp rfl

/-- A transaction step of a running command whose store answers. -/
theorem engineStep_commandTurn (ha : a.given = true) (h : s.running) : ∃ t, engineStep a s = .next t ∧ CommandTurn s t := by
  unfold engineStep
  cases hph : s.phase with
  | idle => exact absurd hph h.busy
  | aErase => exact stepAErase_commandTurn ha hph h
  | aWrite => exact stepAWrite_commandTurn ha hph h
  | rRead => exact slotReadStep_commandTurn ha (.inl hph) h fun r b c hbc => readallSlot_commandTurn hph h hbc r b c
  | eWrite => exact stepEWrite_commandTurn ha hph h
  | vRead => exact slotReadStep_commandTurn ha (.inr hph) h fun r b c hbc => recoverSlot_commandTurn hph h hbc r b c

/-! ## The run to `IDLE` -/

/-- In an answering environment the next move is an answered turn of the engine, or the host presents bytes; the environment
stays answering. -/
theorem State.answering.cases (h : s.answering) :
    (∃ a, s.turn = some a ∧ a.given = true ∧ s.popped.answering) ∨
      ∃ bs, s.script = .present bs :: s.script.tail ∧ s.popped.answering := by
  obtain ⟨hscript, hthen⟩ := h
  cases hs : s.script with
  | nil => exact .inl ⟨s.thereafter, by rw [State.turn, hs], hthen, by simp [State.answering, hs, hthen]⟩
  | cons m rest =>
    rw [hs, List.all_cons, Bool.and_eq_true] at hscript
    obtain ⟨hm, hrest⟩ := hscript
    have hpop : s.popped.answering := by simp [State.answering, hs, hthen, hrest]
    cases m with
    | engine a => exact .inl ⟨a, by rw [State.turn, hs], hm, hpop⟩
    | present bs => exact .inr ⟨bs, rfl, hpop⟩
    | powerLoss | reset _ _ | extWrite _ _ | extRead _ => cases hm

theorem otherMoves_succ_of_turn (h : s.turn = some a) (hs : t.script = s.script.tail) (n : Nat) :
    s.otherMoves (n + 1) = t.otherMoves n := by
  unfold State.turn at h
  unfold State.otherMoves
  rw [hs]
  split at h
  · simp [*]
  · simp [*, Move.answer]
  · cases h

theorem otherMoves_succ_of_present {bs : List Byte} (h : s.script = .present bs :: t.script) (n : Nat) :
    s.otherMoves (n + 1) = t.otherMoves n + 1 := by
  rw [State.otherMoves, h, List.take_succ_cons, List.countP_cons_of_pos rfl, State.otherMoves]

/-- The run of `n` steps ends in `u`, the first of its states that is ready, the frames `fs` and the status `c` emitted. -/
def State.completes (s : State) (n : Nat) (u : State) (fs : List Rsp) (c : Status) : Prop :=
  run n s = .next u ∧ u.ready ∧ (∀ k < n, ∃ w, run k s = .next w ∧ ¬ w.ready) ∧ u.out = s.out ++ fs ++ [.status c]

/-- One step before a run that completes. -/
theorem State.completes.cons {n : Nat} {fs gs : List Rsp} {c : Status} (h : t.completes n u gs c) (hs : ¬ s.ready)
    (hstep : step s = .next t) (hout : t.out = s.out ++ fs) : s.completes (n + 1) u (fs ++ gs) c := by
  obtain ⟨hrun, hready, hbusy, hu⟩ := h
  refine ⟨(run_succ_of_step hstep).trans hrun, hready, fun k hk => ?_, by simp [hu, hout]⟩
  cases k with
  | zero => exact ⟨s, rfl, hs⟩
  | succ k => rw [run_succ_of_step hstep]; exact hbusy k (by omega)

/-- A running command whose store answers comes back to `IDLE` within its work (R176), in a way it may end. -/
theorem exists_completes (h : s.running) (ha : s.answering) :
    ∃ n u fs c, s.completes n u fs c ∧ n ≤ s.work + s.otherMoves n ∧ s.mayEndWith fs c := by
  generalize hm : s.work + s.script.length = m
  induction m using Nat.strong_induction_on generalizing s with
  | _ m ih =>
    obtain ⟨a, hturn, hgiven, hpop⟩ | ⟨bs, hs, hpop⟩ := ha.cases
    · have hrow := step_of_busy_turn hturn h.powered h.busy
      obtain ⟨t, ht, hct⟩ := engineStep_commandTurn (s := s.popped) hgiven h
      obtain ⟨-, -, hscript, hthen⟩ := engineStep_keeps ht
      have hstep := hrow.trans ht
      cases hct with
      | goesOn fs hrun hwork hout hend =>
        have hwork : t.work < s.work := hwork
        have hlen : t.script.length ≤ s.script.length := by simp [hscript]
        have hans : t.answering := by rw [State.answering, hscript, hthen]; exact hpop
        obtain ⟨n, u, gs, c, hcomp, hn, hgs⟩ := ih _ (by omega) hrun hans rfl
        have hmoves := otherMoves_succ_of_turn hturn hscript n
        exact ⟨n + 1, u, fs ++ gs, c, hcomp.cons h.not_ready hstep hout, by omega, hend gs c hgs⟩
      | ends fs c hready hout hend =>
        have hwork := h.work_pos
        refine ⟨1, t, fs, c, ⟨run_succ_of_step hstep, hready, fun k hk => ?_, hout⟩, by omega, hend⟩
        obtain rfl : k = 0 := by omega
        exact ⟨s, rfl, h.not_ready⟩
    · have hstep : step s = .next (present bs s.popped) := step_of_present hs
      have hlen := congrArg List.length hs
      rw [List.length_cons] at hlen
      have hm' : (present bs s.popped).work + (present bs s.popped).script.length < m := by
        change s.work + s.script.tail.length < m
        omega
      obtain ⟨n, u, fs, c, hcomp, hn, hfs⟩ := ih _ hm' (s := present bs s.popped) h hpop rfl
      have hmoves := otherMoves_succ_of_present (t := present bs s.popped) hs n
      have hwork : (present bs s.popped).work = s.work := rfl
      exact ⟨n + 1, u, fs, c, hcomp.cons (fs := []) h.not_ready hstep (by simp), by omega, hfs⟩

/-! ## From the accept step -/

/-- After its accept step a command has ended, or it is running with nothing emitted yet; its frames are those of the
table (R105). -/
inductive Accepted (s : State) (i : Instr) (t : State) : Prop where
  | ended (fs : List Rsp) (c : Status) (hready : t.ready) (hout : t.out = s.out ++ fs ++ [.status c])
      (hfs : ∀ f ∈ fs, f.isStatus = false) (hframes : framesOf s.config.maxEntries i fs c)
  | runs (hrun : t.running) (hout : t.out = s.out)
      (hframes : ∀ fs c, t.mayEndWith fs c → framesOf s.config.maxEntries i fs c)

/-- Outside `R_READ` a running command emits nothing before its STATUS frame. -/
theorem State.mayEndWith.silent {fs : List Rsp} {c : Status} (h : s.mayEndWith fs c) (hph : s.phase ≠ .rRead) :
    fs = [] ∧ (c = .ok ∨ c = .ioError) := by
  obtain ⟨-, hlen, hc⟩ := h
  rw [State.stringsLeft, if_neg hph] at hlen
  exact ⟨List.eq_nil_of_length_eq_zero (by omega), hc⟩

theorem accepted_append (m : List Byte) (hs : s.Inv) (hready : s.ready) :
    Accepted s (.append m) (acceptEffect (.instr (.append m)) s) := by
  have ⟨hc, _⟩ := hs
  have hmax := hc.1
  have hlen : (payload m).length ≤ 61 := by simp
  have hframes : ∀ {t : State}, t.phase ≠ .rRead → ∀ fs c, t.mayEndWith fs c →
      framesOf s.config.maxEntries (.append m) fs c := by
    intro t hph fs c h
    obtain ⟨hfs, hc⟩ := h.silent hph
    exact ⟨hfs, hc.imp_right .inr⟩
  simp only [acceptEffect]
  split_ifs with hm hfull
  · exact .ended [] .invalidInput ⟨hready.1, rfl⟩ (by simp) (by simp) ⟨rfl, .inr (.inl rfl)⟩
  · exact .runs ⟨hready.1, hc, hmax, hlen⟩ rfl (hframes (by simp))
  · exact .runs ⟨hready.1, hc, by simpa using hfull, Nat.succ_pos _, hlen⟩ rfl (hframes (by simp))

theorem accepted_acceptEffect (i : Instr) (hs : s.Inv) (hready : s.ready) : Accepted s i (acceptEffect (.instr i) s) := by
  have ⟨hc, _⟩ := hs
  have hmax := hc.1
  cases i with
  | append m => exact accepted_append m hs hready
  | nop | crcinit | crcbyte _ =>
    exact .ended [] .ok ⟨hready.1, rfl⟩ (by simp [acceptEffect]) (by simp) ⟨rfl, rfl⟩
  | getidx | crcread =>
    exact .ended [.u16 _] .ok ⟨hready.1, rfl⟩ rfl (by simp [Rsp.isStatus]) ⟨⟨_, rfl⟩, rfl⟩
  | readall =>
    exact .runs ⟨hready.1, hc, hmax, Nat.succ_pos 63⟩ rfl fun fs c h => h
  | eraseall => exact .runs ⟨hready.1, hc, hmax⟩ rfl fun fs c h => h.silent (by simp [acceptEffect])
  | recover => exact .runs ⟨hready.1, hc, hmax, Nat.succ_pos 63⟩ rfl fun fs c h => h.silent (by simp [acceptEffect])

/-- Settles O53: a command that has not ended in its accept step runs to `IDLE` by `exists_completes`. -/
theorem everyCommandEndsInOneStatus : Obligations.EveryCommandEndsInOneStatus := by
  intro s i hs hready _ ha
  have hexec := exec_of_ready i hready
  cases accepted_acceptEffect i hs hready with
  | ended fs c hr hout hfs hframes =>
    exact ⟨_, 0, _, fs, c, hexec, rfl, hr, fun k hk => absurd hk k.not_lt_zero, hout, hfs, hframes⟩
  | runs hrun hout hframes =>
    obtain ⟨-, -, hscript, hthen⟩ := acceptEffect_keeps (.instr i) s
    have hans : (acceptEffect (.instr i) s).answering := by rw [State.answering, hscript, hthen]; exact ha
    obtain ⟨n, u, fs, c, ⟨hr, hu, hbusy, hu'⟩, -, hend⟩ := exists_completes hrun hans
    refine ⟨_, n, u, fs, c, hexec, hr, hu, hbusy, hout ▸ hu', fun f hf => ?_, hframes fs c hend⟩
    obtain ⟨str, rfl⟩ := hend.1 f hf
    rfl

end Sys2Proof.Machine
end

section
/-! # The CRC16 unit: its algebra, its alternative forms, its residue, and the errors it detects (`41_crc16.md`) -/

namespace Sys2Proof.Machine

/-! ## The bit step -/

/-- What a bit step adds to the shifted state: the polynomial, or nothing (R122). -/
def feedback (f : Bool) : Word := if f then 0x1021 else 0

theorem feedback_xor (f g : Bool) : feedback (f ^^ g) = feedback f ^^^ feedback g := by
  cases f <;> cases g <;> decide

theorem crcBit_eq (c : Word) (d : Bool) : crcBit c d = (c <<< 1) ^^^ feedback (c.getLsbD 15 ^^ d) := by
  unfold crcBit feedback
  split
  · rfl
  · exact BitVec.xor_zero.symm

/-- The bit step is linear over GF(2) in the pair (R131). -/
theorem crcBit_xor (c d : Word) (a b : Bool) : crcBit (c ^^^ d) (a ^^ b) = crcBit c a ^^^ crcBit d b := by
  simp only [crcBit_eq, BitVec.getLsbD_xor, BitVec.shiftLeft_xor_distrib, feedback_xor]
  ac_rfl

/-- A data bit equal to the top bit of the state feeds nothing back. -/
theorem crcBit_msb (c : Word) : crcBit c (c.getLsbD 15) = c <<< 1 := by simp [crcBit]

theorem crcBit_zero_false : crcBit 0 false = 0 := by decide

theorem crcBit_getLsbD_zero (c : Word) (d : Bool) : (crcBit c d).getLsbD 0 = (c.getLsbD 15 ^^ d) := by
  have hlow (f : Bool) : (feedback f).getLsbD 0 = f := by cases f <;> decide
  rw [crcBit_eq, BitVec.getLsbD_xor, hlow]
  simp

/-- The lowest bit of the result tells the feedback, hence the top bit of the state; the shift keeps the other bits. -/
theorem crcBit_injective (d : Bool) : Function.Injective fun c => crcBit c d := by
  intro c c' h
  have hmsb : c.getLsbD 15 = c'.getLsbD 15 := by
    have h0 := congrArg (·.getLsbD 0) h
    simpa only [crcBit_getLsbD_zero, Bool.xor_left_inj] using h0
  have hshift : c <<< 1 = c' <<< 1 := by
    simpa only [crcBit_eq, hmsb, BitVec.xor_left_inj] using h
  apply BitVec.eq_of_getElem_eq
  intro i hi
  obtain rfl | hi15 := Nat.eq_or_lt_of_le (Nat.le_of_lt_succ hi)
  · exact hmsb
  · simpa [show i + 1 < 16 by omega] using congrArg (·.getLsbD (i + 1)) hshift

/-! ## The byte step and the fold, as runs of the bit step -/

/-- The bits of a byte in the order of the byte step, most significant first (R123). -/
def byteBits (b : Byte) : List Bool :=
  [b.getLsbD 7, b.getLsbD 6, b.getLsbD 5, b.getLsbD 4, b.getLsbD 3, b.getLsbD 2, b.getLsbD 1, b.getLsbD 0]

theorem crcByte_eq_foldl (c : Word) (b : Byte) : crcByte c b = (byteBits b).foldl crcBit c := rfl

theorem crcFold_eq_foldl (c : Word) (s : List Byte) : crcFold c s = (s.flatMap byteBits).foldl crcBit c := by
  induction s generalizing c with
  | nil => rfl
  | cons b s ih => rw [crcFold, ih, crcByte_eq_foldl, List.flatMap_cons, List.foldl_append]

theorem foldl_crcBit_injective (ds : List Bool) : Function.Injective fun c => ds.foldl crcBit c := by
  induction ds with
  | nil => exact fun _ _ h => h
  | cons d ds ih => exact ih.comp (crcBit_injective d)

theorem crcByte_injective (b : Byte) : Function.Injective fun c => crcByte c b :=
  foldl_crcBit_injective (byteBits b)

theorem crcFold_injective (s : List Byte) : Function.Injective fun c => crcFold c s := by
  simpa only [crcFold_eq_foldl] using foldl_crcBit_injective (s.flatMap byteBits)

theorem crcByte_xor (c d : Word) (a b : Byte) : crcByte (c ^^^ d) (a ^^^ b) = crcByte c a ^^^ crcByte d b := by
  simp only [crcByte, BitVec.getLsbD_xor, crcBit_xor]

theorem crcFold_xor (c d : Word) {s t : List Byte} (h : s.length = t.length) :
    crcFold (c ^^^ d) (s.zipWith (· ^^^ ·) t) = crcFold c s ^^^ crcFold d t := by
  induction s generalizing c d t with
  | nil => cases List.length_eq_zero_iff.mp h.symm; rfl
  | cons a s ih =>
    obtain ⟨b, t, rfl⟩ := List.exists_cons_of_length_eq_add_one h.symm
    simp only [List.zipWith_cons_cons, crcFold, crcByte_xor]
    exact ih _ _ (Nat.succ.inj h)

/-- Settles O4: the fold over the first part is the state the second starts from. -/
theorem crcIsIncremental : Obligations.CrcIsIncremental := by
  have hfold (c : Word) (s t : List Byte) : crcFold c (s ++ t) = crcFold (crcFold c s) t := by
    simp only [crcFold_eq_foldl, List.flatMap_append, List.foldl_append]
  exact ⟨hfold, hfold 0xFFFF⟩

/-! ## A byte equal to the high byte of the state shifts it out -/

theorem hiByte_getLsbD (c : Word) {i : Nat} (hi : i < 8) : (hiByte c).getLsbD i = c.getLsbD (8 + i) := by
  simp [hiByte, hi]

/-- None of the eight bit steps feeds anything back. -/
theorem crcByte_hiByte (c : Word) : crcByte c (hiByte c) = c <<< 8 := by
  have hstep (n : Nat) (hn : n < 8) : crcBit (c <<< n) ((hiByte c).getLsbD (7 - n)) = c <<< (n + 1) := by
    have hmsb : (hiByte c).getLsbD (7 - n) = (c <<< n).getLsbD 15 := by
      rw [hiByte_getLsbD c (by omega), BitVec.getLsbD_shiftLeft]
      simp [show ¬ 15 < n by omega, show 8 + (7 - n) = 15 - n by omega]
    rw [hmsb, crcBit_msb, BitVec.shiftLeft_add]
  have h0 := hstep 0 (by decide)
  rw [BitVec.shiftLeft_zero] at h0
  simp only [crcByte]
  rw [h0, hstep 1 (by decide), hstep 2 (by decide), hstep 3 (by decide), hstep 4 (by decide), hstep 5 (by decide),
    hstep 6 (by decide), hstep 7 (by decide)]

@[simp] theorem hiByte_append (x y : Byte) : hiByte (x ++ y) = x := BitVec.extractLsb'_append_eq_left

@[simp] theorem loByte_append (x y : Byte) : loByte (x ++ y) = y := BitVec.extractLsb'_append_eq_right

/-- The state is shifted by a byte, and what is fed back depends on its high byte and the data byte only through their
exclusive-or (R124, R125). -/
theorem crcByte_eq_shiftLeft_xor (c : Word) (b : Byte) : crcByte c b = (c <<< 8) ^^^ crcByte 0 (hiByte c ^^^ b) := by
  have h := crcByte_xor c 0 (hiByte c) (hiByte c ^^^ b)
  rwa [crcByte_hiByte, ← BitVec.xor_assoc, BitVec.xor_self, BitVec.zero_xor, show c ^^^ 0 = c from BitVec.xor_zero] at h

/-! ## The alternative forms of the byte step -/

/-- A form that splits in the same way is the byte step once it is so on the state zero. -/
theorem eq_crcByte_of_shiftLeft_xor {f : Word → Byte → Word} (hf : ∀ c b, f c b = (c <<< 8) ^^^ f 0 (hiByte c ^^^ b))
    (h0 : ∀ b, f 0 b = crcByte 0 b) (c : Word) (b : Byte) : f c b = crcByte c b := by
  rw [hf, h0, ← crcByte_eq_shiftLeft_xor]

@[simp] theorem hiByte_zero : hiByte 0#16 = 0#8 := by decide

theorem crcByteNibble_eq_shiftLeft_xor (c : Word) (b : Byte) :
    crcByteNibble c b = (c <<< 8) ^^^ crcByteNibble 0 (hiByte c ^^^ b) := by
  have hshift : (c.setWidth 20 <<< 8).setWidth 16 = c <<< 8 := by
    apply BitVec.eq_of_getLsbD_eq
    intro i hi
    simp [hi]
  simp [crcByteNibble, hshift, BitVec.xor_assoc]

/-- Settles O1: both forms split into the shifted state and what one byte feeds back, which agree on the 256 bytes. -/
theorem crcNibbleFormIsBitSerial : Obligations.CrcNibbleFormIsBitSerial :=
  eq_crcByte_of_shiftLeft_xor crcByteNibble_eq_shiftLeft_xor (by decide +kernel)

theorem crcByteParallel_eq_shiftLeft_xor (c : Word) (b : Byte) :
    crcByteParallel c b = (c <<< 8) ^^^ crcByteParallel 0 (hiByte c ^^^ b) := by
  apply BitVec.eq_of_getElem_eq
  intro i hi
  interval_cases i <;> simp [crcByteParallel, ← BitVec.getLsbD_eq_getElem, BitVec.getLsbD_ofBoolListBE]

/-- Settles O2: the sixteen equations split in the same way. -/
theorem crcParallelFormIsBitSerial : Obligations.CrcParallelFormIsBitSerial :=
  eq_crcByte_of_shiftLeft_xor crcByteParallel_eq_shiftLeft_xor (by decide +kernel)

/-! ## The residue -/

theorem hiByte_shiftLeft (v : Word) : hiByte (v <<< 8) = loByte v := by
  apply BitVec.eq_of_getElem_eq
  intro i hi
  simp [hiByte, loByte, ← BitVec.getLsbD_eq_getElem, hi, show 8 + i < 16 by omega]

/-- The two bytes of the state, high byte first, shift all of it out. -/
theorem crcFold_hiByte_loByte (v : Word) : crcFold v [hiByte v, loByte v] = 0 := by
  simp only [crcFold]
  rw [crcByte_hiByte, ← hiByte_shiftLeft, crcByte_hiByte, ← BitVec.shiftLeft_add]
  exact BitVec.shiftLeft_eq_zero (by decide)

/-- No other two bytes do: the fold is injective in the state. -/
theorem crcFold_pair_eq_zero {v : Word} {x y : Byte} : crcFold v [x, y] = 0 ↔ x = hiByte v ∧ y = loByte v := by
  constructor
  · intro h
    have hxy := crcFold_hiByte_loByte (x ++ y)
    rw [hiByte_append, loByte_append] at hxy
    have hv : v = x ++ y := crcFold_injective [x, y] (h.trans hxy.symm)
    rw [hv, hiByte_append, loByte_append]
    exact ⟨rfl, rfl⟩
  · rintro ⟨rfl, rfl⟩
    exact crcFold_hiByte_loByte v

theorem le_of_terminatorIndex {B : List Byte} {i : Nat} (h : terminatorIndex B = some i) : i ≤ 61 := by
  unfold terminatorIndex at h
  split at h
  · cases h
  · have hmem := List.mem_range'_1.mp (List.mem_of_find?_eq_some h)
    omega

/-- Behind a first null at `i`, the comparison of decode decides (`42_record_codec.md` R155). -/
theorem decodeRecord_valid_iff {B : List Byte} {i : Nat} (h : terminatorIndex B = some i) :
    (∃ str, decodeRecord B = .valid str) ↔
      B[i + 1]? = some (hiByte (crc16 (B.take (i + 1)))) ∧ B[i + 2]? = some (loByte (crc16 (B.take (i + 1)))) := by
  simp only [decodeRecord, h]
  split <;> simp_all

/-- Settles O5: `crcFold_pair_eq_zero`, for the state after the sequence and for the two bytes behind the terminator. -/
theorem crcResidueIsZero : Obligations.CrcResidueIsZero := by
  obtain ⟨-, hsplit⟩ := crcIsIncremental
  refine ⟨fun s => (hsplit s _).trans (crcFold_hiByte_loByte _), fun B i hlen hi => ?_⟩
  have hle := le_of_terminatorIndex hi
  have hx : i + 1 < B.length := by omega
  have hy : i + 2 < B.length := by omega
  have htake : B.take (i + 3) = B.take (i + 1) ++ [B[i + 1], B[i + 2]] := by
    rw [← List.take_append_getElem hy, ← List.take_append_getElem hx, List.append_assoc]
    rfl
  rw [decodeRecord_valid_iff hi, htake, hsplit, crcFold_pair_eq_zero, List.getElem?_eq_getElem hx,
    List.getElem?_eq_getElem hy, Option.some_inj, Option.some_inj]

/-! ## Bijectivity and linearity -/

/-- A byte that leaves the state zero is zero: with a zero byte behind it, it is the high byte of that state. -/
theorem eq_zero_of_crcByte_zero {x : Byte} (h : crcByte 0 x = 0) : x = 0 := by
  have hfold : crcFold 0 [x, 0] = 0 := by
    rw [crcFold, h]
    decide
  exact (crcFold_pair_eq_zero.mp hfold).1

/-- Settles O3: injective on the finite type of states, and linear, so injective in the byte as well. -/
theorem crcByteIsBijectiveAndLinear : Obligations.CrcByteIsBijectiveAndLinear := by
  refine ⟨fun b => Finite.injective_iff_bijective.mp (crcByte_injective b), fun c a b h => ?_, crcByte_xor, by decide⟩
  have hdiff : crcByte (c ^^^ c) (a ^^^ b) = 0 := by
    rw [crcByte_xor, show crcByte c a = crcByte c b from h, BitVec.xor_self]
    rfl
  rw [BitVec.xor_self] at hdiff
  exact BitVec.xor_eq_zero_iff.mp (eq_zero_of_crcByte_zero hdiff)

/-! ## Errors in one and in two bits -/

/-- The bits in which two sequences of one length differ, in the order of the fold (R134). -/
def errorBits (s t : List Byte) : List Bool :=
  (s.zipWith (· ^^^ ·) t).flatMap byteBits

theorem length_byteBits (b : Byte) : (byteBits b).length = 8 := rfl

theorem length_errorBits (s t : List Byte) : (errorBits s t).length = 8 * min s.length t.length := by
  simp only [errorBits, List.length_flatMap, length_byteBits, List.map_const', List.sum_replicate_nat, List.length_zipWith]
  exact Nat.mul_comm _ _

theorem count_byteBits (b : Byte) : (byteBits b).count true = (List.range 8).countP fun i => b.getLsbD i := by
  have hbits : byteBits b = ((List.range 8).map b.getLsbD).reverse := rfl
  rw [hbits, List.count_reverse, List.count, List.countP_map]
  congr 1
  funext i
  simp

theorem count_errorBits (s t : List Byte) : (errorBits s t).count true = bitDistance s t := by
  rw [errorBits, List.count_flatMap, ← List.map_uncurry_zip_eq_zipWith, List.map_map]
  simp only [bitDistance, Function.comp_def, count_byteBits, Function.uncurry_def]

/-- By linearity the difference of two CRCs is the fold of the error bits from the state zero. -/
theorem crc16_xor {s t : List Byte} (h : s.length = t.length) :
    crc16 s ^^^ crc16 t = (errorBits s t).foldl crcBit 0 := by
  rw [errorBits, ← crcFold_eq_foldl, crc16, crc16, ← crcFold_xor _ _ h, BitVec.xor_self]
  rfl

/-- No error bit brings a state to zero that is not. -/
theorem foldl_crcBit_ne_zero_of_count_zero {ds : List Bool} (h : ds.count true = 0) {c : Word} (hc : c ≠ 0) :
    ds.foldl crcBit c ≠ 0 := by
  induction ds generalizing c with
  | nil => exact hc
  | cons d ds ih =>
    cases d with
    | true => simp at h
    | false =>
      exact ih (by simpa using h) fun h0 => hc (crcBit_injective false (h0.trans crcBit_zero_false.symm))

/-- One error bit does so only where it meets the state 0x8000, whose top bit it cancels. -/
theorem foldl_crcBit_ne_zero_of_count_one {ds : List Bool} (h : ds.count true = 1) {n : Nat} (hn : ds.length ≤ n) {c : Word}
    (hc : (0x8000 : Word) ∉ List.iterate (crcBit · false) c n) : ds.foldl crcBit c ≠ 0 := by
  induction ds generalizing c n with
  | nil => simp at h
  | cons d ds ih =>
    obtain ⟨n, rfl⟩ := Nat.exists_eq_succ_of_ne_zero (n := n) (by rintro rfl; cases hn)
    obtain ⟨hne, htail⟩ := not_or.mp (List.mem_cons.not.mp hc)
    cases d with
    | false => exact ih (by simpa using h) (Nat.le_of_succ_le_succ hn) htail
    | true =>
      refine foldl_crcBit_ne_zero_of_count_zero (ds := ds) (by simpa using h) fun h0 => hne ?_
      exact (crcBit_injective true (h0.trans (by decide : (0 : Word) = crcBit 0x8000 true))).symm

/-- The syndrome of one error bit does not come to 0x8000 within a slot's 512 bits. -/
theorem syndrome_not_mem_iterate : (0x8000 : Word) ∉ List.iterate (crcBit · false) 0x1021 512 := by
  decide +kernel

theorem foldl_crcBit_ne_zero_of_count_le_two {ds : List Bool} (h : ds.count true = 1 ∨ ds.count true = 2)
    (hlen : ds.length ≤ 512) : ds.foldl crcBit 0 ≠ 0 := by
  induction ds with
  | nil => simp at h
  | cons d ds ih =>
    have hds : ds.length ≤ 512 := (Nat.le_succ _).trans hlen
    cases d with
    | false =>
      rw [List.foldl_cons, crcBit_zero_false]
      exact ih (by simpa using h) hds
    | true =>
      have hfirst : crcBit 0 true = 0x1021 := by decide
      rw [List.foldl_cons, hfirst]
      obtain h1 | h2 := h
      · exact foldl_crcBit_ne_zero_of_count_zero (by simpa using h1) (by decide)
      · exact foldl_crcBit_ne_zero_of_count_one (by simpa using h2) hds syndrome_not_mem_iterate

/-- Settles O6: by `crc16_xor` equal CRCs would fold one or two error bits from the state zero back to it. -/
theorem crcSeparatesOneAndTwoBitErrors : Obligations.CrcSeparatesOneAndTwoBitErrors := by
  intro s t hlen hle hdist heq
  have hzero : (errorBits s t).foldl crcBit 0 = 0 := by
    rw [← crc16_xor hlen, heq, BitVec.xor_self]
    rfl
  refine foldl_crcBit_ne_zero_of_count_le_two ?_ ?_ hzero
  · rwa [count_errorBits]
  · rw [length_errorBits]; omega

/-! ## The commands -/

/-- Settles O24: `exec_crcinit`, and `exec_crcread` of the state it answers. -/
theorem crcinitCompletes : Obligations.CrcinitCompletes :=
  ⟨rfl, fun _ h => ⟨_, _, exec_crcinit h, rfl, exec_crcread (s := State.withCrc _ _ _) h, rfl⟩⟩

/-- Settles O25: `exec_crcbyte`. -/
theorem crcbyteCompletes : Obligations.CrcbyteCompletes :=
  ⟨fun _ => rfl, fun _ b h => exec_crcbyte b h, by decide⟩

/-- Settles O26: `exec_crcread`, and R130's check value. -/
theorem crcreadCompletes : Obligations.CrcreadCompletes :=
  ⟨rfl, fun _ h => exec_crcread h, fun _ => rfl, by decide +kernel⟩

end Sys2Proof.Machine
end

section
/-! # The record codec: what decode answers by the first null of a slot, the round trip, and what the CRC catches
(`42_record_codec.md`) -/

namespace Sys2Proof.Machine

variable {B B' m tail : List Byte} {i : Nat}

/-! ## The terminator -/

/-- The first two tests of R155 find an index exactly when the first null of the slot stands there, at 1 to 61. -/
theorem terminatorIndex_eq_some_iff :
    terminatorIndex B = some i ↔ 1 ≤ i ∧ i ≤ 61 ∧ B[i]? = some 0x00 ∧ ∀ j < i, B[j]? ≠ some 0x00 := by
  unfold terminatorIndex
  split_ifs with h0
  · constructor
    · intro h
      cases h
    · rintro ⟨hi, -, -, hfirst⟩
      exact absurd h0 (hfirst 0 hi)
  · simp only [List.find?_range'_eq_some, List.mem_range'_1, decide_eq_true_eq, Bool.not_eq_true', decide_eq_false_iff_not]
    constructor
    · rintro ⟨hnull, ⟨hi, hle⟩, hfirst⟩
      refine ⟨hi, by omega, hnull, fun j hj => ?_⟩
      obtain rfl | hpos := Nat.eq_zero_or_pos j
      · exact h0
      · exact hfirst j hpos hj
    · rintro ⟨hi, hle, hnull, hfirst⟩
      exact ⟨hnull, ⟨hi, by omega⟩, fun j _ hj => hfirst j hj⟩

/-- They find none exactly when the slot begins with a null or has none in its first 62 bytes. -/
theorem terminatorIndex_eq_none_iff :
    terminatorIndex B = none ↔ B[0]? = some 0x00 ∨ ∀ j ≤ 61, B[j]? ≠ some 0x00 := by
  unfold terminatorIndex
  split_ifs with h0
  · exact ⟨fun _ => .inl h0, fun _ => rfl⟩
  · simp only [List.find?_range'_eq_none, Bool.not_eq_true', decide_eq_false_iff_not, h0, false_or]
    constructor
    · intro h j hj
      obtain rfl | hpos := Nat.eq_zero_or_pos j
      · exact h0
      · exact h j hpos (by omega)
    · intro h j _ hj
      exact h j (by omega)

/-! ## Decode, by the terminator -/

theorem decodeRecord_of_none (h : terminatorIndex B = none) : decodeRecord B = .invalid := by
  rw [decodeRecord, h]

theorem decodeCrc_of_none (h : terminatorIndex B = none) (old : Word) : decodeCrc B old = old := by
  rw [decodeCrc, h]

theorem decodeRecord_of_some (h : terminatorIndex B = some i) :
    decodeRecord B = if B[i + 1]? = some (hiByte (crc16 (B.take (i + 1)))) ∧ B[i + 2]? = some (loByte (crc16 (B.take (i + 1))))
      then .valid (B.take i) else .invalid := by
  rw [decodeRecord, h]

theorem decodeCrc_of_some (h : terminatorIndex B = some i) (old : Word) : decodeCrc B old = crc16 (B.take (i + 1)) := by
  rw [decodeCrc, h]

theorem decodeRecord_eq_valid_iff {str : List Byte} :
    decodeRecord B = .valid str ↔ ∃ i, terminatorIndex B = some i ∧ str = B.take i ∧
      B[i + 1]? = some (hiByte (crc16 (B.take (i + 1)))) ∧ B[i + 2]? = some (loByte (crc16 (B.take (i + 1)))) := by
  cases h : terminatorIndex B with
  | none => simp [decodeRecord_of_none h]
  | some i =>
    rw [decodeRecord_of_some h]
    split_ifs with hcrc
    · simp [hcrc, eq_comm]
    · simp [hcrc]

/-- Settles O10: `decodeRecord_eq_valid_iff`, with the terminator read as the first null. -/
theorem decodeFollowsItsRule : Obligations.DecodeFollowsItsRule := by
  refine fun B _ => ⟨fun str => ?_, fun i old h1 h61 hnull hfirst => ?_, fun old h => ?_⟩
  · simp only [decodeRecord_eq_valid_iff, terminatorIndex_eq_some_iff, and_assoc]
  · exact decodeCrc_of_some (terminatorIndex_eq_some_iff.mpr ⟨h1, h61, hnull, hfirst⟩) old
  · have hnone := terminatorIndex_eq_none_iff.mpr h
    exact ⟨decodeCrc_of_none hnone old, decodeRecord_of_none hnone⟩

/-! ## What decode depends on -/

theorem getElem?_eq_of_take_eq {n j : Nat} (h : B.take n = B'.take n) (hj : j < n) : B'[j]? = B[j]? := by
  rw [← List.getElem?_take_of_lt hj, ← h, List.getElem?_take_of_lt hj]

theorem terminatorIndex_of_take_eq (hi : terminatorIndex B = some i) (h : B.take (i + 1) = B'.take (i + 1)) :
    terminatorIndex B' = some i := by
  obtain ⟨h1, h61, hnull, hfirst⟩ := terminatorIndex_eq_some_iff.mp hi
  refine terminatorIndex_eq_some_iff.mpr ⟨h1, h61, ?_, fun j hj => ?_⟩
  · rwa [getElem?_eq_of_take_eq h i.lt_succ_self]
  · rw [getElem?_eq_of_take_eq h (by omega)]
    exact hfirst j hj

theorem terminatorIndex_none_of_take_eq (hB : terminatorIndex B = none) (h : B.take 62 = B'.take 62) :
    terminatorIndex B' = none := by
  refine terminatorIndex_eq_none_iff.mpr ((terminatorIndex_eq_none_iff.mp hB).imp (fun h0 => ?_) fun hno j hj => ?_)
  · rwa [getElem?_eq_of_take_eq h (by decide)]
  · rw [getElem?_eq_of_take_eq h (by omega)]
    exact hno j hj

/-- Slots without a terminator are all decoded alike. -/
theorem decode_eq_of_none (h : terminatorIndex B = none) (h' : terminatorIndex B' = none) :
    decodeRecord B' = decodeRecord B ∧ ∀ old, decodeCrc B' old = decodeCrc B old := by
  simp [decodeRecord_of_none, decodeCrc_of_none, h, h']

/-- Decode reads nothing behind the stored CRC. -/
theorem decode_eq_of_take_eq (hi : terminatorIndex B = some i) (h : B.take (i + 3) = B'.take (i + 3)) :
    decodeRecord B' = decodeRecord B ∧ ∀ old, decodeCrc B' old = decodeCrc B old := by
  have htake {n : Nat} (hn : n ≤ i + 3) : B.take n = B'.take n := by
    rw [← Nat.min_eq_left hn, ← List.take_take, h, List.take_take]
  have hi' := terminatorIndex_of_take_eq hi (htake (by omega))
  constructor
  · rw [decodeRecord_of_some hi, decodeRecord_of_some hi', htake (n := i) (by omega), htake (n := i + 1) (by omega),
      getElem?_eq_of_take_eq h (by omega), getElem?_eq_of_take_eq h (by omega)]
  · intro old
    rw [decodeCrc_of_some hi, decodeCrc_of_some hi', htake (by omega)]

/-- Settles O11: by the terminator, `decode_eq_of_take_eq` or `decode_eq_of_none`. -/
theorem decodeIgnoresTheRest : Obligations.DecodeIgnoresTheRest := by
  refine fun B B' _ _ => ⟨fun i hi h => decode_eq_of_take_eq hi h, fun hB h => ?_, fun h0 h0' => ?_⟩
  · exact decode_eq_of_none hB (terminatorIndex_none_of_take_eq hB h)
  · exact decode_eq_of_none (terminatorIndex_eq_none_iff.mpr (.inl h0)) (terminatorIndex_eq_none_iff.mpr (.inl h0'))

/-! ## Encode, and the way back -/

theorem encodeRecord_of_ne_nil (hm : m ≠ []) : encodeRecord m = some (record (m.take 61)) :=
  if_neg (List.length_eq_zero_iff.not.mpr hm)

theorem record_eq (m : List Byte) :
    record m = m ++ [0x00, hiByte (crc16 (m ++ [0x00])), loByte (crc16 (m ++ [0x00]))] := by
  simp [record]

/-- Settles O7: `record_eq` for the first 61 bytes. -/
theorem encodeMakesRecord : Obligations.EncodeMakesRecord := by
  refine ⟨rfl, fun m hm => ⟨_, _, encodeRecord_of_ne_nil hm, rfl, record_eq _, record_length _, ?_⟩⟩
  rw [record_length, List.length_take]
  omega

/-- No byte of a message is a null (`30_encoding.md` R96). -/
theorem getElem?_ne_zero_of_isMessage (hm : isMessage m = true) (j : Nat) : m[j]? ≠ some 0x00 := fun h =>
  of_decide_eq_true (List.all_eq_true.mp hm _ (List.mem_of_getElem? h)) rfl

theorem terminatorIndex_message (hm : isMessage m = true) (h1 : 1 ≤ m.length) (h61 : m.length ≤ 61) :
    terminatorIndex (m ++ 0x00 :: tail) = some m.length := by
  refine terminatorIndex_eq_some_iff.mpr ⟨h1, h61, by simp, fun j hj => ?_⟩
  rw [List.getElem?_append_left hj]
  exact getElem?_ne_zero_of_isMessage hm j

theorem decodeRecord_record_append (hm : isMessage m = true) (h1 : 1 ≤ m.length) (h61 : m.length ≤ 61) (tail : List Byte) :
    decodeRecord (record m ++ tail) = .valid m := by
  rw [record_eq, List.append_assoc]
  refine decodeRecord_eq_valid_iff.mpr ⟨m.length, terminatorIndex_message hm h1 h61, List.take_left.symm, ?_⟩
  rw [List.take_length_add_append]
  simp

/-- Settles O8: `decodeRecord_record_append`; a message of at most 61 bytes is its own payload. -/
theorem recordRoundTrip : Obligations.RecordRoundTrip := by
  intro m hm h1 h61
  have hne : m ≠ [] := List.length_pos_iff.mp h1
  refine ⟨record m, ?_, fun tail _ => decodeRecord_record_append hm h1 h61 tail⟩
  rw [encodeRecord_of_ne_nil hne, List.take_of_length_le h61]

/-- Settles O9: the round trip of the first 61 bytes, whose record is that of the whole message. -/
theorem recordTruncation : Obligations.RecordTruncation := by
  intro m hm h61
  have hlen : (m.take 61).length = 61 := List.length_take_of_le h61.le
  have hpayload : isMessage (m.take 61) = true :=
    List.all_eq_true.mpr fun b hb => List.all_eq_true.mp hm b (List.mem_of_mem_take hb)
  have hback := decodeRecord_record_append hpayload (by omega) hlen.le []
  rw [List.append_nil] at hback
  refine ⟨_, encodeRecord_of_ne_nil (List.ne_nil_of_length_pos (by omega)), hback, ?_⟩
  rw [encodeRecord_of_ne_nil (List.ne_nil_of_length_pos (by omega)), List.take_take, Nat.min_self]

/-! ## What the CRC catches -/

/-- Settles O12: both slots Valid would have CRC zero up to the stored CRC (R133), which one or two flipped bits exclude
(R134). -/
theorem flippedRecordBitsAreDetected : Obligations.FlippedRecordBitsAreDetected := by
  intro B B' i str hB hB' hi hi' hvalid hdist
  obtain ⟨-, hresidue⟩ := crcResidueIsZero
  have hle := le_of_terminatorIndex hi
  have hzero : crc16 (B.take (i + 3)) = 0 := (hresidue B i hB hi).mp ⟨str, hvalid⟩
  have hne : crc16 (B.take (i + 3)) ≠ crc16 (B'.take (i + 3)) :=
    crcSeparatesOneAndTwoBitErrors _ _ (by simp [hB, hB']) (by simp; omega) hdist
  cases h : decodeRecord B' with
  | invalid => rfl
  | valid str' => exact absurd (hzero.trans ((hresidue B' i hB' hi').mp ⟨str', h⟩).symm) hne

end Sys2Proof.Machine
end

section
/-! # The invariant of the engine: every step keeps it (`43_log_fsm.md` R193) -/

namespace Sys2Proof.Machine

variable {s t : State} {a : Answer}

/-! ## The buffer behind a run of bytes put into it -/

theorem Buf.toList_take_put (b : Buf) {i : Nat} {vs : List Byte} (h : i + vs.length ≤ 64) :
    (Buf.put b i vs).toList.take (i + vs.length) = b.toList.take i ++ vs := by
  have hi : (b.toList.take i).length = i := by simp; omega
  apply List.ext_getElem?
  intro j
  rw [List.getElem?_take, List.getElem?_append, hi, Vector.getElem?_toList, Buf.getElem?_put, List.getElem?_take,
    Vector.getElem?_toList]
  by_cases hj : j < i
  · simp [hj, show j < i + vs.length by omega, show ¬ i ≤ j by omega]
  · by_cases hv : j < i + vs.length
    · simp [hj, hv, show i ≤ j by omega, show j < 64 by omega]
    · simp [hj, hv, show vs.length ≤ j - i by omega]

theorem Buf.toList_take_put_zero (b : Buf) {vs : List Byte} (h : vs.length ≤ 64) :
    (Buf.put b 0 vs).toList.take vs.length = vs := by
  simpa using Buf.toList_take_put b (i := 0) (vs := vs) (by omega)

/-- The bytes before the offset stay. -/
theorem Buf.toList_take_put_before (b : Buf) (i : Nat) (vs : List Byte) :
    (Buf.put b i vs).toList.take i = b.toList.take i := by
  refine take_toList_eq_iff.mpr fun j hj => ?_
  rw [Buf.getElem?_put, if_neg (by omega)]

/-! ## The part of the invariant that every phase shares -/

/-- The clauses of the invariant that do not depend on the phase. -/
abbrev State.baseInv (s : State) : Prop :=
  s.config.wf ∧ s.inRange ∧ s.storeWf ∧ s.out.all Rsp.wellFormed = true

theorem State.Inv.base (h : s.Inv) : s.baseInv :=
  have ⟨hconfig, hrange, hstore, hout, _⟩ := h
  ⟨hconfig, hrange, hstore, hout⟩

theorem inv_of_aErase (h : s.phase = .aErase) : s.Inv ↔ s.baseInv ∧ s.aEraseWf := by
  simp only [State.Inv, State.baseInv, h, reduceCtorEq, false_implies, true_implies, and_true, and_assoc]

theorem inv_of_aWrite (h : s.phase = .aWrite) : s.Inv ↔ s.baseInv ∧ s.aWriteWf := by
  simp only [State.Inv, State.baseInv, h, reduceCtorEq, false_implies, true_implies, and_true, true_and, and_assoc]

theorem inv_of_read (h : s.phase = .rRead ∨ s.phase = .vRead) : s.Inv ↔ s.baseInv ∧ s.readWf := by
  obtain h | h := h <;>
    simp only [State.Inv, State.baseInv, h, reduceCtorEq, false_implies, true_implies, and_true, true_and, and_assoc]

theorem inv_of_eWrite (h : s.phase = .eWrite) : s.Inv ↔ s.baseInv ∧ s.eWriteWf := by
  simp only [State.Inv, State.baseInv, h, reduceCtorEq, false_implies, true_implies, true_and, and_assoc]

theorem out_wellFormed_append {out : List Rsp} {f : Rsp} (h : out.all Rsp.wellFormed = true) (hf : f.wellFormed = true) :
    (out ++ [f]).all Rsp.wellFormed = true := by
  simp [h, hf]

theorem inv_emit_idle {f : Rsp} (h : s.baseInv) (hf : f.wellFormed = true) (hp : s.phase = .idle) : (emit f s).Inv :=
  have ⟨hconfig, hrange, hstore, hout⟩ := h
  (inv_of_idle (s := emit f s) hp).mpr ⟨hconfig, hrange, hstore, out_wellFormed_append hout hf⟩

/-- A command may end in any state, whatever its phase. -/
theorem raise_inv (e : Status) (h : s.baseInv) : (raise e s).Inv :=
  inv_emit_idle (s := { s with phase := .idle }) h rfl rfl

theorem finish_inv (h : s.baseInv) : (finish s).Inv :=
  raise_inv .ok h

/-! ## The accept step -/

/-- The record stands in `BUF` once it is encoded in place (`42_record_codec.md` R151). -/
theorem startRecord_buf_take (h : s.len ≤ 61) :
    (startRecord s).buf.toList.take s.len = s.buf.toList.take s.len ∧
      (startRecord s).buf.toList.take (s.len + 3) = record (s.buf.toList.take s.len) := by
  rw [startRecord_buf, encodeInPlace_buf, encodeInPlace_crc]
  refine ⟨Buf.toList_take_put_before _ _ _, ?_⟩
  rw [record_eq]
  exact Buf.toList_take_put s.buf (vs := [0x00, _, _]) (by simp; omega)

theorem startRecord_inv (h : s.baseInv) (hp : s.payloadLoaded) (hn : s.nwi < s.config.maxEntries) :
    (startRecord s).Inv := by
  have ⟨hconfig, ⟨hnwi, hsi, _, hlen⟩, hstore, hout⟩ := h
  obtain ⟨htake, hrec⟩ := startRecord_buf_take hp.2.1
  refine (inv_of_aWrite rfl).mpr ⟨⟨hconfig, ⟨hnwi, hsi, Nat.zero_le _, hlen⟩, hstore, hout⟩, hn, Nat.succ_pos _,
    ?_, ?_, ?_, ?_⟩
  · rwa [State.payloadLoaded, startRecord_len, htake]
  · rwa [startRecord_len, htake]
  · rw [startRecord_len, htake, startRecord_crc, encodeInPlace_crc]
  · exact fun j hj => absurd hj j.not_lt_zero

theorem isMessage_take {m : List Byte} (h : isMessage m = true) (n : Nat) : isMessage (m.take n) = true :=
  List.all_eq_true.mpr fun b hb => List.all_eq_true.mp h b (List.mem_of_mem_take hb)

theorem loadMessage_payloadLoaded {m : List Byte} (hm : isMessage m = true) (hne : m ≠ []) :
    (loadMessage m s).payloadLoaded := by
  have hlen := List.length_pos_iff.mpr hne
  have h61 := payload_length m
  refine ⟨by rw [loadMessage_len]; omega, by rw [loadMessage_len]; omega, ?_⟩
  rw [loadMessage_buf, loadMessage_len, Buf.toList_take_put_zero _ (by omega)]
  exact isMessage_take hm 61

theorem loadMessage_baseInv (m : List Byte) (h : s.baseInv) : (loadMessage m s).baseInv := by
  have ⟨hconfig, ⟨hnwi, hsi, hbc, _⟩, hstore, hout⟩ := h
  have h61 := payload_length m
  exact ⟨hconfig, ⟨hnwi, hsi, hbc, by rw [loadMessage_len]; omega⟩, hstore, hout⟩

theorem acceptEffect_append_inv {m : List Byte} (hm : isMessage m = true) (h : s.baseInv) :
    (acceptEffect (.instr (.append m)) s).Inv := by
  simp only [acceptEffect]
  split_ifs with hnil hfull
  · exact raise_inv _ h
  · have hne : m ≠ [] := fun h => hnil (by rw [h, List.length_nil])
    have ⟨hconfig, ⟨hnwi, _, hbc, hlen⟩, hstore, hout⟩ := loadMessage_baseInv m h
    have hmax := hconfig.1
    refine (inv_of_aErase rfl).mpr ⟨⟨hconfig, ⟨hnwi, Nat.zero_le _, hbc, hlen⟩, hstore, hout⟩, ?_, hmax,
      loadMessage_payloadLoaded hm hne, fun k hk => absurd hk k.not_lt_zero⟩
    exact le_antisymm hnwi hfull
  · have hne : m ≠ [] := fun h => hnil (by rw [h, List.length_nil])
    exact startRecord_inv (loadMessage_baseInv m h) (loadMessage_payloadLoaded hm hne) (not_le.mp hfull)

/-- A scan that begins: nothing has been read yet. -/
theorem inv_of_scanStart (h : s.baseInv) (hp : s.phase = .rRead ∨ s.phase = .vRead) (hsi : s.si = 0) (hbc : s.bc = 0) :
    s.Inv := by
  have hmax := h.1.1
  exact (inv_of_read hp).mpr ⟨h, by omega, by omega, fun k hk => absurd hk (by omega), fun j hj => absurd hj (by omega)⟩

/-- The accept step of a command that a frame carries (`30_encoding.md` R94). -/
theorem acceptEffect_inv {c : Cmd} (hc : c.framed) (h : s.Inv) (hp : s.phase = .idle) : (acceptEffect c s).Inv := by
  have hbase := h.base
  have ⟨hconfig, ⟨hnwi, _, hbc, hlen⟩, hstore, hout⟩ := hbase
  have hmax := hconfig.1
  cases c with
  | illegal op => exact raise_inv _ hbase
  | instr i =>
    cases i with
    | append m => exact acceptEffect_append_inv hc hbase
    | nop | crcinit | crcbyte _ => exact finish_inv hbase
    | getidx | crcread => exact finish_inv (inv_emit_idle hbase rfl hp).base
    | readall => exact inv_of_scanStart ⟨hconfig, ⟨hnwi, Nat.zero_le _, Nat.zero_le _, hlen⟩, hstore, hout⟩ (.inl rfl) rfl rfl
    | recover => exact inv_of_scanStart ⟨hconfig, ⟨hnwi, Nat.zero_le _, Nat.zero_le _, hlen⟩, hstore, hout⟩ (.inr rfl) rfl rfl
    | eraseall =>
      exact (inv_of_eWrite rfl).mpr ⟨⟨hconfig, ⟨hnwi, Nat.zero_le _, hbc, hlen⟩, hstore, hout⟩, hmax,
        fun k hk => absurd hk k.not_lt_zero⟩

/-! ## Slots of the store -/

theorem slotAddr_inj {k k' j j' : Nat} (hj : j < 64) (hj' : j' < 64) :
    slotAddr k j = slotAddr k' j' ↔ k = k' ∧ j = j' := by
  unfold slotAddr
  omega

@[simp] theorem slotBytes_length (m : Memory) (k : Nat) : (slotBytes m k).length = 64 := by
  simp [slotBytes]

theorem slotBytes_getElem? (m : Memory) (k : Nat) {j : Nat} (hj : j < 64) :
    (slotBytes m k)[j]? = some (Memory.read m (slotAddr k j)) := by
  simp [slotBytes, hj]

/-- The buffer that holds all bytes of a slot. -/
theorem toList_eq_slotBytes {b : Buf} {m : Memory} {k : Nat}
    (h : ∀ j < 64, b[j]? = some (Memory.read m (slotAddr k j))) : b.toList = slotBytes m k := by
  apply List.ext_getElem?
  intro j
  by_cases hj : j < 64
  · rw [Vector.getElem?_toList, h j hj, slotBytes_getElem? m k hj]
  · rw [List.getElem?_eq_none (by simpa using hj), List.getElem?_eq_none (by simpa using hj)]

theorem slotString_eq_some_iff {m : Memory} {k : Nat} {str : List Byte} :
    slotString m k = some str ↔ decodeRecord (slotBytes m k) = .valid str := by
  unfold slotString
  split <;> simp [*]

theorem slotString_eq_none_iff {m : Memory} {k : Nat} :
    slotString m k = none ↔ decodeRecord (slotBytes m k) = .invalid := by
  unfold slotString
  split <;> simp [*]

theorem validSlot_of_decode {m : Memory} {k : Nat} {str : List Byte} (h : decodeRecord (slotBytes m k) = .valid str) :
    validSlot m k := by
  rw [validSlot, slotString_eq_some_iff.mpr h, Option.isSome_some]

/-- What decode answers is a string of 1 to 61 bytes without a null (`30_encoding.md` R101). -/
theorem wellFormed_of_decode {B str : List Byte} (hB : B.length = 64) (h : decodeRecord B = .valid str) :
    (Rsp.str str).wellFormed = true := by
  obtain ⟨i, hi, rfl, -⟩ := decodeRecord_eq_valid_iff.mp h
  obtain ⟨h1, h61, -, hfirst⟩ := terminatorIndex_eq_some_iff.mp hi
  have hlen : (B.take i).length = i := by rw [List.length_take]; omega
  have hmsg : isMessage (B.take i) = true := by
    refine List.all_eq_true.mpr fun b hb => decide_eq_true ?_
    rintro rfl
    obtain ⟨j, hj, hbj⟩ := List.getElem_of_mem hb
    exact hfirst j (by omega) (by rw [List.getElem_take] at hbj; rw [← hbj, List.getElem?_eq_getElem])
  simp [Rsp.wellFormed, hlen, hmsg, h1, h61]

/-- Erasing slot `i` keeps the erased ones erased, and erases one more (`43_log_fsm.md` R195 a). -/
theorem erasedSlot_write {m : Memory} {i k : Nat} (hwf : m.wf = true) (h : k ≠ i → erasedSlot m k) :
    erasedSlot (m.write (slotAddr i 0) 0x00) k := by
  rw [erasedSlot, Memory.read_write _ _ _ hwf]
  split_ifs with he
  · rfl
  · exact h fun hk => he (by rw [hk])

/-! ## The rows of the step table -/

theorem write_baseInv {addr : Nat} (v : Byte) (h : s.baseInv) (ha : addr < s.config.storeSize) :
    State.baseInv { s with store := Memory.write s.store addr v } :=
  have ⟨hconfig, hrange, ⟨hwf, hall⟩, hout⟩ := h
  ⟨hconfig, hrange, ⟨Memory.wf_write addr v hwf, Memory.all_below_write v hall ha⟩, hout⟩

/-- A write keeps the invariant if what follows its success does: the error entry needs nothing of the phase. -/
theorem writeTransaction_inv {addr : Nat} {v : Byte} {k : State → State} (h : s.Inv)
    (hw : writeTransaction addr v a k s = .next t)
    (hk : State.baseInv { s with store := Memory.write s.store addr v } →
      (k { s with store := Memory.write s.store addr v }).Inv) : t.Inv := by
  obtain ⟨haddr, ⟨-, rfl⟩ | ⟨l, -, rfl⟩ | ⟨-, rfl⟩⟩ := writeTransaction_next hw
  · exact hk (write_baseInv v h.base haddr)
  · exact raise_inv _ (write_baseInv l h.base haddr)
  · exact h

/-- The first `si + 1` slots are erased once slot `si` is. -/
theorem erasedBelow_write (h : s.Inv) (hprev : ∀ k < s.si, erasedSlot s.store k) :
    ∀ k < s.si + 1, erasedSlot (Memory.write s.store (slotAddr s.si 0) 0x00) k := by
  obtain ⟨-, -, ⟨hwf, -⟩, -⟩ := h.base
  exact fun k hk => erasedSlot_write hwf fun hne => hprev k (by omega)

theorem stepAErase_inv (h : s.Inv) (hp : s.phase = .aErase) (hs : stepAErase a s = .next t) : t.Inv := by
  obtain ⟨-, hnwi, hsi, hload, hprev⟩ := (inv_of_aErase hp).mp h
  refine writeTransaction_inv h hs fun hbase => ?_
  have ⟨hconfig, ⟨_, _, hbc, hlen⟩, hstore, hout⟩ := hbase
  dsimp only
  split_ifs with hnext
  · exact (inv_of_aErase (by exact hp)).mpr ⟨⟨hconfig, ⟨hnwi.le, hsi, hbc, hlen⟩, hstore, hout⟩, hnwi, hnext, hload,
      erasedBelow_write h hprev⟩
  · exact startRecord_inv ⟨hconfig, ⟨Nat.zero_le _, le_refl _, hbc, hlen⟩, hstore, hout⟩ hload hconfig.1

theorem stepEWrite_inv (h : s.Inv) (hp : s.phase = .eWrite) (hs : stepEWrite a s = .next t) : t.Inv := by
  obtain ⟨-, hsi, hprev⟩ := (inv_of_eWrite hp).mp h
  refine writeTransaction_inv h hs fun hbase => ?_
  have ⟨hconfig, ⟨hnwi, _, hbc, hlen⟩, hstore, hout⟩ := hbase
  dsimp only
  split_ifs with hnext
  · exact (inv_of_eWrite (by exact hp)).mpr ⟨⟨hconfig, ⟨hnwi, hsi, hbc, hlen⟩, hstore, hout⟩, hnext,
      erasedBelow_write h hprev⟩
  · exact finish_inv ⟨hconfig, ⟨hnwi, le_refl _, hbc, hlen⟩, hstore, hout⟩

theorem stepAWrite_inv (h : s.Inv) (hp : s.phase = .aWrite) (hs : stepAWrite a s = .next t) : t.Inv := by
  obtain ⟨⟨-, -, ⟨hwf, -⟩, -⟩, haw⟩ := (inv_of_aWrite hp).mp h
  have hlt := bc_lt_of_aWriteWf haw
  obtain ⟨hnwi, hbc, hload, hrec, hcrc, hprev⟩ := haw
  obtain ⟨v, hv, hw⟩ := stepAWrite_next hs
  refine writeTransaction_inv h hw fun hbase => ?_
  have ⟨hconfig, ⟨hle, hsi, _, hlen⟩, hstore, hout⟩ := hbase
  dsimp only
  split_ifs with hnext
  · refine (inv_of_aWrite (by exact hp)).mpr ⟨⟨hconfig, ⟨hle, hsi, hlt, hlen⟩, hstore, hout⟩, hnwi, hnext, hload,
      hrec, hcrc, ?_⟩
    intro j hj
    dsimp only at hj ⊢
    rw [Memory.read_write _ _ _ hwf]
    split_ifs with he
    · rw [((slotAddr_inj (by omega) hlt).mp he).2, hv]
    · exact hprev j (lt_of_le_of_ne (by omega) fun hj => he (by rw [hj]))
  · exact finish_inv ⟨hconfig, ⟨hnwi, hsi, hlt, hlen⟩, hstore, hout⟩

/-- The byte read stands in `BUF` behind those read before (R184). -/
theorem readByte_mirrors (h : s.readWf) : ∀ j < s.bc + 1,
    (s.buf.setIfInBounds s.bc (Memory.read s.store (slotAddr s.si s.bc)))[j]? =
      some (Memory.read s.store (slotAddr s.si j)) := by
  obtain ⟨-, hbc, -, hprev⟩ := h
  intro j hj
  rw [Vector.getElem?_setIfInBounds]
  by_cases he : s.bc = j
  · simp [← he, hbc]
  · rw [if_neg he]
    exact hprev j (by omega)

/-- A slot read keeps the invariant if what follows a whole slot does. -/
theorem slotReadStep_inv {onSlot : Verdict → State → State} (h : s.Inv) (hp : s.phase = .rRead ∨ s.phase = .vRead)
    (hs : slotReadStep onSlot a s = .next t)
    (hon : ∀ u : State, u.Inv → u.phase = s.phase → (onSlot (decodeRecord (slotBytes u.store u.si)) u).Inv) : t.Inv := by
  obtain ⟨⟨hconfig, ⟨hnwi, hsi, -, hlen⟩, hstore, hout⟩, hread⟩ := (inv_of_read hp).mp h
  have hmirror := readByte_mirrors hread
  obtain ⟨hlt, hbc, hvalid, -⟩ := hread
  obtain ⟨-, -, ⟨-, rfl⟩ | ⟨-, rfl⟩ | ⟨-, b, hb, hcase⟩⟩ := slotReadStep_next hs
  · exact h
  · exact raise_inv _ h.base
  rw [← hb] at hmirror
  obtain ⟨hnext, rfl⟩ | ⟨hlast, rfl⟩ := hcase
  · exact (inv_of_read (by exact hp)).mpr ⟨⟨hconfig, ⟨hnwi, hsi, hnext.le, hlen⟩, hstore, hout⟩, hlt, hnext, hvalid,
      hmirror⟩
  · have hslot := toList_eq_slotBytes (k := s.si) fun j hj => hmirror j (by omega)
    have hu : State.Inv { s with buf := b, crc := decodeCrc b.toList s.crc } :=
      (inv_of_read (by exact hp)).mpr ⟨⟨hconfig, ⟨hnwi, hsi, hbc.le, hlen⟩, hstore, hout⟩, hlt, hbc, hvalid,
        fun j hj => hmirror j (Nat.lt_succ_of_lt hj)⟩
    rw [hslot] at hu ⊢
    exact (hon _ hu rfl :)

/-- The slots below `si + 1` are valid once slot `si` is. -/
theorem validBelow_succ {m : Memory} {i : Nat} {str : List Byte} (h : ∀ k < i, validSlot m k)
    (hi : decodeRecord (slotBytes m i) = .valid str) : ∀ k < i + 1, validSlot m k := by
  intro k hk
  obtain hk | rfl := Nat.lt_succ_iff_lt_or_eq.mp hk
  · exact h k hk
  · exact validSlot_of_decode hi

/-- Going on to the next slot, with nothing read of it yet. -/
theorem nextSlot_inv {str : List Byte} {out : List Rsp} (h : s.Inv) (hp : s.phase = .rRead ∨ s.phase = .vRead)
    (hi : decodeRecord (slotBytes s.store s.si) = .valid str) (hnext : s.si + 1 < s.config.maxEntries)
    (hout : out.all Rsp.wellFormed = true) : State.Inv { s with si := s.si + 1, bc := 0, out := out } := by
  obtain ⟨⟨hconfig, ⟨hnwi, -, -, hlen⟩, hstore, -⟩, -, -, hvalid, -⟩ := (inv_of_read hp).mp h
  exact (inv_of_read (by exact hp)).mpr
    ⟨⟨hconfig, ⟨hnwi, hnext.le, Nat.zero_le _, hlen⟩, hstore, hout⟩, hnext, Nat.succ_pos _, validBelow_succ hvalid hi,
      fun j hj => absurd hj j.not_lt_zero⟩

theorem readallSlot_inv (h : s.Inv) (hp : s.phase = .rRead) :
    (readallSlot (decodeRecord (slotBytes s.store s.si)) s).Inv := by
  have ⟨hconfig, ⟨hnwi, _, hbc, hlen⟩, hstore, hout⟩ := h.base
  cases hd : decodeRecord (slotBytes s.store s.si) with
  | invalid => exact finish_inv h.base
  | valid str =>
    have hout' := out_wellFormed_append hout (wellFormed_of_decode (slotBytes_length _ _) hd)
    rw [readallSlot_valid]
    split_ifs with hnext
    · exact nextSlot_inv h (.inl hp) hd hnext hout'
    · exact finish_inv ⟨hconfig, ⟨hnwi, le_refl _, hbc, hlen⟩, hstore, hout'⟩

theorem recoverSlot_inv (h : s.Inv) (hp : s.phase = .vRead) :
    (recoverSlot (decodeRecord (slotBytes s.store s.si)) s).Inv := by
  have ⟨hconfig, ⟨hnwi, hsi, hbc, hlen⟩, hstore, hout⟩ := h.base
  cases hd : decodeRecord (slotBytes s.store s.si) with
  | invalid => exact finish_inv ⟨hconfig, ⟨hsi, hsi, hbc, hlen⟩, hstore, hout⟩
  | valid str =>
    dsimp only [recoverSlot]
    split_ifs with hnext
    · exact nextSlot_inv h (.inr hp) hd hnext hout
    · exact finish_inv ⟨hconfig, ⟨le_refl _, le_refl _, hbc, hlen⟩, hstore, hout⟩

theorem engineStep_inv (h : s.Inv) (hs : engineStep a s = .next t) : t.Inv := by
  unfold engineStep at hs
  cases hp : s.phase <;> simp only [hp] at hs
  case idle => cases hs; exact h
  case aErase => exact stepAErase_inv h hp hs
  case aWrite => exact stepAWrite_inv h hp hs
  case rRead => exact slotReadStep_inv h (.inl hp) hs fun u hinv hu => readallSlot_inv hinv (hu.trans hp)
  case eWrite => exact stepEWrite_inv h hp hs
  case vRead => exact slotReadStep_inv h (.inr hp) hs fun u hinv hu => recoverSlot_inv hinv (hu.trans hp)

/-! ## Every move -/

theorem engineTurn_inv (h : s.Inv) (hs : engineTurn a s = .next t) : t.Inv := by
  obtain he | ⟨-, hi, c, rest, hf, he⟩ | ⟨-, -, he⟩ := engineTurn_cases a s <;> rw [he] at hs
  · cases hs; exact h
  · cases hs
    exact acceptEffect_inv (s := { s with port := rest }) (framed_of_decodeFrame hf).1 h hi
  · exact engineStep_inv h hs

/-- The reset event keeps the store and the response stream, and sets every register within its range
(`70_reset_and_hazards.md` R260). -/
theorem resetEvent_inv (l : BitVec 6) (b : Buf) (h : s.Inv) : (resetEvent l b s).Inv := by
  have ⟨hconfig, _, hstore, hout⟩ := h.base
  have hbase : (resetEvent l b s).baseInv :=
    ⟨hconfig, ⟨Nat.zero_le _, Nat.zero_le _, Nat.zero_le _, l.isLt⟩, hstore, hout⟩
  cases hauto : s.config.autoRecover with
  | false => exact (inv_of_idle (by simp [hauto])).mpr hbase
  | true => exact inv_of_scanStart hbase (.inr (by simp [hauto])) rfl rfl

theorem move_inv {m : Move} (h : s.Inv) (hs : move m s = .next t) : t.Inv := by
  cases m with
  | engine a => exact engineTurn_inv h hs
  | present bs => cases hs; exact h
  | powerLoss => cases hs; exact h
  | reset l b => cases hs; exact resetEvent_inv l b h
  | extWrite addr v =>
    rw [move, extWrite] at hs
    obtain ⟨⟨-, hi⟩, haddr, rfl⟩ := foreignAccess_next hs
    exact (inv_of_idle (by exact hi)).mpr (write_baseInv v h.base haddr)
  | extRead addr =>
    rw [move, extRead] at hs
    obtain ⟨-, -, rfl⟩ := foreignAccess_next hs
    exact h

/-- Settles O39: a step is a move, and every move keeps the invariant. -/
theorem stepKeepsInvariant : Obligations.StepKeepsInvariant := by
  intro s t h hs
  rw [step_eq_move] at hs
  exact move_inv (s := s.popped) h hs

end Sys2Proof.Machine
end

section
/-! # The steps of the log engine: what each accepts, changes and leaves (`43_log_fsm.md` R171 to R175) -/

namespace Sys2Proof.Machine

variable {s t : State} {a : Answer}

/-! ## Accepting a command -/

/-- Settles O18: the engine's turn is the accept step of the decoded command, which `exec` is too. -/
theorem stepRunsDecodedInstruction : Obligations.StepRunsDecodedInstruction := by
  intro s a i rest hturn hready hf
  rw [step_of_turn hturn, engineTurn_accept (s := s.popped) hready.1 hready.2 hf]
  exact (exec_of_ready (s := { s.popped with port := rest }) i hready).symm

/-- Settles O28: the three are `acceptEffect`. -/
theorem scanAndEraseAcceptSteps : Obligations.ScanAndEraseAcceptSteps :=
  fun _ h => ⟨exec_of_ready .readall h, exec_of_ready .eraseall h, exec_of_ready .recover h⟩

/-! ### APPEND -/

theorem acceptEffect_append_nil (s : State) : acceptEffect (.instr (.append [])) s = raise .invalidInput s := rfl

theorem acceptEffect_append_room {m : List Byte} (hm : m ≠ []) (h : s.nwi < s.config.maxEntries) :
    acceptEffect (.instr (.append m)) s = startRecord (loadMessage m s) := by
  simp [acceptEffect, hm, h]

theorem acceptEffect_append_full {m : List Byte} (hm : m ≠ []) (h : s.config.maxEntries ≤ s.nwi) :
    acceptEffect (.instr (.append m)) s = { loadMessage m s with si := 0, phase := .aErase } := by
  simp [acceptEffect, hm, h]

/-- The payload loaded is what the record is made of. -/
theorem loadMessage_take (m : List Byte) (s : State) :
    (loadMessage m s).buf.toList.take (loadMessage m s).len = payload m :=
  Buf.toList_take_put_zero s.buf (by simp)

theorem startRecord_loadMessage_crc (m : List Byte) (s : State) :
    (startRecord (loadMessage m s)).crc = crc16 (payload m ++ [0x00]) := by
  rw [startRecord_crc, encodeInPlace_crc, loadMessage_take]

/-- The record stands in `BUF`, and the bytes behind it keep their values. -/
theorem startRecord_loadMessage_buf (m : List Byte) (s : State) (j : Nat) :
    (startRecord (loadMessage m s)).buf[j]? =
      if j < (payload m).length + 3 then (record (payload m))[j]? else s.buf[j]? := by
  split_ifs with hrec
  · have htake := (startRecord_buf_take (s := loadMessage m s) (by simp)).2
    rw [loadMessage_take, loadMessage_len] at htake
    rw [← htake, List.getElem?_take_of_lt hrec, Vector.getElem?_toList]
  · rw [startRecord_buf, encodeInPlace_buf, Buf.getElem?_put, if_neg (by simp at hrec ⊢; omega), loadMessage_buf,
      Buf.getElem?_put, if_neg (by omega)]

/-- Settles O27: by `m` and the room in the log, the three results of `acceptEffect`. -/
theorem appendAcceptStep : Obligations.AppendAcceptStep := by
  intro s m hready
  have hlen : (payload m).length = min m.length 61 := by rw [payload_length, Nat.min_comm]
  rw [exec_of_ready _ hready]
  refine ⟨?_, fun hm hroom => ?_, fun hm hfull => ?_⟩
  · rintro rfl
    simp [acceptEffect_append_nil, raise, emit, hready.2]
  · rw [acceptEffect_append_room hm hroom]
    refine ⟨(startRecord (loadMessage m s)).buf, _, encodeRecord_of_ne_nil hm, ?_, fun j _ => ?_⟩
    · rw [← hlen, ← payload, ← startRecord_loadMessage_crc m s]
      rfl
    · rw [startRecord_loadMessage_buf m s j, hlen, payload]
  · rw [acceptEffect_append_full hm hfull]
    refine ⟨_, by rw [← hlen]; rfl, fun j hj => ?_⟩
    rw [loadMessage_buf, Buf.getElem?_put, ← hlen, Nat.zero_add, Nat.sub_zero]
    by_cases h : j < (payload m).length
    · have h61 : j < 61 := by rw [payload_length] at h; omega
      rw [if_pos ⟨j.zero_le, h, hj⟩, if_pos h, payload, List.getElem?_take_of_lt h61]
    · rw [if_neg (by omega), if_neg h]

/-! ### Frames of the accept steps -/

/-- No accept step writes the store, the parameters or the environment's choices. -/
theorem acceptEffect_frame (i : Instr) (s : State) :
    acceptEffect (.instr i) s =
      { s with
        phase := (acceptEffect (.instr i) s).phase, len := (acceptEffect (.instr i) s).len
        buf := (acceptEffect (.instr i) s).buf, si := (acceptEffect (.instr i) s).si
        bc := (acceptEffect (.instr i) s).bc, crc := (acceptEffect (.instr i) s).crc
        out := (acceptEffect (.instr i) s).out } := by
  cases i with
  | append m => simp only [acceptEffect]; split_ifs <;> rfl
  | nop | readall | eraseall | recover | getidx | crcinit | crcbyte _ | crcread => rfl

/-- Settles O30: `acceptEffect_frame`, and the registers each command starts with. -/
theorem logAcceptStepsFrame : Obligations.LogAcceptStepsFrame := by
  intro i s t hi h
  rw [exec_eq_accept] at h
  obtain ⟨-, rfl⟩ := accept_next h
  have hframe := acceptEffect_frame i s
  refine ⟨hframe, ?_⟩
  obtain rfl | rfl | rfl | ⟨m, rfl⟩ := hi
  case inr.inr.inr =>
    by_cases hm : m = []
    · subst hm; simp [acceptEffect_append_nil]
    · obtain hroom | hfull := lt_or_ge s.nwi s.config.maxEntries
      · rw [acceptEffect_append_room hm hroom]; simp [hroom]
      · rw [acceptEffect_append_full hm hfull]; simp [hfull]
  all_goals simp [acceptEffect]

/-! ## The transaction steps -/

/-- A transaction step writes only the registers of `10_state.md` R27, the store and the response stream. -/
def State.engineFrame (s t : State) : Prop :=
  t = { s with
    phase := t.phase, nwi := t.nwi, crc := t.crc, buf := t.buf, si := t.si, bc := t.bc, store := t.store, out := t.out }

theorem engineFrame_iff :
    s.engineFrame t ↔ t.config = s.config ∧ t.powered = s.powered ∧ t.len = s.len ∧ t.port = s.port ∧
      t.script = s.script ∧ t.thereafter = s.thereafter := by
  cases s; cases t; simp [State.engineFrame]

theorem writeTransaction_frame {addr : Nat} {v : Byte} {k : State → State} (hk : ∀ u : State, u.engineFrame (k u))
    (h : writeTransaction addr v a k s = .next t) : s.engineFrame t := by
  obtain ⟨-, ⟨-, rfl⟩ | ⟨l, -, rfl⟩ | ⟨-, rfl⟩⟩ := writeTransaction_next h
  · exact engineFrame_iff.mpr (engineFrame_iff.mp (hk { s with store := s.store.write addr v }))
  · rfl
  · rfl

theorem slotReadStep_frame {onSlot : Verdict → State → State} (hon : ∀ r u, State.engineFrame u (onSlot r u))
    (h : slotReadStep onSlot a s = .next t) : s.engineFrame t := by
  obtain ⟨-, -, ⟨-, rfl⟩ | ⟨-, rfl⟩ | ⟨-, b, -, ⟨-, rfl⟩ | ⟨-, rfl⟩⟩⟩ := slotReadStep_next h
  · rfl
  · rfl
  · rfl
  · exact engineFrame_iff.mpr
      (engineFrame_iff.mp (hon (decodeRecord b.toList) { s with buf := b, crc := decodeCrc b.toList s.crc }))

theorem readallSlot_frame (r : Verdict) (s : State) : s.engineFrame (readallSlot r s) := by
  cases r with
  | invalid => rfl
  | valid str => rw [readallSlot_valid]; split <;> rfl

theorem recoverSlot_frame (r : Verdict) (s : State) : s.engineFrame (recoverSlot r s) := by
  cases r with
  | invalid => rfl
  | valid str => dsimp only [recoverSlot]; split <;> rfl

theorem engineStep_frame (h : engineStep a s = .next t) : s.engineFrame t := by
  unfold engineStep at h
  cases hp : s.phase <;> simp only [hp] at h
  case idle => cases h; rfl
  case aErase | eWrite =>
    refine writeTransaction_frame (fun u => ?_) h
    split <;> rfl
  case aWrite =>
    obtain ⟨v, -, hw⟩ := stepAWrite_next h
    refine writeTransaction_frame (fun u => ?_) hw
    split <;> rfl
  case rRead => exact slotReadStep_frame readallSlot_frame h
  case vRead => exact slotReadStep_frame recoverSlot_frame h

/-- Settles O21: `exec` is `accept`, and a busy engine's turn is a transaction step, which keeps the port. -/
theorem busyEngineAcceptsNothing : Obligations.BusyEngineAcceptsNothing := by
  refine ⟨fun i s h => ?_, fun s t a hturn hbusy h => ?_⟩
  · rw [exec_eq_accept, accept_of_busy _ h]
  · rw [step_of_turn hturn] at h
    obtain he | ⟨hp, hi, -⟩ | ⟨-, -, he⟩ := engineTurn_cases a s.popped
    · rw [he] at h; cases h; rfl
    · exact absurd ⟨hp, hi⟩ hbusy
    · rw [he] at h
      obtain ⟨-, -, -, hport, -⟩ := engineFrame_iff.mp (engineStep_frame h)
      exact hport

/-! ### What each row leaves -/

theorem stepAErase_out (h : stepAErase a s = .next t) : t.out = s.out ∨ t.out = s.out ++ [.status .ioError] := by
  obtain ⟨-, ⟨-, rfl⟩ | ⟨l, -, rfl⟩ | ⟨-, rfl⟩⟩ := writeTransaction_next h
  · dsimp only; split_ifs <;> exact .inl rfl
  · exact .inr rfl
  · exact .inl rfl

theorem stepAWrite_buf_si (h : stepAWrite a s = .next t) : t.buf = s.buf ∧ t.si = s.si := by
  obtain ⟨v, -, hw⟩ := stepAWrite_next h
  obtain ⟨-, ⟨-, rfl⟩ | ⟨l, -, rfl⟩ | ⟨-, rfl⟩⟩ := writeTransaction_next hw
  · dsimp only; split_ifs <;> exact ⟨rfl, rfl⟩
  · exact ⟨rfl, rfl⟩
  · exact ⟨rfl, rfl⟩

theorem stepEWrite_buf_bc (h : stepEWrite a s = .next t) : t.buf = s.buf ∧ t.bc = s.bc := by
  obtain ⟨-, ⟨-, rfl⟩ | ⟨l, -, rfl⟩ | ⟨-, rfl⟩⟩ := writeTransaction_next h
  · dsimp only; split_ifs <;> exact ⟨rfl, rfl⟩
  · exact ⟨rfl, rfl⟩
  · exact ⟨rfl, rfl⟩

/-- An engine in a transaction phase that steps makes a transaction (`10_state.md` R28). -/
theorem exists_transaction (hp : s.phase ≠ .idle) (h : engineStep a s = .next t) : ∃ tx, s.transaction = some tx := by
  unfold engineStep at h
  unfold State.transaction
  cases hph : s.phase <;> simp only [hph] at h ⊢
  case idle => exact absurd hph hp
  case aWrite =>
    obtain ⟨v, hv, -⟩ := stepAWrite_next h
    exact ⟨_, by rw [hv]; rfl⟩
  all_goals exact ⟨_, rfl⟩

/-- Every byte but the one the step's transaction writes reads as before (`20_memory.md` R64). -/
theorem engineStep_read_store (hp : s.phase ≠ .idle) (hwf : s.store.wf = true) (h : engineStep a s = .next t) {addr : Nat}
    (hne : ∀ v, s.transaction ≠ some (.write addr v)) : Memory.read t.store addr = Memory.read s.store addr := by
  obtain ⟨tx, htx⟩ := exists_transaction hp h
  cases tx with
  | read x =>
    obtain ⟨-, onSlot, hon, hrow⟩ := engineStep_of_read htx
    rw [slotReadStep_store hon ((hrow a).symm.trans h)]
  | write x v =>
    obtain ⟨k, hk, hrow⟩ := engineStep_of_write htx
    rw [read_writeTransaction hk hwf ((hrow a).symm.trans h), if_neg]
    rintro rfl
    exact hne v htx

/-- The registers and streams that each row of the step table leaves (`43_log_fsm.md` R174). -/
theorem engineStep_leaves (h : engineStep a s = .next t) :
    (s.phase = .aErase → t.out = s.out ∨ t.out = s.out ++ [.status .ioError]) ∧
    (s.phase = .aWrite → t.crc = s.crc ∧ t.buf = s.buf ∧ t.si = s.si) ∧
    (s.phase = .eWrite → t.nwi = s.nwi ∧ t.crc = s.crc ∧ t.buf = s.buf ∧ t.bc = s.bc) ∧
    (s.phase = .rRead → t.nwi = s.nwi ∧ t.store = s.store) ∧
    (s.phase = .vRead → t.store = s.store) := by
  unfold engineStep at h
  refine ⟨fun hp => ?_, fun hp => ?_, fun hp => ?_, fun hp => ?_, fun hp => ?_⟩ <;> simp only [hp] at h
  · exact stepAErase_out h
  · obtain ⟨hbuf, hsi⟩ := stepAWrite_buf_si h
    exact ⟨stepAWrite_crc h, hbuf, hsi⟩
  · obtain ⟨hnwi, hcrc⟩ := stepEWrite_nwi_crc h
    obtain ⟨hbuf, hbc⟩ := stepEWrite_buf_bc h
    exact ⟨hnwi, hcrc, hbuf, hbc⟩
  · exact ⟨stepRRead_nwi h, slotReadStep_store readallSlot_keepsStoreAndBuf h⟩
  · exact slotReadStep_store recoverSlot_keepsStoreAndBuf h

/-- Settles O31: `engineStep_frame`, `engineStep_read_store`, and what each row leaves. -/
theorem transactionStepsFrame : Obligations.TransactionStepsFrame := by
  intro s t a hturn hpow hbusy hwf h
  rw [step_of_busy_turn hturn hpow hbusy] at h
  exact ⟨engineStep_frame h, fun addr hne => engineStep_read_store (s := s.popped) hbusy hwf h hne,
    engineStep_leaves (s := s.popped) h⟩

/-! ### Addresses -/

/-- The address is the concatenation of the slot's 10 bits and the offset's 6 (`43_log_fsm.md` R171). -/
theorem slotAddr_eq_append {slot offset : Nat} (hs : slot < 1024) (ho : offset < 64) :
    slotAddr slot offset = (BitVec.ofNat 10 slot ++ BitVec.ofNat 6 offset).toNat := by
  rw [BitVec.toNat_append, BitVec.toNat_ofNat, BitVec.toNat_ofNat, Nat.mod_eq_of_lt hs, Nat.mod_eq_of_lt ho,
    ← Nat.shiftLeft_add_eq_or_of_lt ho, Nat.shiftLeft_eq]
  rfl

/-- The slot and the offset of the next transaction. -/
theorem transaction_addr {tx : Transaction} (h : s.Inv) (htx : s.transaction = some tx) :
    ∃ slot offset, slot < s.config.maxEntries ∧ offset < 64 ∧ tx.addr = slotAddr slot offset ∧
      (s.phase = .aErase ∨ s.phase = .eWrite → slot = s.si ∧ offset = 0) ∧
      (s.phase = .aWrite → slot = s.nwi ∧ offset = s.bc) ∧
      (s.phase = .rRead ∨ s.phase = .vRead → slot = s.si ∧ offset = s.bc) := by
  obtain ⟨-, -, -, -, haErase, haWrite, hrRead, hvRead, heWrite⟩ := h
  unfold State.transaction at htx
  cases hp : s.phase <;> simp only [hp] at htx
  case idle => cases htx
  case aErase =>
    cases htx
    obtain ⟨-, hsi, -⟩ := haErase hp
    exact ⟨s.si, 0, hsi, by decide, rfl, by simp⟩
  case eWrite =>
    cases htx
    obtain ⟨hsi, -⟩ := heWrite hp
    exact ⟨s.si, 0, hsi, by decide, rfl, by simp⟩
  case aWrite =>
    obtain ⟨v, -, rfl⟩ := Option.map_eq_some_iff.mp htx
    have hbc := bc_lt_of_aWriteWf (haWrite hp)
    obtain ⟨hnwi, -⟩ := haWrite hp
    exact ⟨s.nwi, s.bc, hnwi, hbc, rfl, by simp⟩
  case rRead =>
    cases htx
    obtain ⟨hsi, hbc, -⟩ := hrRead hp
    exact ⟨s.si, s.bc, hsi, hbc, rfl, by simp⟩
  case vRead =>
    cases htx
    obtain ⟨hsi, hbc, -⟩ := hvRead hp
    exact ⟨s.si, s.bc, hsi, hbc, rfl, by simp⟩

/-- Settles O41: `transaction_addr`, and the bounds of the parameters. -/
theorem addressesStayInTheLog : Obligations.AddressesStayInTheLog := by
  intro s tx h htx
  have ⟨⟨_, h1024, _, h65536, _⟩, _⟩ := h
  obtain ⟨slot, offset, hs, ho, haddr, hpairs⟩ := transaction_addr h htx
  have hstore := slotAddr_lt_storeSize h.1 hs ho
  exact ⟨slot, offset, hs, by omega, haddr, haddr.trans (slotAddr_eq_append (by omega) ho), by omega, by omega, hpairs⟩

/-! ### Counters -/

/-- How a step that is no reset may change the counters (`43_log_fsm.md` R173). -/
def State.countersMove (s t : State) : Prop :=
  (t.si = s.si ∨ t.si = 0 ∨ (t.si = s.si + 1 ∧ s.si < s.config.maxEntries)) ∧
    (t.bc = s.bc ∨ t.bc = 0 ∨ (t.bc = s.bc + 1 ∧ s.bc ≤ 63)) ∧
    (t.nwi = s.nwi ∨ t.nwi = 0 ∨ (t.nwi = s.nwi + 1 ∧ s.nwi < s.config.maxEntries) ∨
      (s.phase = .vRead ∧ t.nwi = t.si)) ∧
    (t.nwi = 0 → s.nwi ≠ 0 → s.phase = .aErase ∨ s.phase = .vRead)

theorem countersMove_of_nwi_eq (hsi : t.si = s.si ∨ t.si = 0 ∨ (t.si = s.si + 1 ∧ s.si < s.config.maxEntries))
    (hbc : t.bc = s.bc ∨ t.bc = 0 ∨ (t.bc = s.bc + 1 ∧ s.bc ≤ 63)) (hnwi : t.nwi = s.nwi) : s.countersMove t :=
  ⟨hsi, hbc, .inl hnwi, fun h0 hne => absurd (hnwi ▸ h0) hne⟩

theorem countersMove_refl (s : State) : s.countersMove s :=
  countersMove_of_nwi_eq (.inl rfl) (.inl rfl) rfl

theorem writeTransaction_countersMove {addr : Nat} {v : Byte} {k : State → State}
    (hk : ∀ m, s.countersMove (k { s with store := m })) (h : writeTransaction addr v a k s = .next t) :
    s.countersMove t := by
  obtain ⟨-, ⟨-, rfl⟩ | ⟨l, -, rfl⟩ | ⟨-, rfl⟩⟩ := writeTransaction_next h
  · exact hk _
  · exact countersMove_refl s
  · exact countersMove_refl _

theorem slotReadStep_countersMove {onSlot : Verdict → State → State}
    (hon : ∀ r b c, s.countersMove (onSlot r { s with buf := b, crc := c })) (h : slotReadStep onSlot a s = .next t) :
    s.countersMove t := by
  obtain ⟨hbc, -, ⟨-, rfl⟩ | ⟨-, rfl⟩ | ⟨-, b, -, ⟨-, rfl⟩ | ⟨-, rfl⟩⟩⟩ := slotReadStep_next h
  · exact countersMove_refl _
  · exact countersMove_refl s
  · exact countersMove_of_nwi_eq (.inl rfl) (.inr (.inr ⟨rfl, Nat.le_of_lt_succ hbc⟩)) rfl
  · exact hon _ _ _

theorem stepAErase_countersMove (hp : s.phase = .aErase) (hsi : s.si < s.config.maxEntries)
    (h : stepAErase a s = .next t) : s.countersMove t := by
  refine writeTransaction_countersMove (fun m => ?_) h
  dsimp only
  split_ifs with hnext
  · exact countersMove_of_nwi_eq (.inr (.inr ⟨rfl, hsi⟩)) (.inl rfl) rfl
  · exact ⟨.inr (.inr ⟨by dsimp; omega, hsi⟩), .inr (.inl rfl), .inr (.inl rfl), fun _ _ => .inl hp⟩

theorem stepEWrite_countersMove (hsi : s.si < s.config.maxEntries) (h : stepEWrite a s = .next t) : s.countersMove t := by
  refine writeTransaction_countersMove (fun m => ?_) h
  dsimp only
  split_ifs with hnext
  · exact countersMove_of_nwi_eq (.inr (.inr ⟨rfl, hsi⟩)) (.inl rfl) rfl
  · exact countersMove_of_nwi_eq (.inr (.inr ⟨by dsimp; omega, hsi⟩)) (.inl rfl) rfl

theorem stepAWrite_countersMove (hbc : s.bc < 64) (hnwi : s.nwi < s.config.maxEntries) (h : stepAWrite a s = .next t) :
    s.countersMove t := by
  obtain ⟨v, -, hw⟩ := stepAWrite_next h
  have hle := Nat.le_of_lt_succ hbc
  refine writeTransaction_countersMove (fun m => ?_) hw
  dsimp only
  split_ifs with hnext
  · exact countersMove_of_nwi_eq (.inl rfl) (.inr (.inr ⟨rfl, hle⟩)) rfl
  · exact ⟨.inl rfl, .inr (.inr ⟨rfl, hle⟩), .inr (.inr (.inl ⟨rfl, hnwi⟩)), fun h0 => absurd h0 (Nat.succ_ne_zero _)⟩

theorem readallSlot_countersMove (hsi : s.si < s.config.maxEntries) (r : Verdict) (b : Buf) (c : Word) :
    s.countersMove (readallSlot r { s with buf := b, crc := c }) := by
  cases r with
  | invalid => exact countersMove_refl s
  | valid str =>
    rw [readallSlot_valid]
    dsimp only
    split_ifs with hnext
    · exact countersMove_of_nwi_eq (.inr (.inr ⟨rfl, hsi⟩)) (.inr (.inl rfl)) rfl
    · exact countersMove_of_nwi_eq (.inr (.inr ⟨by dsimp; omega, hsi⟩)) (.inl rfl) rfl

theorem recoverSlot_countersMove (hp : s.phase = .vRead) (hsi : s.si < s.config.maxEntries) (r : Verdict) (b : Buf)
    (c : Word) : s.countersMove (recoverSlot r { s with buf := b, crc := c }) := by
  cases r with
  | invalid => exact ⟨.inl rfl, .inl rfl, .inr (.inr (.inr ⟨hp, rfl⟩)), fun _ _ => .inr hp⟩
  | valid str =>
    dsimp only [recoverSlot]
    split_ifs with hnext
    · exact countersMove_of_nwi_eq (.inr (.inr ⟨rfl, hsi⟩)) (.inr (.inl rfl)) rfl
    · exact ⟨.inr (.inr ⟨by dsimp; omega, hsi⟩), .inl rfl, .inr (.inr (.inr ⟨hp, rfl⟩)), fun _ _ => .inr hp⟩

theorem engineStep_countersMove (h : s.Inv) (hs : engineStep a s = .next t) : s.countersMove t := by
  obtain ⟨-, -, -, -, haErase, haWrite, hrRead, hvRead, heWrite⟩ := h
  unfold engineStep at hs
  cases hp : s.phase <;> simp only [hp] at hs
  case idle => cases hs; exact countersMove_refl s
  case aErase => exact stepAErase_countersMove hp (haErase hp).2.1 hs
  case aWrite => exact stepAWrite_countersMove (bc_lt_of_aWriteWf (haWrite hp)) (haWrite hp).1 hs
  case rRead => exact slotReadStep_countersMove (fun r b c => readallSlot_countersMove (hrRead hp).1 r b c) hs
  case eWrite => exact stepEWrite_countersMove (heWrite hp).1 hs
  case vRead => exact slotReadStep_countersMove (fun r b c => recoverSlot_countersMove hp (hvRead hp).1 r b c) hs

/-- An accept step leaves a counter or sets it to 0. -/
theorem acceptEffect_si_bc (c : Cmd) (s : State) :
    ((acceptEffect c s).si = s.si ∨ (acceptEffect c s).si = 0) ∧ ((acceptEffect c s).bc = s.bc ∨ (acceptEffect c s).bc = 0) := by
  cases c with
  | illegal op => simp [acceptEffect]
  | instr i =>
    cases i with
    | append m => simp only [acceptEffect]; split_ifs <;> simp
    | nop | readall | eraseall | recover | getidx | crcinit | crcbyte _ | crcread => simp [acceptEffect]

theorem acceptEffect_countersMove (c : Cmd) (s : State) : s.countersMove (acceptEffect c s) :=
  have ⟨hsi, hbc⟩ := acceptEffect_si_bc c s
  countersMove_of_nwi_eq (hsi.imp_right .inl) (hbc.imp_right .inl) (acceptEffect_nwi c s)

theorem engineTurn_countersMove (h : s.Inv) (hs : engineTurn a s = .next t) : s.countersMove t := by
  obtain he | ⟨-, -, c, rest, -, he⟩ | ⟨-, -, he⟩ := engineTurn_cases a s <;> rw [he] at hs
  · cases hs; exact countersMove_refl _
  · cases hs; exact acceptEffect_countersMove c { s with port := rest }
  · exact engineStep_countersMove h hs

/-- The other agents leave the counters, but for the reset event. -/
theorem move_counters {m : Move} (hm : m.answer = none) (h : move m s = .next t) :
    (∃ l b, m = .reset l b ∧ t = resetEvent l b s) ∨ s.countersMove t := by
  cases m with
  | engine a => cases hm
  | reset l b => cases h; exact .inl ⟨l, b, rfl, rfl⟩
  | present bs => cases h; exact .inr (countersMove_refl s)
  | powerLoss => cases h; exact .inr (countersMove_refl s)
  | extWrite addr v =>
    rw [move, extWrite] at h
    obtain ⟨-, -, rfl⟩ := foreignAccess_next h; exact .inr (countersMove_refl s)
  | extRead addr =>
    rw [move, extRead] at h
    obtain ⟨-, -, rfl⟩ := foreignAccess_next h; exact .inr (countersMove_refl _)

/-- Settles O35: the engine's turn by `engineTurn_countersMove`, the other moves by `move_counters`. -/
theorem countersMoveByOne : Obligations.CountersMoveByOne := by
  intro s t h hs
  obtain ⟨a, -, he⟩ | ⟨m, hm, hna, he⟩ := step_cases s <;> rw [he] at hs
  · obtain ⟨hsi, hbc, hnwi, hzero⟩ := engineTurn_countersMove (s := s.popped) h hs
    exact ⟨hsi, hbc, hnwi, fun h0 hne => (hzero h0 hne).imp_right .inl⟩
  · obtain ⟨l, b, rfl, rfl⟩ | ⟨hsi, hbc, hnwi, hzero⟩ := move_counters hna hs
    · exact ⟨.inr (.inl rfl), .inr (.inl rfl), .inr (.inl rfl), fun _ _ => .inr (.inr ⟨l, b, hm⟩)⟩
    · exact ⟨hsi, hbc, hnwi, fun h0 hne => (hzero h0 hne).imp_right .inl⟩

end Sys2Proof.Machine
end

section
/-! # From the rows of the step table to runs: the engine's turns in the order of the store's answers, and the moves of the host
between them (`43_log_fsm.md` R176, R196, `60_exceptions.md` R252) -/

namespace Sys2Proof.Machine

variable {s t u : State} {a : Answer} {as : List Answer} {ts : List Transaction} {port : List Byte} {script : List Move}

/-! ## The bound of a command -/

theorem work_of_idle (h : s.phase = .idle) : s.work = 0 := by
  simp [State.work, h]

/-- The turns left after the accept step are within R176's bound. -/
theorem work_acceptEffect_le (i : Instr) (s : State) :
    (acceptEffect (.instr i) s).work ≤ stepBound s.config.maxEntries i := by
  cases i with
  | append m =>
    have h61 := payload_length m
    by_cases hm : m = []
    · subst hm
      rw [acceptEffect_append_nil, work_of_idle rfl]
      exact Nat.zero_le _
    obtain hroom | hfull := lt_or_ge s.nwi s.config.maxEntries
    · rw [acceptEffect_append_room hm hroom]
      simp only [State.work, startRecord_phase, startRecord_len, loadMessage_len, startRecord_bc, stepBound]
      omega
    · rw [acceptEffect_append_full hm hfull]
      simp only [State.work, loadMessage_config, loadMessage_len, stepBound]
      omega
  | readall | eraseall | recover => exact Nat.sub_le _ _
  | nop | getidx | crcinit | crcbyte _ | crcread => exact (work_of_idle rfl).le

/-- Settles O52: the work left after the accept step bounds the run to `IDLE`. -/
theorem commandsTerminate : Obligations.CommandsTerminate := by
  intro s i hs hready _ ha
  have hexec := exec_of_ready i hready
  cases accepted_acceptEffect i hs hready with
  | ended fs c hr => exact ⟨_, 0, _, hexec, Nat.zero_le _, rfl, hr⟩
  | runs hrun =>
    obtain ⟨-, -, hscript, hthen⟩ := acceptEffect_keeps (.instr i) s
    have hans : (acceptEffect (.instr i) s).answering := by rw [State.answering, hscript, hthen]; exact ha
    obtain ⟨n, u, fs, c, ⟨hr, hu, -⟩, hn, -⟩ := exists_completes hrun hans
    have hwork := work_acceptEffect_le i s
    have hmoves : (acceptEffect (.instr i) s).otherMoves n = s.otherMoves n := by
      rw [State.otherMoves, hscript, State.otherMoves]
    exact ⟨_, n, u, hexec, by omega, hr, hu⟩

/-! ## The engine does not see the port and the script -/

/-- The state with other bytes on the port and other moves to come. -/
def State.withEnv (s : State) (port : List Byte) (script : List Move) : State :=
  { s with port := port, script := script }

@[simp] theorem withEnv_port (s : State) (p : List Byte) (q : List Move) : (s.withEnv p q).port = p := rfl
@[simp] theorem withEnv_script (s : State) (p : List Byte) (q : List Move) : (s.withEnv p q).script = q := rfl

theorem writeTransaction_withEnv {addr : Nat} {v : Byte} {k : State → State}
    (hk : ∀ u : State, k (u.withEnv port script) = (k u).withEnv port script)
    (h : writeTransaction addr v a k s = .next t) :
    writeTransaction addr v a k (s.withEnv port script) = .next (t.withEnv port script) := by
  obtain ⟨haddr, ⟨rfl, rfl⟩ | ⟨l, rfl, rfl⟩ | ⟨rfl, rfl⟩⟩ := writeTransaction_next h <;>
    rw [writeTransaction, if_pos (by exact haddr)]
  · exact congrArg _ (hk { s with store := s.store.write addr v })
  · rfl

theorem slotReadStep_withEnv {onSlot : Verdict → State → State}
    (hon : ∀ (r : Verdict) (u : State), onSlot r (u.withEnv port script) = (onSlot r u).withEnv port script)
    (h : slotReadStep onSlot a s = .next t) :
    slotReadStep onSlot a (s.withEnv port script) = .next (t.withEnv port script) := by
  obtain ⟨hbc, haddr, ⟨rfl, rfl⟩ | ⟨⟨l, rfl⟩, rfl⟩ | ⟨rfl, b, rfl, hcase⟩⟩ := slotReadStep_next h <;>
    rw [slotReadStep, if_pos (by exact hbc), readTransaction, if_pos (by exact haddr)]
  · rfl
  · refine congrArg _ ?_
    obtain ⟨hnext, rfl⟩ | ⟨hlast, rfl⟩ := hcase
    · exact if_pos hnext
    · exact (if_neg (by dsimp [State.withEnv]; omega)).trans (hon _ { s with buf := _, crc := _ })

theorem readallSlot_withEnv (r : Verdict) (u : State) :
    readallSlot r (u.withEnv port script) = (readallSlot r u).withEnv port script := by
  cases r with
  | invalid => rfl
  | valid str => rw [readallSlot_valid, readallSlot_valid, apply_ite (State.withEnv · port script)]; rfl

theorem recoverSlot_withEnv (r : Verdict) (u : State) :
    recoverSlot r (u.withEnv port script) = (recoverSlot r u).withEnv port script := by
  cases r with
  | invalid => rfl
  | valid str => dsimp only [recoverSlot]; rw [apply_ite (State.withEnv · port script)]; rfl

theorem engineStep_withEnv (h : engineStep a s = .next t) (port : List Byte) (script : List Move) :
    engineStep a (s.withEnv port script) = .next (t.withEnv port script) := by
  have hphase : (s.withEnv port script).phase = s.phase := rfl
  unfold engineStep at h ⊢
  rw [hphase]
  cases hp : s.phase <;> simp only [hp] at h ⊢
  case idle => cases h; rfl
  case aErase | eWrite =>
    refine writeTransaction_withEnv (fun u => ?_) h
    rw [apply_ite (State.withEnv · port script)]
    rfl
  case aWrite =>
    obtain ⟨v, hv, hw⟩ := stepAWrite_next h
    have hv' : (s.withEnv port script).buf[(s.withEnv port script).bc]? = some v := hv
    rw [stepAWrite, hv']
    refine writeTransaction_withEnv (fun u => ?_) hw
    rw [apply_ite (State.withEnv · port script)]
    rfl
  case rRead => exact slotReadStep_withEnv readallSlot_withEnv h
  case vRead => exact slotReadStep_withEnv recoverSlot_withEnv h

/-! ## The engine's turns by themselves -/

/-- With the answers `as` the powered engine goes from `s` to `u` and makes the transactions `ts`, whatever the host presents
meanwhile. -/
inductive EngineRun : List Answer → State → List Transaction → State → Prop where
  | nil (s : State) : EngineRun [] s [] s
  | cons {a : Answer} {as : List Answer} {s t u : State} {tx : Transaction} {ts : List Transaction}
      (hpow : s.powered = true) (htx : s.transaction = some tx) (hstep : engineStep a s = .next t)
      (hrest : EngineRun as t ts u) : EngineRun (a :: as) s (tx :: ts) u

theorem EngineRun.single {tx : Transaction} (hpow : s.powered = true) (htx : s.transaction = some tx)
    (hstep : engineStep a s = .next t) : EngineRun [a] s [tx] t :=
  .cons hpow htx hstep (.nil t)

theorem EngineRun.append {bs : List Answer} {ts' : List Transaction} (h : EngineRun as s ts t) (h' : EngineRun bs t ts' u) :
    EngineRun (as ++ bs) s (ts ++ ts') u := by
  induction h with
  | nil => exact h'
  | cons hpow htx hstep _ ih => exact .cons hpow htx hstep (ih h')

theorem EngineRun.length_eq (h : EngineRun as s ts u) : ts.length = as.length := by
  induction h with
  | nil => rfl
  | cons _ _ _ _ ih => rw [List.length_cons, ih, List.length_cons]

theorem EngineRun.inv (h : EngineRun as s ts u) (hs : s.Inv) : u.Inv := by
  induction h with
  | nil => exact hs
  | cons _ _ hstep _ ih => exact ih (engineStep_inv hs hstep)

/-! ## The answers the environment supplies -/

/-- The next answers of the environment are `as`: those of the script, and then `thereafter`. -/
def State.supplies (s : State) (as : List Answer) : Prop :=
  ∀ i (h : i < as.length), as[i] = s.answers.getD i s.thereafter

theorem supplies_take (s : State) (n : Nat) : s.supplies (s.answers.take n) := by
  intro i hi
  have hlt : i < s.answers.length := by rw [List.length_take] at hi; omega
  rw [List.getElem_take, List.getD_eq_getElem _ _ hlt]

theorem State.supplies.congr (h : s.supplies as) (ha : t.answers = s.answers) (ht : t.thereafter = s.thereafter) :
    t.supplies as := by
  unfold State.supplies at h ⊢
  rwa [ha, ht]

theorem answers_of_turn (h : s.turn = some a) :
    (s.answers = [] ∧ s.popped.answers = [] ∧ a = s.thereafter) ∨ s.answers = a :: s.popped.answers := by
  unfold State.turn at h
  unfold State.answers
  split at h <;> rename_i hs <;> cases h <;> simp [hs, Move.answer]

theorem State.supplies.head {b : Answer} (h : s.supplies (a :: as)) (hturn : s.turn = some b) : a = b := by
  have h0 : a = s.answers.getD 0 s.thereafter := h 0 (Nat.succ_pos _)
  obtain ⟨hnil, -, hb⟩ | hcons := answers_of_turn hturn
  · rw [h0, hnil, hb]; rfl
  · rw [h0, hcons]; rfl

theorem State.supplies.tail {b : Answer} (h : s.supplies (a :: as)) (hturn : s.turn = some b) : s.popped.supplies as := by
  intro i hi
  have hi' : as[i] = s.answers.getD (i + 1) s.thereafter := h (i + 1) (Nat.succ_lt_succ hi)
  obtain ⟨hnil, hpop, -⟩ | hcons := answers_of_turn hturn
  · rw [hi', hnil, hpop]; rfl
  · rw [hi', hcons]; rfl

/-- The moves that are no turns of the engine answer nothing. -/
theorem answers_of_otherMoves {n : Nat} (h : n = s.otherMoves n) (ht : t.script = s.script.drop n) : t.answers = s.answers := by
  have hlen : (s.script.take n).countP (fun m => m.answer.isNone) = (s.script.take n).length :=
    le_antisymm List.countP_le_length (by rw [List.length_take]; exact (Nat.min_le_left _ _).trans h.le)
  have hnone : (s.script.take n).filterMap Move.answer = [] :=
    List.filterMap_eq_nil_iff.mpr fun m hm => Option.isNone_iff_eq_none.mp (List.countP_eq_length.mp hlen m hm)
  rw [State.answers, State.answers, ht]
  conv_rhs => rw [← List.take_append_drop n s.script, List.filterMap_append, hnone, List.nil_append]

/-! ## Runs of the engine and the host -/

/-- The next `n` moves bring `s` to `u`: one turn of the engine for each of the transactions `ts`, the others presenting bytes. -/
structure Advances (n : Nat) (s : State) (ts : List Transaction) (u : State) : Prop where
  run_eq : run n s = .next u
  trace_eq : trace n s = ts
  moves : n = ts.length + s.otherMoves n
  script_eq : u.script = s.script.drop n
  port_eq : u.port = s.port ++ (s.script.take n).flatMap Move.presented

theorem advances_zero (s : State) : Advances 0 s [] s :=
  ⟨rfl, rfl, by simp [State.otherMoves], rfl, by simp⟩

theorem Advances.append {m n : Nat} {ts' : List Transaction} (h : Advances m s ts t) (h' : Advances n t ts' u) :
    Advances (m + n) s (ts ++ ts') u := by
  have hmoves : s.otherMoves (m + n) = s.otherMoves m + t.otherMoves n := by
    simp only [State.otherMoves, List.take_add, List.countP_append, h.script_eq]
  refine ⟨(run_add h.run_eq).trans h'.run_eq, ?_, ?_, ?_, ?_⟩
  · rw [trace_add h.run_eq, h.trace_eq, h'.trace_eq]
  · have := h.moves
    have := h'.moves
    rw [List.length_append, hmoves]
    omega
  · rw [h'.script_eq, h.script_eq, List.drop_drop]
  · rw [h'.port_eq, h.port_eq, h.script_eq, List.take_add, List.flatMap_append, List.append_assoc]

/-- One turn of the engine. -/
theorem advances_turn {tx : Transaction} (hpow : s.powered = true) (htx : s.transaction = some tx)
    (hstep : engineStep a s = .next t) (hturn : (s.withEnv port script).turn = some a) :
    Advances 1 (s.withEnv port script) [tx] (t.withEnv port script.tail) := by
  have hs : step (s.withEnv port script) = .next (t.withEnv port script.tail) :=
    (step_of_busy_turn hturn hpow (phase_ne_idle_of_transaction htx)).trans (engineStep_withEnv hstep port script.tail)
  have hissued : (s.withEnv port script).issued = [tx] := by
    have htx' : (s.withEnv port script).transaction = some tx := htx
    have hpow' : (s.withEnv port script).powered = true := hpow
    simp [State.issued, hturn, htx', hpow']
  have hmoves : (s.withEnv port script).otherMoves 1 = 0 :=
    otherMoves_succ_of_turn (t := (s.withEnv port script).popped) hturn rfl 0
  refine ⟨run_succ_of_step hs, by rw [trace_succ_of_step hs, hissued, trace_zero, List.append_nil], by rw [hmoves]; rfl,
    List.drop_one.symm, ?_⟩
  unfold State.turn at hturn
  split at hturn <;> simp_all [Move.presented]

/-- The engine's turns, in an environment in which only the host moves besides, and which supplies their answers. -/
theorem EngineRun.exists_advances (h : EngineRun as s ts u) {port : List Byte} {script : List Move}
    (hund : (s.withEnv port script).undisturbed) (hsup : (s.withEnv port script).supplies as) :
    ∃ n port' script', Advances n (s.withEnv port script) ts (u.withEnv port' script') := by
  induction h generalizing port script with
  | nil s => exact ⟨0, port, script, advances_zero _⟩
  | @cons a as s t u tx ts hpow htx hstep _ ih =>
    obtain ⟨k, w, b, hrun, hw, hturn, -, htrace, hk, -⟩ := exists_run_to_turn hund
    obtain rfl : w = s.withEnv (port ++ (script.take k).flatMap Move.presented) (script.drop k) := hw
    have hhost : Advances k (s.withEnv port script) [] (s.withEnv _ (script.drop k)) :=
      ⟨hrun, htrace, by simpa using hk, rfl, rfl⟩
    have hsup' : State.supplies (s.withEnv (port ++ (script.take k).flatMap Move.presented) (script.drop k)) (a :: as) :=
      hsup.congr (answers_of_otherMoves hk rfl) rfl
    obtain rfl := hsup'.head hturn
    have hone := advances_turn hpow htx hstep hturn
    obtain ⟨-, -, -, hthen⟩ := engineStep_keeps hstep
    have hrest : (t.withEnv (port ++ (script.take k).flatMap Move.presented) (script.drop k).tail).supplies as :=
      (hsup'.tail hturn).congr rfl hthen
    have hund' : ((script.drop k).tail).all (Move.engineOrHost fun _ => true) = true :=
      List.all_eq_true.mpr fun m hm => List.all_eq_true.mp hund m (List.mem_of_mem_drop (List.mem_of_mem_tail hm))
    obtain ⟨n, port', script', hadv⟩ := ih hund' hrest
    exact ⟨_, port', script', (hhost.append hone).append hadv⟩

/-- The run ends before the script does, if the script answers all its transactions. -/
theorem Advances.le_length {n : Nat} (h : Advances n s ts u) (hlen : ts.length ≤ s.answers.length) : n ≤ s.script.length := by
  by_contra hn
  have hsplit := List.length_eq_countP_add_countP (fun m : Move => m.answer.isSome) (l := s.script)
  have hmoves := h.moves
  rw [State.otherMoves, List.take_of_length_le (by omega)] at hmoves
  rw [State.answers, List.length_filterMap_eq_countP] at hlen
  simp only [Bool.not_eq_true, Option.isSome_eq_false_iff, Bool.decide_eq_true] at hsplit
  omega

/-- A command whose turns the script answers completes as R196 asks. -/
theorem EngineRun.completesWith {n : Nat} (h : EngineRun (s.answers.take n) s ts u) (hund : s.undisturbed) (hu : u.ready) :
    s.completesWith u.view ts := by
  obtain ⟨n, port, script, hadv⟩ := h.exists_advances (port := s.port) (script := s.script) hund (supplies_take s n)
  have hlen : ts.length ≤ s.answers.length := by rw [h.length_eq, List.length_take]; exact Nat.min_le_right _ _
  exact ⟨n, _, hadv.moves, hadv.le_length hlen, hadv.run_eq, hu, rfl, hadv.trace_eq, hadv.script_eq, hadv.port_eq⟩

theorem EngineRun.thereafter_eq (h : EngineRun as s ts u) : u.thereafter = s.thereafter := by
  induction h with
  | nil => rfl
  | cons _ _ hstep _ ih => exact ih.trans (engineStep_keeps hstep).thereafter

theorem State.succeeding.undisturbed (h : s.succeeding) : s.undisturbed :=
  List.all_eq_true.mpr fun m hm => by
    have hm := List.all_eq_true.mp h.1 m hm
    cases m with
    | engine _ | present _ => rfl
    | powerLoss | reset _ _ | extWrite _ _ | extRead _ => cases hm

theorem State.succeeding.eq_ok (h : s.succeeding) (ha : a ∈ s.answers) : a = .ok := by
  obtain ⟨m, hm, hma⟩ := List.mem_filterMap.mp ha
  have hok := List.all_eq_true.mp h.1 m hm
  cases m with
  | engine b => cases hma; exact of_decide_eq_true hok
  | present _ | powerLoss | reset _ _ | extWrite _ _ | extRead _ => cases hma

theorem State.succeeding.supplies (h : s.succeeding) (n : Nat) : s.supplies (List.replicate n .ok) := by
  intro i hi
  rw [List.getElem_replicate, List.getD_eq_getElem?_getD]
  cases ha : s.answers[i]? with
  | none => exact h.2.symm
  | some a => exact (h.eq_ok (List.mem_of_getElem? ha)).symm

/-- Where every transaction succeeds, the engine's turns are made, and every later one succeeds too. -/
theorem EngineRun.exists_run_of_succeeding {n : Nat} (h : EngineRun (List.replicate n .ok) s ts u) (hs : s.succeeding) :
    ∃ k port script, run k s = .next (u.withEnv port script) ∧ (u.withEnv port script).succeeding := by
  obtain ⟨k, port, script, hadv⟩ := h.exists_advances (port := s.port) (script := s.script) hs.undisturbed (hs.supplies n)
  obtain ⟨hscript, hthen⟩ := hs
  have hdrop : script = s.script.drop k := hadv.script_eq
  exact ⟨k, port, script, hadv.run_eq,
    hdrop ▸ List.all_eq_true.mpr fun m hm => List.all_eq_true.mp hscript m (List.mem_of_mem_drop hm),
    h.thereafter_eq.trans hthen⟩


end Sys2Proof.Machine
end

section
/-! # The loops of writes: erasing all slots, and writing a record (`43_log_fsm.md` R178, R180, R187) -/

namespace Sys2Proof.Machine

variable {s t u : State} {a : Answer} {as : List Answer} {ts : List Transaction} {m m' : Memory}

/-! ## Rows that succeed -/

/-- The engine's next transaction is `tx`, and its success leads to `t`. -/
structure Row (s : State) (tx : Transaction) (t : State) : Prop where
  powered : s.powered = true
  transaction : s.transaction = some tx
  ok : engineStep .ok s = .next t

/-- What success and failure of a write leave in the store (`20_memory.md` R64). -/
theorem Row.of_write {addr : Nat} {v : Byte} (h : Row s (.write addr v) t) :
    t.store = Memory.write s.store addr v ∧
      ∀ l, engineStep (.err l) s = .next (raise .ioError { s with store := Memory.write s.store addr l }) := by
  obtain ⟨k, hk, hrow⟩ := engineStep_of_write h.transaction
  obtain ⟨haddr, ⟨-, rfl⟩ | ⟨l, hl, -⟩ | ⟨hn, -⟩⟩ := writeTransaction_next ((hrow .ok).symm.trans h.ok)
  · exact ⟨hk _, fun l => by rw [hrow, writeTransaction, if_pos haddr]⟩
  · cases hl
  · cases hn

/-- A row whose read fails ends the command (`20_memory.md` R63). -/
theorem Row.of_read {addr : Nat} (h : Row s (.read addr) t) (l : Byte) :
    engineStep (.err l) s = .next (raise .ioError s) := by
  obtain ⟨-, onSlot, -, hrow⟩ := engineStep_of_read h.transaction
  obtain ⟨hbc, haddr, -⟩ := slotReadStep_next ((hrow .ok).symm.trans h.ok)
  rw [hrow, slotReadStep, if_pos hbc, readTransaction, if_pos haddr]

/-- The first `n` rows of a loop, all successful. -/
theorem engineRun_rows {σ : Nat → State} {tx : Nat → Transaction} {n : Nat} (h : ∀ k < n, Row (σ k) (tx k) (σ (k + 1))) :
    EngineRun (List.replicate n .ok) (σ 0) ((List.range n).map tx) (σ n) := by
  induction n with
  | zero => exact .nil _
  | succ n ih =>
    obtain ⟨hpow, htx, hok⟩ := h n n.lt_succ_self
    rw [List.replicate_succ', List.range_succ, List.map_append]
    exact (ih fun k hk => h k (Nat.lt_succ_of_lt hk)).append (.single hpow htx hok)

/-- A write that is to be made, as a transaction. -/
def writeTx (w : Nat × Byte) : Transaction := .write w.1 w.2

/-- The first write of the pseudocode's loop fails, or it succeeds and the loop goes on. -/
theorem wholeWrites_cons {w : Nat × Byte} {ws : List (Nat × Byte)} {ok : Bool}
    (h : wholeWrites (w :: ws) as m = some (ok, m', ts)) :
    (∃ l as', as = .err l :: as' ∧ ok = false ∧ m' = Memory.write m w.1 l ∧ ts = [writeTx w]) ∨
      ∃ as' ts', as = .ok :: as' ∧ wholeWrites ws as' (Memory.write m w.1 w.2) = some (ok, m', ts') ∧
        ts = writeTx w :: ts' := by
  cases as with
  | nil => cases h
  | cons a as =>
    cases a with
    | none => cases h
    | err l => cases h; exact .inl ⟨l, as, rfl, rfl, rfl, rfl⟩
    | ok =>
      obtain ⟨⟨ok', m'', ts'⟩, h', heq⟩ := Option.map_eq_some_iff.mp h
      cases heq
      exact .inr ⟨as, ts', rfl, h', rfl⟩

/-- The rows of a loop of writes agree with the pseudocode's loop (`43_log_fsm.md` R196): to the end, or to the first write that
fails. -/
theorem engineRun_wholeWrites {σ : Nat → State} {w : Nat → Nat × Byte} {n : Nat} {ok : Bool}
    (hrow : ∀ k < n, Row (σ k) (writeTx (w k)) (σ (k + 1))) {d k : Nat} (hn : k + d = n)
    (h : wholeWrites ((List.range' k d).map w) as (σ k).store = some (ok, m', ts)) :
    ∃ u, EngineRun (as.take ts.length) (σ k) ts u ∧ (ok = true → u = σ n ∧ m' = u.store) ∧
      (ok = false → ∃ j < n, u = raise .ioError { σ j with store := m' }) := by
  induction d generalizing k as ts with
  | zero =>
    cases h
    exact ⟨_, .nil _, fun _ => by rw [← hn, Nat.add_zero]; exact ⟨rfl, rfl⟩, nofun⟩
  | succ d ih =>
    have hk := hrow k (by omega)
    obtain ⟨hstore, herr⟩ := hk.of_write
    rw [List.range'_succ, List.map_cons] at h
    obtain ⟨l, as, rfl, rfl, rfl, rfl⟩ | ⟨as, ts, rfl, h', rfl⟩ := wholeWrites_cons h
    · exact ⟨_, .single hk.powered hk.transaction (herr l), nofun, fun _ => ⟨k, by omega, rfl⟩⟩
    · rw [← hstore] at h'
      obtain ⟨u, hrun, hdone⟩ := ih (k := k + 1) (by omega) h'
      exact ⟨u, .cons hk.powered hk.transaction hk.ok hrun, hdone⟩

/-! ## The store after writes -/

/-- The store after the writes, all successful, in order. -/
def applyWrites (ws : List (Nat × Byte)) (m : Memory) : Memory :=
  ws.foldl (fun m w => Memory.write m w.1 w.2) m

@[simp] theorem applyWrites_nil (m : Memory) : applyWrites [] m = m := rfl

theorem applyWrites_range_succ (w : Nat → Nat × Byte) (n : Nat) (m : Memory) :
    applyWrites ((List.range (n + 1)).map w) m = (applyWrites ((List.range n).map w) m).write (w n).1 (w n).2 := by
  simp [applyWrites, List.range_succ]

theorem wf_applyWrites (ws : List (Nat × Byte)) (hm : m.wf = true) : (applyWrites ws m).wf = true := by
  induction ws generalizing m with
  | nil => exact hm
  | cons w ws ih => exact ih (Memory.wf_write w.1 w.2 hm)

/-- The write that erases slot `k` (R172). -/
def eraseWrite (k : Nat) : Nat × Byte := (k * 64, 0x00)

/-- The write of byte `j` of a record in slot `k` (R180). -/
def recordWrite (k : Nat) (rec : List Byte) (j : Nat) : Nat × Byte := (k * 64 + j, rec.getD j 0x00)

theorem eraseWrites_eq (n : Nat) : eraseWrites n = (List.range' 0 n).map eraseWrite := by
  rw [← List.range_eq_range']; rfl

theorem recordWrites_eq (k : Nat) (rec : List Byte) :
    recordWrites k rec = (List.range' 0 rec.length).map (recordWrite k rec) := by
  rw [← List.range_eq_range']
  apply List.ext_getElem
  · simp [recordWrites]
  · intro j h _
    simp [recordWrites, recordWrite, show j < rec.length by simpa [recordWrites] using h]

theorem read_eraseWrites (n x : Nat) (hm : m.wf = true) :
    (applyWrites ((List.range n).map eraseWrite) m).read x = if x % 64 = 0 ∧ x / 64 < n then 0x00 else m.read x := by
  induction n with
  | zero => simp
  | succ n ih =>
    rw [applyWrites_range_succ, Memory.read_write _ _ _ (wf_applyWrites _ hm), ih]
    by_cases hx : x = (eraseWrite n).1
    · have hxn : x = n * 64 := hx
      rw [if_pos hx, if_pos (by omega)]
      rfl
    · have hxn : x ≠ n * 64 := hx
      rw [if_neg hx]
      exact if_congr (by omega) rfl rfl

theorem read_recordWrites (k : Nat) (rec : List Byte) (n x : Nat) (hm : m.wf = true) :
    (applyWrites ((List.range n).map (recordWrite k rec)) m).read x =
      if k * 64 ≤ x ∧ x < k * 64 + n then rec.getD (x - k * 64) 0x00 else m.read x := by
  induction n with
  | zero => rw [if_neg (by omega)]; rfl
  | succ n ih =>
    rw [applyWrites_range_succ, Memory.read_write _ _ _ (wf_applyWrites _ hm), ih]
    by_cases hx : x = (recordWrite k rec n).1
    · have hxn : x = k * 64 + n := hx
      rw [if_pos hx, if_pos (by omega), hxn, Nat.add_sub_cancel_left]
      rfl
    · have hxn : x ≠ k * 64 + n := hx
      rw [if_neg hx]
      exact if_congr (by omega) rfl rfl

/-! ## Erasing all slots -/

/-- The rows of an erase: one slot a turn, and after the last slot what `done` says (R178, R187). -/
structure Erases (p : Phase) (done : State → State) : Prop where
  transaction : ∀ u : State, u.phase = p → u.transaction = some (.write (slotAddr u.si 0) 0x00)
  row : ∀ (u : State) (a : Answer), u.phase = p → engineStep a u = writeTransaction (slotAddr u.si 0) 0x00 a (fun v =>
    if v.si + 1 < v.config.maxEntries then { v with si := v.si + 1 } else done { v with si := v.config.maxEntries }) u

theorem erases_eWrite : Erases .eWrite finish :=
  ⟨fun u h => by simp [State.transaction, h], fun u a h => by simp only [engineStep, h]; rfl⟩

/-- After the last slot of a wraparound erase: the log is empty, and the record begins (R178, R179). -/
def afterWrap (s : State) : State := startRecord { s with nwi := 0 }

theorem erases_aErase : Erases .aErase afterWrap :=
  ⟨fun u h => by simp [State.transaction, h], fun u a h => by simp only [engineStep, h]; rfl⟩

/-- The state after `k` slots were erased. -/
def eraseState (done : State → State) (s : State) (k : Nat) : State :=
  let u := { s with si := k, store := applyWrites ((List.range k).map eraseWrite) s.store }
  if k < s.config.maxEntries then u else done u

theorem eraseState_of_lt (done : State → State) {k : Nat} (hk : k < s.config.maxEntries) :
    eraseState done s k = { s with si := k, store := applyWrites ((List.range k).map eraseWrite) s.store } := if_pos hk

theorem eraseState_zero (done : State → State) (h0 : 0 < s.config.maxEntries) (hsi : s.si = 0) :
    eraseState done s 0 = s := by
  rw [eraseState_of_lt done h0, List.range_zero, List.map_nil, applyWrites_nil, ← hsi]

theorem eraseState_last (done : State → State) (s : State) :
    eraseState done s s.config.maxEntries = done { s with
      si := s.config.maxEntries
      store := applyWrites ((List.range s.config.maxEntries).map eraseWrite) s.store } := if_neg (lt_irrefl _)

theorem row_eraseState {done : State → State} {k : Nat} (he : Erases s.phase done) (hc : s.config.wf)
    (hpow : s.powered = true) (hk : k < s.config.maxEntries) :
    Row (eraseState done s k) (writeTx (eraseWrite k)) (eraseState done s (k + 1)) := by
  rw [eraseState_of_lt done hk]
  refine ⟨hpow, he.transaction _ rfl, ?_⟩
  refine (he.row { s with si := k, store := _ } .ok rfl).trans ?_
  rw [writeTransaction, if_pos (slotAddr_lt_storeSize (offset := 0) hc hk (by decide))]
  simp only [eraseState, applyWrites_range_succ]
  split_ifs with hnext
  · rfl
  · rw [show s.config.maxEntries = k + 1 by omega]
    rfl

/-! ## Writing a record -/

/-- The record that `BUF` and `LEN` hold (`42_record_codec.md` R151). -/
def State.recordHeld (s : State) : List Byte := record (s.buf.toList.take s.len)

/-- The state after `j` bytes of the record were written. -/
def recordState (s : State) (j : Nat) : State :=
  let u := { s with bc := j, store := applyWrites ((List.range j).map (recordWrite s.nwi s.recordHeld)) s.store }
  if j < s.len + 3 then u else finish { u with nwi := s.nwi + 1 }

theorem recordState_of_lt {j : Nat} (hj : j < s.len + 3) : recordState s j =
    { s with bc := j, store := applyWrites ((List.range j).map (recordWrite s.nwi s.recordHeld)) s.store } := if_pos hj

theorem recordState_zero (hbc : s.bc = 0) : recordState s 0 = s := by
  rw [recordState_of_lt (Nat.succ_pos _), List.range_zero, List.map_nil, applyWrites_nil, ← hbc]

theorem recordState_last (s : State) : recordState s (s.len + 3) = finish { s with
    bc := s.len + 3, nwi := s.nwi + 1
    store := applyWrites ((List.range (s.len + 3)).map (recordWrite s.nwi s.recordHeld)) s.store } := if_neg (lt_irrefl _)

theorem row_recordState {j : Nat} (hs : s.Inv) (hp : s.phase = .aWrite) (hpow : s.powered = true) (hj : j < s.len + 3) :
    Row (recordState s j) (writeTx (recordWrite s.nwi s.recordHeld j)) (recordState s (j + 1)) := by
  obtain ⟨⟨hc, -⟩, hnwi, -, ⟨-, hlen, -⟩, hrec, -⟩ := (inv_of_aWrite hp).mp hs
  have hj64 : j < 64 := by omega
  have hbuf : s.buf[j]? = some (s.recordHeld.getD j 0x00) := by
    rw [State.recordHeld, ← hrec, List.getD_eq_getElem?_getD, List.getElem?_take_of_lt hj, Vector.getElem?_toList,
      Vector.getElem?_eq_getElem hj64]
    rfl
  rw [recordState_of_lt hj]
  refine ⟨hpow, ?_, ?_⟩
  · simp only [State.transaction, hp, hbuf]
    rfl
  · simp only [engineStep, hp, stepAWrite, hbuf]
    rw [writeTransaction, if_pos (slotAddr_lt_storeSize hc hnwi hj64)]
    simp only [recordState, applyWrites_range_succ, hp]
    split_ifs <;> rfl

/-! ## ERASEALL and APPEND against their pseudocode -/

theorem engineRun_wholeErase {done : State → State} {ok : Bool} (he : Erases s.phase done) (hc : s.config.wf)
    (hpow : s.powered = true) (hsi : s.si = 0)
    (h : wholeWrites (eraseWrites s.config.maxEntries) as s.store = some (ok, m', ts)) :
    ∃ u, EngineRun (as.take ts.length) s ts u ∧
      (ok = true → u = eraseState done s s.config.maxEntries ∧ m' = u.store) ∧
      (ok = false → ∃ j < s.config.maxEntries, u = raise .ioError { eraseState done s j with store := m' }) := by
  have hzero := eraseState_zero done hc.1 hsi
  rw [eraseWrites_eq, ← congrArg State.store hzero] at h
  have hrun := engineRun_wholeWrites (σ := eraseState done s) (w := eraseWrite)
    (fun k hk => row_eraseState he hc hpow hk) (Nat.zero_add _) h
  rwa [hzero] at hrun

/-- The view of a command that failed in a loop. -/
theorem view_raise (e : Status) (s : State) : (raise e s).view = s.view.close [] e := by
  simp [State.view, LogView.close]

theorem view_finish (s : State) : (finish s).view = s.view.close [] .ok := view_raise .ok s

/-- A command whose turns the script answers ends in the view its pseudocode computes (R196). -/
theorem exec_completesWith {i : Instr} {v : LogView} {n : Nat} (hready : s.ready) (hund : s.undisturbed)
    (ht : acceptEffect (.instr i) s = t) (hrun : EngineRun (s.answers.take n) t ts u) (hu : u.ready) (hv : u.view = v) :
    ∃ t, exec i s = .next t ∧ t.completesWith v ts := by
  obtain ⟨-, -, hscript, -⟩ := ht ▸ acceptEffect_keeps (.instr i) s
  have hans : t.answers = s.answers := by rw [State.answers, hscript, State.answers]
  have hund' : t.undisturbed := by rwa [State.undisturbed, hscript]
  rw [← hans] at hrun
  exact ⟨t, ht ▸ exec_of_ready i hready, hv ▸ hrun.completesWith hund' hu⟩

/-- Settles O50: the loop of `E_WRITE`. -/
theorem eraseallFollowsPseudocode : Obligations.EraseallFollowsPseudocode := by
  intro s v ts hs hready hund h
  obtain ⟨⟨ok, m', ts'⟩, hw, heq⟩ := Option.map_eq_some_iff.mp h
  cases heq
  suffices hexec : ∃ t, exec .eraseall s = .next t ∧ t.completesWith _ ts by
    obtain ⟨t, ht, hdone⟩ := hexec
    exact ⟨t, ht, hdone, rfl⟩
  obtain ⟨u, hrun, hok, hfail⟩ := engineRun_wholeErase (s := acceptEffect (.instr .eraseall) s) erases_eWrite hs.1
    hready.1 rfl hw
  cases ok with
  | true =>
    obtain ⟨rfl, rfl⟩ := hok rfl
    rw [eraseState_last] at hrun ⊢
    exact exec_completesWith hready hund rfl hrun ⟨hready.1, rfl⟩ (view_finish _)
  | false =>
    obtain ⟨j, hj, rfl⟩ := hfail rfl
    rw [eraseState_of_lt _ hj] at hrun
    exact exec_completesWith hready hund rfl hrun ⟨hready.1, rfl⟩ (view_raise _ _)

/-- The record loop, from its first byte: how it ends and with what view (R177, R180, R181). -/
theorem engineRun_wholeRecord {v : LogView} (hs : s.Inv) (hp : s.phase = .aWrite) (hpow : s.powered = true) (hbc : s.bc = 0)
    (h : wholeRecord (s.buf.toList.take s.len) as s.view = some (v, ts)) :
    ∃ u, EngineRun (as.take ts.length) s ts u ∧ u.ready ∧ u.view = v := by
  obtain ⟨⟨ok, m', ts'⟩, hw, heq⟩ := Option.map_eq_some_iff.mp h
  cases heq
  obtain ⟨-, -, -, ⟨-, hlen, -⟩, -, hcrc, -⟩ := (inv_of_aWrite hp).mp hs
  have hreclen : (record (s.buf.toList.take s.len)).length = s.len + 3 := by simp; omega
  have hzero := recordState_zero hbc
  rw [recordWrites_eq, hreclen, show s.view.store = (recordState s 0).store by rw [hzero]; rfl] at hw
  obtain ⟨u, hrun, hok, hfail⟩ := engineRun_wholeWrites (σ := recordState s) (w := recordWrite s.nwi s.recordHeld)
    (fun j hj => row_recordState hs hp hpow hj) (Nat.zero_add _) hw
  rw [hzero] at hrun
  refine ⟨u, hrun, ?_⟩
  rw [← hcrc]
  cases ok with
  | true =>
    obtain ⟨rfl, rfl⟩ := hok rfl
    rw [recordState_last]
    exact ⟨⟨hpow, rfl⟩, view_finish _⟩
  | false =>
    obtain ⟨j, hj, rfl⟩ := hfail rfl
    rw [recordState_of_lt hj]
    exact ⟨⟨hpow, rfl⟩, view_raise _ _⟩

/-- After loading and encoding, `BUF` begins with the payload. -/
theorem startRecord_loadMessage_take (m : List Byte) (s : State) :
    (startRecord (loadMessage m s)).buf.toList.take (startRecord (loadMessage m s)).len = payload m := by
  rw [startRecord_len, (startRecord_buf_take (by simp)).1, loadMessage_take]

theorem wholeAppend_room {n : Nat} {m : List Byte} {v : LogView} (hm : m ≠ []) (h : v.nwi < n) :
    wholeAppend n m as v = wholeRecord (payload m) as v := by
  rw [wholeAppend, if_neg hm, if_pos h]

theorem appendRoom_followsPseudocode {m : List Byte} {v : LogView} (hs : s.Inv) (hready : s.ready) (hund : s.undisturbed)
    (hm : isMessage m = true) (hnil : m ≠ []) (hroom : s.nwi < s.config.maxEntries)
    (h : wholeRecord (payload m) s.answers s.view = some (v, ts)) :
    ∃ t, exec (.append m) s = .next t ∧ t.completesWith v ts := by
  have hinv := acceptEffect_inv (c := .instr (.append m)) hm hs hready.2
  have haccept := acceptEffect_append_room hnil hroom
  rw [haccept] at hinv
  rw [← startRecord_loadMessage_take m s] at h
  obtain ⟨u, hrun, hu, hv⟩ := engineRun_wholeRecord hinv rfl hready.1 rfl h
  exact exec_completesWith hready hund haccept hrun hu hv

/-- The state in which the wraparound erase begins (R178). -/
def startErase (m : List Byte) (s : State) : State :=
  { loadMessage m s with si := 0, phase := .aErase }

/-- The state after the wraparound erase of an APPEND. -/
def wrapped (m : List Byte) (s : State) : State :=
  afterWrap { startErase m s with
    si := s.config.maxEntries, store := applyWrites ((List.range s.config.maxEntries).map eraseWrite) s.store }

theorem eraseState_startErase_last (m : List Byte) (s : State) :
    eraseState afterWrap (startErase m s) s.config.maxEntries = wrapped m s :=
  eraseState_last afterWrap (startErase m s)

theorem wrapped_take (m : List Byte) (s : State) : (wrapped m s).buf.toList.take (wrapped m s).len = payload m :=
  startRecord_loadMessage_take m s

theorem appendFull_followsPseudocode {m : List Byte} {v : LogView} (hs : s.Inv) (hready : s.ready) (hund : s.undisturbed)
    (hm : isMessage m = true) (hnil : m ≠ []) (hfull : s.config.maxEntries ≤ s.nwi)
    (h : wholeAppend s.config.maxEntries m s.answers s.view = some (v, ts)) :
    ∃ t, exec (.append m) s = .next t ∧ t.completesWith v ts := by
  have hinv := acceptEffect_inv (c := .instr (.append m)) hm hs hready.2
  have haccept : acceptEffect _ s = startErase m s := acceptEffect_append_full hnil hfull
  rw [haccept] at hinv
  rw [wholeAppend, if_neg hnil, if_neg (by exact not_lt.mpr hfull)] at h
  split at h
  case h_1 => cases h
  case h_2 st ts' hw =>
    cases h
    obtain ⟨u, hrun, -, hfail⟩ := engineRun_wholeErase (s := startErase m s) erases_aErase hs.1 hready.1 rfl hw
    obtain ⟨j, hj, rfl⟩ := hfail rfl
    rw [eraseState_of_lt _ hj] at hrun
    exact exec_completesWith hready hund haccept hrun ⟨hready.1, rfl⟩ (view_raise _ _)
  case h_3 st ts' hw =>
    obtain ⟨⟨v', ts''⟩, hrec, heq⟩ := Option.map_eq_some_iff.mp h
    cases heq
    obtain ⟨w, hrun, hok, -⟩ := engineRun_wholeErase (s := startErase m s) erases_aErase hs.1 hready.1 rfl hw
    obtain ⟨rfl, rfl⟩ := hok rfl
    rw [show (startErase m s).config = s.config from rfl, eraseState_startErase_last] at hrun hrec
    rw [← wrapped_take m s] at hrec
    obtain ⟨u, hrun', hu, hv⟩ := engineRun_wholeRecord (hrun.inv hinv) rfl hready.1 rfl hrec
    have hboth := hrun.append hrun'
    rw [← List.take_add, ← List.length_append] at hboth
    exact exec_completesWith hready hund haccept hboth hu hv

/-- Settles O48: the empty message, the record loop, and the erase loop with the record loop behind it. -/
theorem appendFollowsPseudocode : Obligations.AppendFollowsPseudocode := by
  intro s m v ts hs hready hund hm h
  by_cases hnil : m = []
  · subst hnil
    cases h
    exact exec_completesWith (n := 0) hready hund rfl (.nil _) ⟨hready.1, rfl⟩ (view_raise _ _)
  obtain hroom | hfull := lt_or_ge s.nwi s.config.maxEntries
  · exact appendRoom_followsPseudocode hs hready hund hm hnil hroom ((wholeAppend_room hnil (by exact hroom)).symm.trans h)
  · exact appendFull_followsPseudocode hs hready hund hm hnil hfull h

end Sys2Proof.Machine
end

section
/-! # The scans: READALL and RECOVER read slot after slot up to the first that is not valid (`43_log_fsm.md` R183 to R185,
R190, R191) -/

namespace Sys2Proof.Machine

variable {s t u : State} {a : Answer} {as : List Answer} {ts : List Transaction} {m : Memory}

/-! ## What READALL and RECOVER share -/

/-- The commands that scan the log. -/
inductive ScanCommand where
  | readall
  | recover

namespace ScanCommand

def instr : ScanCommand → Instr
  | readall => .readall
  | recover => .recover

def phase : ScanCommand → Phase
  | readall => .rRead
  | recover => .vRead

/-- What the command emits of the string of a valid slot. -/
def frames : ScanCommand → List Byte → List Rsp
  | readall, str => [.str str]
  | recover, _ => []

/-- `NWI` after a scan that stopped at slot `stop` (R191). -/
def index : ScanCommand → Nat → Nat → Nat
  | readall, _, nwi => nwi
  | recover, stop, _ => stop

/-- What the command does with a slot it has read: `readallSlot` or `recoverSlot`. -/
def onSlot : ScanCommand → Verdict → State → State
  | readall => readallSlot
  | recover => recoverSlot

end ScanCommand

open ScanCommand

variable {c : ScanCommand}

theorem onSlot_invalid (c : ScanCommand) (s : State) :
    c.onSlot .invalid s = finish { s with nwi := c.index s.si s.nwi } := by
  cases c <;> rfl

theorem onSlot_valid_of_lt (c : ScanCommand) (str : List Byte) (h : s.si + 1 < s.config.maxEntries) :
    c.onSlot (.valid str) s = { s with si := s.si + 1, bc := 0, out := s.out ++ c.frames str } := by
  cases c with
  | readall => exact (readallSlot_valid str s).trans (if_pos h)
  | recover =>
    rw [frames, List.append_nil]
    exact if_pos h

theorem onSlot_valid_of_last (c : ScanCommand) (str : List Byte) (h : s.si + 1 = s.config.maxEntries) :
    c.onSlot (.valid str) s =
      finish { s with si := s.si + 1, nwi := c.index (s.si + 1) s.nwi, out := s.out ++ c.frames str } := by
  rw [h]
  cases c with
  | readall => exact (readallSlot_valid str s).trans (if_neg h.not_lt)
  | recover =>
    rw [frames, List.append_nil]
    exact if_neg h.not_lt

/-- A powered engine that scans the log for the command `c`. -/
structure Scanning (c : ScanCommand) (s : State) : Prop where
  inv : s.Inv
  phase : s.phase = c.phase
  powered : s.powered = true

theorem Scanning.reads (h : Scanning c s) : s.phase = .rRead ∨ s.phase = .vRead := by
  rw [h.phase]
  cases c with
  | readall => exact .inl rfl
  | recover => exact .inr rfl

theorem Scanning.readWf (h : Scanning c s) : s.readWf :=
  ((inv_of_read h.reads).mp h.inv).2

theorem Scanning.transaction (h : Scanning c s) : s.transaction = some (.read (slotAddr s.si s.bc)) := by
  obtain hp | hp := h.reads <;> simp [State.transaction, hp]

theorem Scanning.engineStep_eq (h : Scanning c s) (a : Answer) : engineStep a s = slotReadStep c.onSlot a s := by
  have hp := h.phase
  cases c <;> simp only [engineStep, hp, ScanCommand.phase] <;> rfl

/-! ## The reads of a slot -/

/-- A successful read: one more byte in `BUF`, or the slot's last byte and its decoding (R184). -/
theorem Scanning.engineStep_ok (h : Scanning c s) :
    ∃ b, b = s.buf.setIfInBounds s.bc (Memory.read s.store (slotAddr s.si s.bc)) ∧
      ((s.bc + 1 < 64 ∧ engineStep .ok s = .next { s with buf := b, bc := s.bc + 1 }) ∨
        (s.bc = 63 ∧ engineStep .ok s = .next (c.onSlot (decodeRecord b.toList)
          { s with buf := b, crc := decodeCrc b.toList s.crc }))) := by
  obtain ⟨t, ht⟩ := engineStep_exists_next h.inv .ok
  have hread := (h.engineStep_eq .ok).symm.trans ht
  obtain ⟨-, -, ⟨ha, -⟩ | ⟨⟨_, ha⟩, -⟩ | ⟨-, b, hb, hcase⟩⟩ := slotReadStep_next hread
  · cases ha
  · cases ha
  · refine ⟨b, hb, ?_⟩
    rw [ht]
    obtain ⟨hnext, rfl⟩ | ⟨hlast, rfl⟩ := hcase
    · exact .inl ⟨hnext, rfl⟩
    · exact .inr ⟨hlast, rfl⟩

/-- A byte that is not the slot's last. -/
theorem Scanning.row_byte (h : Scanning c s) (hbc : s.bc + 1 < 64) :
    ∃ b, Row s (.read (slotAddr s.si s.bc)) { s with buf := b, bc := s.bc + 1 } := by
  obtain ⟨b, -, ⟨-, hok⟩ | ⟨hlast, -⟩⟩ := h.engineStep_ok
  · exact ⟨b, h.powered, h.transaction, hok⟩
  · omega

/-- The 64th byte: `BUF` holds the slot, which is decoded. -/
theorem Scanning.row_last (h : Scanning c s) (hbc : s.bc = 63) :
    ∃ b, Row s (.read (slotAddr s.si s.bc)) (c.onSlot (decodeRecord (slotBytes s.store s.si))
      { s with buf := b, crc := decodeCrc (slotBytes s.store s.si) s.crc }) := by
  have hmirror := readByte_mirrors h.readWf
  obtain ⟨b, hb, ⟨hnext, -⟩ | ⟨-, hok⟩⟩ := h.engineStep_ok
  · omega
  · rw [← hb] at hmirror
    rw [toList_eq_slotBytes fun j hj => hmirror j (by omega)] at hok
    exact ⟨b, h.powered, h.transaction, hok⟩

theorem Scanning.next {tx : Transaction} (h : Scanning c s) (hrow : Row s tx t) (hp : t.phase = s.phase) : Scanning c t :=
  ⟨engineStep_inv h.inv hrow.ok, hp.trans h.phase, (engineStep_keeps hrow.ok).powered.trans h.powered⟩

/-- Part of a slot's reads, all successful. -/
theorem Scanning.engineRun_bytes {n : Nat} (h : Scanning c s) (hn : s.bc + n < 64) :
    ∃ b ts, EngineRun (List.replicate n .ok) s ts { s with buf := b, bc := s.bc + n } := by
  induction n generalizing s with
  | zero => exact ⟨s.buf, [], .nil s⟩
  | succ n ih =>
    obtain ⟨b, hrow⟩ := h.row_byte (by omega)
    obtain ⟨b', ts, hrun⟩ := ih (h.next hrow rfl) (by dsimp only; omega)
    rw [show s.bc + 1 + n = s.bc + (n + 1) by omega] at hrun
    exact ⟨b', _, .cons hrow.powered hrow.transaction hrow.ok hrun⟩

/-- The first read of the pseudocode's loop fails, or it succeeds and the loop goes on. -/
theorem wholeReads_succ {k j d : Nat} {ok : Bool} (h : wholeReads k j (d + 1) as = some (ok, ts)) :
    (∃ l as', as = .err l :: as' ∧ ok = false ∧ ts = [.read (slotAddr k j)]) ∨
      ∃ as' ts', as = .ok :: as' ∧ wholeReads k (j + 1) d as' = some (ok, ts') ∧ ts = .read (slotAddr k j) :: ts' := by
  cases as with
  | nil => cases h
  | cons a as =>
    cases a with
    | none => cases h
    | err l => cases h; exact .inl ⟨l, as, rfl, rfl, rfl⟩
    | ok =>
      obtain ⟨⟨ok', ts'⟩, h', heq⟩ := Option.map_eq_some_iff.mp h
      cases heq
      exact .inr ⟨as, ts', rfl, h', rfl⟩

/-- The reads of a slot agree with the pseudocode's (R196): to the decoding, or to the first read that fails. -/
theorem Scanning.engineRun_wholeReads {d : Nat} {ok : Bool} (h : Scanning c s) (hd : s.bc + (d + 1) = 64)
    (hw : wholeReads s.si s.bc (d + 1) as = some (ok, ts)) :
    ∃ b u, EngineRun (as.take ts.length) s ts u ∧
      (ok = true → ts.length = d + 1 ∧ u = c.onSlot (decodeRecord (slotBytes s.store s.si))
        { s with buf := b, bc := 63, crc := decodeCrc (slotBytes s.store s.si) s.crc }) ∧
      (ok = false → ∃ j, u = raise .ioError { s with buf := b, bc := j }) := by
  induction d generalizing s as ts with
  | zero =>
    have hbc : s.bc = 63 := by omega
    obtain ⟨b, hpow, htx, hok⟩ := h.row_last hbc
    obtain ⟨l, as, rfl, rfl, rfl⟩ | ⟨as, ts, rfl, hnil, rfl⟩ := wholeReads_succ hw
    · exact ⟨s.buf, _, .single hpow htx (Row.of_read ⟨hpow, htx, hok⟩ l), nofun, fun _ => ⟨s.bc, rfl⟩⟩
    · cases hnil
      refine ⟨b, _, .single hpow htx hok, fun _ => ⟨rfl, ?_⟩, nofun⟩
      rw [← hbc]
  | succ d ih =>
    obtain ⟨b, hrow⟩ := h.row_byte (by omega)
    obtain ⟨l, as, rfl, rfl, rfl⟩ | ⟨as, ts, rfl, hw', rfl⟩ := wholeReads_succ hw
    · exact ⟨s.buf, _, .single hrow.powered hrow.transaction (hrow.of_read l), nofun, fun _ => ⟨s.bc, rfl⟩⟩
    · obtain ⟨b', u, hrun, hok, hfail⟩ := ih (h.next hrow rfl) (by dsimp only; omega) hw'
      exact ⟨b', u, .cons hrow.powered hrow.transaction hrow.ok hrun,
        fun ht => ⟨congrArg (· + 1) (hok ht).1, (hok ht).2⟩, hfail⟩

/-! ## The scan -/

/-- The view a scan leaves (R183, R190). -/
def ScanCommand.result (c : ScanCommand) (v : LogView) (r : Scan) : LogView :=
  LogView.close { v with crc := r.crc, nwi := (r.stop.map fun k => c.index k v.nwi).getD v.nwi }
    (r.strings.flatMap c.frames) (endStatus r.stop.isSome)

/-- How the pseudocode's scan goes on from a slot: a read fails, the slot is not valid, or the scan takes its string along. -/
theorem scanSlots_succ {k n : Nat} {crc : Word} {r : Scan} (h : scanSlots m k (n + 1) crc as = some r) :
    (∃ ts, wholeReads k 0 64 as = some (false, ts) ∧ r = ⟨[], crc, none, ts⟩) ∨
      ∃ ts, wholeReads k 0 64 as = some (true, ts) ∧
        ((decodeRecord (slotBytes m k) = .invalid ∧ r = ⟨[], decodeCrc (slotBytes m k) crc, some k, ts⟩) ∨
          ∃ str r', decodeRecord (slotBytes m k) = .valid str ∧
            scanSlots m (k + 1) n (decodeCrc (slotBytes m k) crc) (as.drop 64) = some r' ∧
            r = { r' with strings := str :: r'.strings, trace := ts ++ r'.trace }) := by
  rw [scanSlots] at h
  split at h
  case h_1 => cases h
  case h_2 ts hreads => cases h; exact .inl ⟨ts, hreads, rfl⟩
  case h_3 ts hreads =>
    refine .inr ⟨ts, hreads, ?_⟩
    dsimp only at h
    split at h
    case h_1 hd => cases h; exact .inl ⟨hd, rfl⟩
    case h_2 str hd =>
      obtain ⟨r', hr', rfl⟩ := Option.map_eq_some_iff.mp h
      exact .inr ⟨str, r', hd, hr', rfl⟩

/-- The scan agrees with the pseudocode's (R196). -/
theorem Scanning.engineRun_scanSlots {n : Nat} {r : Scan} (h : Scanning c s) (hbc : s.bc = 0)
    (hn : s.si + n = s.config.maxEntries) (hw : scanSlots s.store s.si n s.crc as = some r) :
    ∃ u, EngineRun (as.take r.trace.length) s r.trace u ∧ u.ready ∧ u.view = c.result s.view r := by
  induction n generalizing s as r with
  | zero =>
    have hlt := h.readWf.1
    omega
  | succ n ih =>
    obtain ⟨ts, hreads, rfl⟩ | ⟨ts, hreads, hslot⟩ := scanSlots_succ hw <;> rw [← hbc] at hreads <;>
      obtain ⟨b, u, hrun, hok, hfail⟩ := h.engineRun_wholeReads (by omega) hreads
    · obtain ⟨j, rfl⟩ := hfail rfl
      exact ⟨_, hrun, ⟨h.powered, rfl⟩, view_raise _ _⟩
    obtain ⟨hlen, rfl⟩ := hok rfl
    obtain ⟨hd, rfl⟩ | ⟨str, r', hd, hw', rfl⟩ := hslot <;> rw [hd] at hrun
    · rw [onSlot_invalid] at hrun
      exact ⟨_, hrun, ⟨h.powered, rfl⟩, view_finish _⟩
    obtain rfl | hnext := Nat.eq_zero_or_pos n
    · cases hw'
      rw [onSlot_valid_of_last c str (by exact hn)] at hrun
      rw [List.append_nil]
      refine ⟨_, hrun, ⟨h.powered, rfl⟩, (view_finish _).trans ?_⟩
      simp [ScanCommand.result, State.view, LogView.close, endStatus]
    · rw [onSlot_valid_of_lt c str (by dsimp only; omega)] at hrun
      have hscan : Scanning c _ := ⟨hrun.inv h.inv, h.phase, h.powered⟩
      obtain ⟨u, hrun', hu, hv⟩ := ih hscan rfl (by dsimp only; omega) hw'
      rw [← show ts.length = 64 from hlen] at hrun'
      have hboth := hrun.append hrun'
      rw [← List.take_add, ← List.length_append] at hboth
      refine ⟨u, hboth, hu, hv.trans ?_⟩
      simp [ScanCommand.result, State.view, LogView.close]

theorem scanning_acceptEffect (c : ScanCommand) (hs : s.Inv) (hready : s.ready) :
    Scanning c (acceptEffect (.instr c.instr) s) := by
  cases c with
  | readall => exact ⟨acceptEffect_inv rfl hs hready.2, rfl, hready.1⟩
  | recover => exact ⟨acceptEffect_inv rfl hs hready.2, rfl, hready.1⟩

/-- The accept step of a scan: slot 0, byte 0 (R175). -/
theorem acceptEffect_scan (c : ScanCommand) (s : State) :
    acceptEffect (.instr c.instr) s = { s with si := 0, bc := 0, phase := c.phase } := by
  cases c <;> rfl

theorem scan_followsPseudocode (c : ScanCommand) {r : Scan} (hs : s.Inv) (hready : s.ready) (hund : s.undisturbed)
    (h : scanSlots s.store 0 s.config.maxEntries s.crc s.answers = some r) :
    ∃ t, exec c.instr s = .next t ∧ t.completesWith (c.result s.view r) r.trace := by
  have hscan := scanning_acceptEffect c hs hready
  rw [acceptEffect_scan] at hscan
  obtain ⟨u, hrun, hu, hv⟩ := hscan.engineRun_scanSlots rfl (Nat.zero_add _) h
  exact exec_completesWith hready hund (acceptEffect_scan c s) hrun hu hv

/-- Settles O49: the scan that emits the strings. -/
theorem readallFollowsPseudocode : Obligations.ReadallFollowsPseudocode := by
  intro s v ts hs hready hund h
  obtain ⟨r, hr, heq⟩ := Option.map_eq_some_iff.mp h
  cases heq
  have hview : ScanCommand.readall.result s.view r =
      LogView.close { s.view with crc := r.crc } (r.strings.map .str) (endStatus r.stop.isSome) := by
    rw [ScanCommand.result, List.map_eq_flatMap]
    cases r.stop <;> rfl
  exact hview ▸ scan_followsPseudocode .readall hs hready hund hr

/-- Settles O51: the scan that sets `NWI` to where it stopped. -/
theorem recoverFollowsPseudocode : Obligations.RecoverFollowsPseudocode := by
  intro s v ts hs hready hund h
  obtain ⟨r, hr, heq⟩ := Option.map_eq_some_iff.mp h
  cases heq
  have hview : ScanCommand.recover.result s.view r =
      LogView.close { s.view with crc := r.crc, nwi := r.stop.getD s.view.nwi } [] (endStatus r.stop.isSome) := by
    have hframes : r.strings.flatMap ScanCommand.recover.frames = [] := List.flatMap_eq_nil_iff.mpr fun _ _ => rfl
    rw [ScanCommand.result, hframes]
    cases r.stop <;> rfl
  exact hview ▸ scan_followsPseudocode .recover hs hready hund hr

end Sys2Proof.Machine
end

section
/-! # The log of strings, where every transaction succeeds (`43_log_fsm.md` R185, R191, R194) -/

namespace Sys2Proof.Machine

open ScanCommand

variable {s t u : State} {as : List Answer} {ts : List Transaction} {m m' : Memory} {c : ScanCommand} {k n : Nat}

/-! ## The strings held -/

theorem stringsFrom_of_none (h : slotString m k = none) (n : Nat) : stringsFrom m k n = [] := by
  cases n with
  | zero => rfl
  | succ n => rw [stringsFrom, h]

theorem stringsFrom_succ {str : List Byte} (h : slotString m k = some str) (n : Nat) :
    stringsFrom m k (n + 1) = str :: stringsFrom m (k + 1) n := by
  rw [stringsFrom, h]

/-- Valid slots in front give one string each. -/
theorem stringsFrom_add (h : ∀ i < n, validSlot m (k + i)) (d : Nat) :
    stringsFrom m k (n + d) = stringsFrom m k n ++ stringsFrom m (k + n) d ∧ (stringsFrom m k n).length = n := by
  induction n generalizing k with
  | zero => simp [stringsFrom]
  | succ n ih =>
    obtain ⟨str, hstr⟩ := Option.isSome_iff_exists.mp (h 0 (Nat.succ_pos n))
    rw [Nat.add_zero] at hstr
    obtain ⟨happ, hlen⟩ := ih (k := k + 1) fun i hi => by
      have := h (i + 1) (by omega)
      rwa [← Nat.add_assoc, Nat.add_right_comm] at this
    rw [Nat.succ_add, stringsFrom_succ hstr, stringsFrom_succ hstr, happ, List.length_cons, hlen,
      show k + 1 + n = k + (n + 1) by omega]
    exact ⟨rfl, rfl⟩

/-- The scan stops at the first slot that is not valid, or behind the last. -/
theorem stringsFrom_spec (m : Memory) (k n : Nat) :
    (stringsFrom m k n).length ≤ n ∧ (∀ i < (stringsFrom m k n).length, validSlot m (k + i)) ∧
      ((stringsFrom m k n).length < n → ¬ validSlot m (k + (stringsFrom m k n).length)) := by
  induction n generalizing k with
  | zero => simp [stringsFrom]
  | succ n ih =>
    cases h : slotString m k with
    | none =>
      rw [stringsFrom_of_none h]
      simp [validSlot, h]
    | some str =>
      obtain ⟨hle, hvalid, hstop⟩ := ih (k := k + 1)
      rw [stringsFrom_succ h, List.length_cons]
      refine ⟨by omega, fun i hi => ?_, fun hlt => ?_⟩
      · cases i with
        | zero => rw [Nat.add_zero, validSlot, h]; rfl
        | succ i =>
          rw [show k + (i + 1) = k + 1 + i by omega]
          exact hvalid i (by omega)
      · rw [show k + ((stringsFrom m (k + 1) n).length + 1) = k + 1 + (stringsFrom m (k + 1) n).length by omega]
        exact hstop (by omega)

theorem stringsFrom_congr (h : ∀ i < n, slotString m' (k + i) = slotString m (k + i)) :
    stringsFrom m' k n = stringsFrom m k n := by
  induction n generalizing k with
  | zero => rfl
  | succ n ih =>
    have h0 := h 0 (Nat.succ_pos n)
    rw [Nat.add_zero] at h0
    rw [stringsFrom, stringsFrom, h0, ih fun i hi => ?_]
    have := h (i + 1) (by omega)
    rwa [← Nat.add_assoc, Nat.add_right_comm] at this

theorem slotString_congr (h : ∀ j < 64, m'.read (slotAddr k j) = m.read (slotAddr k j)) : slotString m' k = slotString m k := by
  have hbytes : slotBytes m' k = slotBytes m k := List.map_congr_left fun j hj => h j (List.mem_range.mp hj)
  rw [slotString, slotString, hbytes]

/-- An erased slot holds no string (`20_memory.md` R55, `42_record_codec.md` R155). -/
theorem slotString_of_erased (h : erasedSlot m k) : slotString m k = none := by
  refine slotString_eq_none_iff.mpr (decodeRecord_of_none (terminatorIndex_eq_none_iff.mpr (.inl ?_)))
  rw [slotBytes_getElem? m k (by decide), h]

/-- The strings of a log whose first `n` slots are valid and whose next is erased, if it exists. -/
theorem strings_of_valid_erased (hn : n ≤ s.config.maxEntries) (hvalid : ∀ k < n, validSlot s.store k)
    (herased : n < s.config.maxEntries → erasedSlot s.store n) :
    s.strings = stringsFrom s.store 0 n ∧ s.strings.length = n := by
  obtain ⟨d, hd⟩ := Nat.exists_eq_add_of_le hn
  obtain ⟨happ, hlen⟩ := stringsFrom_add (m := s.store) (k := 0) (n := n) (by simpa using hvalid) d
  have hrest : stringsFrom s.store (0 + n) d = [] := by
    rw [Nat.zero_add]
    cases d with
    | zero => rfl
    | succ d => exact stringsFrom_of_none (slotString_of_erased (herased (by omega))) _
  rw [hrest, List.append_nil, ← hd] at happ
  exact ⟨happ, (congrArg List.length happ).trans hlen⟩

theorem State.clean.strings_eq (h : s.clean) (hn : s.nwi ≤ s.config.maxEntries) :
    s.strings = stringsFrom s.store 0 s.nwi ∧ s.strings.length = s.nwi := by
  obtain ⟨-, hvalid, herased⟩ := h
  exact strings_of_valid_erased hn hvalid fun hlt => herased _ hlt le_rfl

/-! ## A scan that succeeds -/

theorem wholeReads_ok (k j n d : Nat) :
    ∃ ts, wholeReads k j n (List.replicate (n + d) .ok) = some (true, ts) ∧ ts.length = n := by
  induction n generalizing j with
  | zero => exact ⟨[], by rw [wholeReads], rfl⟩
  | succ n ih =>
    obtain ⟨ts, hts, hlen⟩ := ih (j + 1)
    rw [Nat.succ_add, List.replicate_succ, wholeReads, hts]
    exact ⟨_, rfl, congrArg (· + 1) hlen⟩

/-- The pseudocode's scan where every read succeeds. -/
theorem scanSlots_ok (m : Memory) (k n : Nat) (crc : Word) :
    ∃ r, scanSlots m k n crc (List.replicate (64 * n) .ok) = some r ∧ r.strings = stringsFrom m k n ∧
      r.stop = some (k + (stringsFrom m k n).length) ∧ r.trace.length = 64 * min ((stringsFrom m k n).length + 1) n := by
  induction n generalizing k crc with
  | zero => exact ⟨_, rfl, rfl, rfl, rfl⟩
  | succ n ih =>
    obtain ⟨ts, hts, hlen⟩ := wholeReads_ok k 0 64 (64 * n)
    rw [scanSlots, show 64 * (n + 1) = 64 + 64 * n by omega, hts]
    dsimp only
    cases hd : decodeRecord (slotBytes m k) with
    | invalid =>
      rw [stringsFrom_of_none (slotString_eq_none_iff.mpr hd)]
      exact ⟨_, rfl, rfl, rfl, by simp [hlen]⟩
    | valid str =>
      obtain ⟨r, hr, hstrings, hstop, htrace⟩ := ih (k + 1) (decodeCrc (slotBytes m k) crc)
      rw [List.drop_replicate, Nat.add_sub_cancel_left, hr, stringsFrom_succ (slotString_eq_some_iff.mpr hd)]
      refine ⟨_, rfl, congrArg (str :: ·) hstrings, ?_, ?_⟩
      · rw [hstop, List.length_cons, Nat.add_assoc, Nat.add_comm 1]
      · rw [List.length_append, hlen, htrace, List.length_cons]
        omega

theorem EngineRun.config_eq (h : EngineRun as s ts u) : u.config = s.config := by
  induction h with
  | nil => rfl
  | cons _ _ hstep _ ih => exact ih.trans (engineStep_keeps hstep).appends.1

/-- What a successful scan leaves (R185, R191). -/
structure Scanned (c : ScanCommand) (s u : State) : Prop where
  inv : u.Inv
  ready : u.ready
  config : u.config = s.config
  store : u.store = s.store
  nwi : u.nwi = c.index s.strings.length s.nwi
  out : u.out = s.out ++ s.strings.flatMap c.frames ++ [.status .ok]

theorem engineRun_scan_ok (c : ScanCommand) (hs : s.Inv) (hready : s.ready) :
    ∃ ts u, EngineRun (List.replicate s.scanReads .ok) (acceptEffect (.instr c.instr) s) ts u ∧ Scanned c s u := by
  have hscan := scanning_acceptEffect c hs hready
  rw [acceptEffect_scan] at hscan ⊢
  obtain ⟨r, hr, hstrings, hstop, htrace⟩ := scanSlots_ok s.store 0 s.config.maxEntries s.crc
  obtain ⟨u, hrun, hu, hv⟩ := hscan.engineRun_scanSlots rfl (Nat.zero_add _) hr
  have hlen : r.trace.length ≤ 64 * s.config.maxEntries := by rw [htrace]; exact Nat.mul_le_mul_left _ (Nat.min_le_right _ _)
  rw [List.take_replicate, Nat.min_eq_left hlen, htrace] at hrun
  have hresult : c.result s.view r =
      LogView.close { s.view with crc := r.crc, nwi := c.index s.strings.length s.nwi } (s.strings.flatMap c.frames) .ok := by
    simp [ScanCommand.result, hstop, hstrings, endStatus, State.strings, State.view]
  have hview := hv.trans hresult
  exact ⟨_, u, hrun, hrun.inv hscan.inv, hu, hrun.config_eq, congrArg LogView.store hview, congrArg LogView.nwi hview,
    congrArg LogView.out hview⟩

theorem succeeding_acceptEffect (i : Instr) (h : s.succeeding) : (acceptEffect (.instr i) s).succeeding := by
  obtain ⟨-, -, hscript, hthen⟩ := acceptEffect_keeps (.instr i) s
  rw [State.succeeding, hscript, hthen]
  exact h

/-- A command whose turns all succeed, run to its end. -/
theorem exec_run_of_succeeding {i : Instr} {N : Nat} (hready : s.ready) (hsucc : s.succeeding)
    (h : EngineRun (List.replicate N .ok) (acceptEffect (.instr i) s) ts u) :
    ∃ t n port script, exec i s = .next t ∧ run n t = .next (u.withEnv port script) ∧ (u.withEnv port script).succeeding := by
  obtain ⟨n, port, script, hrun, hsucc'⟩ := h.exists_run_of_succeeding (succeeding_acceptEffect i hsucc)
  exact ⟨_, n, port, script, exec_of_ready i hready, hrun, hsucc'⟩

theorem exec_scan_of_succeeding (c : ScanCommand) (hs : s.Inv) (hready : s.ready) (hsucc : s.succeeding) :
    ∃ t n u, exec c.instr s = .next t ∧ run n t = .next u ∧ Scanned c s u := by
  obtain ⟨ts, u, hrun, hinv, hu, hconfig, hstore, hnwi, hout⟩ := engineRun_scan_ok c hs hready
  obtain ⟨t, n, port, script, hexec, hn, -⟩ := exec_run_of_succeeding hready hsucc hrun
  exact ⟨t, n, _, hexec, hn, hinv, hu, hconfig, hstore, hnwi, hout⟩

theorem flatMap_frames_readall (strs : List (List Byte)) : strs.flatMap ScanCommand.readall.frames = strs.map .str :=
  List.map_eq_flatMap.symm

theorem flatMap_frames_recover (strs : List (List Byte)) : strs.flatMap ScanCommand.recover.frames = [] :=
  List.flatMap_eq_nil_iff.mpr fun _ _ => rfl

/-- Settles O54: both scans stop at the end of the strings held. -/
theorem recoverCountsReadallStrings : Obligations.RecoverCountsReadallStrings := by
  intro s hs hready hsucc
  obtain ⟨t, n, u, hexec, hn, -, hu, -, hstore, hnwi, hout⟩ := exec_scan_of_succeeding .recover hs hready hsucc
  obtain ⟨t', n', u', hexec', hn', -, hu', -, hstore', hnwi', hout'⟩ := exec_scan_of_succeeding .readall hs hready hsucc
  rw [flatMap_frames_recover, List.append_nil] at hout
  rw [flatMap_frames_readall] at hout'
  obtain ⟨hle, hvalid, hstop⟩ := stringsFrom_spec s.store 0 s.config.maxEntries
  have hnwi : u.nwi = s.strings.length := hnwi
  refine ⟨⟨t, n, u, hexec, hn, hu, hstore, hnwi, hout, ?_, ?_⟩, t', n', u', hexec', hn', hu', hstore', hnwi', hout'⟩
  · rw [hnwi]
    simpa [State.strings] using hvalid
  · rw [hnwi]
    obtain hlt | heq := Nat.lt_or_eq_of_le hle
    · exact .inl ⟨hlt, by simpa [State.strings] using hstop hlt⟩
    · exact .inr heq

/-! ## Clean logs -/

theorem clean_congr (h : s.clean) (hu : u.ready) (hconfig : u.config = s.config) (hstore : u.store = s.store)
    (hnwi : u.nwi = s.nwi) : u.clean := by
  obtain ⟨-, hvalid, herased⟩ := h
  rw [State.clean, hconfig, hstore, hnwi]
  exact ⟨hu, hvalid, herased⟩

/-- Settles O56: the scans leave the store, and RECOVER counts the `NWI` strings there are. -/
theorem readingKeepsLogClean : Obligations.ReadingKeepsLogClean := by
  intro s hs hclean hsucc
  have hready := hclean.1
  obtain ⟨-, hlen⟩ := hclean.strings_eq hs.base.2.1.1
  refine ⟨hlen, ?_, ?_, fun i hi => ?_⟩
  · obtain ⟨t, n, u, hexec, hn, -, hu, hconfig, hstore, hnwi, hout⟩ := exec_scan_of_succeeding .readall hs hready hsucc
    rw [flatMap_frames_readall] at hout
    exact ⟨t, n, u, hexec, hn, clean_congr hclean hu hconfig hstore hnwi, hstore, hout⟩
  · obtain ⟨t, n, u, hexec, hn, -, hu, hconfig, hstore, hnwi, -⟩ := exec_scan_of_succeeding .recover hs hready hsucc
    exact ⟨t, n, u, hexec, hn, clean_congr hclean hu hconfig hstore (hnwi.trans hlen), hnwi.trans hlen, hstore⟩
  · have hexec := exec_of_ready i hready
    obtain ⟨hframe, -, -⟩ := registerCommandsFrame i s _ hi hexec
    refine ⟨_, hexec, ?_⟩
    rw [hframe]
    exact clean_congr hclean hready rfl rfl rfl

/-! ## Writing loops that succeed -/

theorem engineRun_erase {done : State → State} {j : Nat} (he : Erases s.phase done) (hc : s.config.wf)
    (hpow : s.powered = true) (hsi : s.si = 0) (hj : j ≤ s.config.maxEntries) :
    ∃ ts, EngineRun (List.replicate j .ok) s ts (eraseState done s j) := by
  have hrun := engineRun_rows (σ := eraseState done s) fun k (hk : k < j) => row_eraseState he hc hpow (by omega)
  rw [eraseState_zero done hc.1 hsi] at hrun
  exact ⟨_, hrun⟩

theorem engineRun_record {j : Nat} (hs : s.Inv) (hp : s.phase = .aWrite) (hpow : s.powered = true) (hbc : s.bc = 0)
    (hj : j ≤ s.len + 3) : ∃ ts, EngineRun (List.replicate j .ok) s ts (recordState s j) := by
  have hrun := engineRun_rows (σ := recordState s) fun k (hk : k < j) => row_recordState hs hp hpow (by omega)
  rw [recordState_zero hbc] at hrun
  exact ⟨_, hrun⟩

/-- The store after the first `n` slots were erased. -/
def eraseStore (n : Nat) (m : Memory) : Memory := applyWrites ((List.range n).map eraseWrite) m

/-- The store after the first `j` bytes of the record of `p` were written to slot `k`. -/
def recordStore (k : Nat) (p : List Byte) (j : Nat) (m : Memory) : Memory :=
  applyWrites ((List.range j).map (recordWrite k (record p))) m

theorem erasedSlot_eraseStore (hm : m.wf = true) (hk : k < n) : erasedSlot (eraseStore n m) k := by
  rw [erasedSlot, eraseStore, read_eraseWrites n _ hm, slotAddr, if_pos (by omega)]

section RecordStore

variable {p : List Byte} {j i : Nat}

/-- A record touches no other slot (R180). -/
theorem read_recordStore_other (hm : m.wf = true) (hj : j ≤ 64) (hi : i ≠ k) {x : Nat} (hx : x < 64) :
    (recordStore k p j m).read (slotAddr i x) = m.read (slotAddr i x) := by
  rw [recordStore, read_recordWrites k _ _ _ hm, slotAddr, if_neg (by omega)]

theorem slotBytes_recordStore (hm : m.wf = true) (h61 : p.length ≤ 61) :
    slotBytes (recordStore k p (p.length + 3) m) k = record p ++ (slotBytes m k).drop (p.length + 3) := by
  have hlen := record_length p
  apply List.ext_getElem?
  intro j
  by_cases hj : j < 64
  · rw [slotBytes_getElem? _ _ hj, recordStore, read_recordWrites k _ _ _ hm, slotAddr, Nat.add_sub_cancel_left]
    by_cases hrec : j < p.length + 3
    · rw [if_pos (by omega), List.getElem?_append_left (by omega), List.getD_eq_getElem?_getD,
        List.getElem?_eq_getElem (by omega)]
      rfl
    · rw [if_neg (by omega), List.getElem?_append_right (by omega), List.getElem?_drop, hlen,
        show p.length + 3 + (j - (p.length + 3)) = j by omega, slotBytes_getElem? m k hj, slotAddr]
  · rw [List.getElem?_eq_none (by simpa using hj), List.getElem?_eq_none (by simp; omega)]

/-- The slot with a whole record holds its payload (R158). -/
theorem slotString_recordStore (hm : m.wf = true) (hp : isMessage p = true) (h1 : 1 ≤ p.length) (h61 : p.length ≤ 61) :
    slotString (recordStore k p (p.length + 3) m) k = some p := by
  rw [slotString_eq_some_iff, slotBytes_recordStore hm h61]
  exact decodeRecord_record_append hp h1 h61 _

/-- A record behind `k` valid slots, with the slots behind it erased, leaves a clean log (R194 b). -/
theorem clean_of_recordStore (hm : m.wf = true) (hp : isMessage p = true) (h1 : 1 ≤ p.length) (h61 : p.length ≤ 61)
    (hvalid : ∀ i < k, validSlot m i) (herased : ∀ i < u.config.maxEntries, k < i → erasedSlot m i)
    (hk : k < u.config.maxEntries) (hready : u.ready) (hnwi : u.nwi = k + 1)
    (hstore : u.store = recordStore k p (p.length + 3) m) :
    u.clean ∧ u.strings = stringsFrom m 0 k ++ [p] := by
  have hnew := slotString_recordStore (k := k) hm hp h1 h61
  have hold {i : Nat} (hi : i ≠ k) : slotString u.store i = slotString m i := by
    rw [hstore]
    exact slotString_congr fun j hj => read_recordStore_other hm (by omega) hi hj
  rw [← hstore] at hnew
  have hclean : u.clean := by
    refine ⟨hready, fun i hi => ?_, fun i hi hge => ?_⟩
    · by_cases hik : i = k
      · rw [hik, validSlot, hnew]; rfl
      · rw [validSlot, hold hik]
        exact hvalid i (by omega)
    · rw [erasedSlot, hstore, read_recordStore_other hm (by omega) (by omega) (by decide)]
      exact herased i hi (by omega)
  refine ⟨hclean, ?_⟩
  have hall : ∀ i < k, validSlot u.store (0 + i) := fun i hi => by
    rw [Nat.zero_add]
    exact hclean.2.1 i (by omega)
  have hfirst : stringsFrom u.store 0 k = stringsFrom m 0 k := stringsFrom_congr fun i hi => hold (by omega)
  rw [(hclean.strings_eq (by omega)).1, hnwi, (stringsFrom_add hall 1).1, Nat.zero_add, stringsFrom_succ hnew 0, hfirst]
  rfl

end RecordStore

/-! ## APPEND that succeeds -/

/-- Where the record of an APPEND begins: with a log that has room, or after the wraparound erase. -/
structure RecordBegins (m : List Byte) (s t : State) : Prop where
  inv : t.Inv
  phase : t.phase = .aWrite
  powered : t.powered = true
  bc : t.bc = 0
  len : t.len = (payload m).length
  held : t.recordHeld = record (payload m)
  config : t.config = s.config
  out : t.out = s.out

theorem recordBegins_room {m : List Byte} (hs : s.Inv) (hready : s.ready) (hm : isMessage m = true) (hnil : m ≠ [])
    (hroom : s.nwi < s.config.maxEntries) : RecordBegins m s (startRecord (loadMessage m s)) := by
  have hinv := acceptEffect_inv (c := .instr (.append m)) hm hs hready.2
  rw [acceptEffect_append_room hnil hroom] at hinv
  exact ⟨hinv, rfl, hready.1, rfl, rfl, congrArg record (startRecord_loadMessage_take m s), rfl, rfl⟩

theorem engineRun_append_erase {m : List Byte} {j : Nat} (hs : s.Inv) (hready : s.ready)
    (hj : j ≤ s.config.maxEntries) :
    ∃ ts, EngineRun (List.replicate j .ok) (startErase m s) ts (eraseState afterWrap (startErase m s) j) :=
  engineRun_erase (s := startErase m s) erases_aErase hs.1 hready.1 rfl hj

theorem recordBegins_wrapped {m : List Byte} (hs : s.Inv) (hready : s.ready) (hm : isMessage m = true) (hnil : m ≠ [])
    (hfull : s.config.maxEntries ≤ s.nwi) : RecordBegins m s (wrapped m s) := by
  have hinv := acceptEffect_inv (c := .instr (.append m)) hm hs hready.2
  rw [acceptEffect_append_full hnil hfull] at hinv
  obtain ⟨ts, hrun⟩ := engineRun_append_erase (m := m) hs hready le_rfl
  rw [eraseState_startErase_last] at hrun
  exact ⟨hrun.inv hinv, rfl, hready.1, rfl, rfl, congrArg record (wrapped_take m s), rfl, rfl⟩

theorem RecordBegins.engineRun {m : List Byte} {j : Nat} (h : RecordBegins m s t) (hj : j ≤ (payload m).length + 3) :
    ∃ ts, EngineRun (List.replicate j .ok) t ts (recordState t j) :=
  engineRun_record h.inv h.phase h.powered h.bc (h.len ▸ hj)

/-- The state after the whole record. -/
theorem RecordBegins.last {m : List Byte} (h : RecordBegins m s t) :
    ∃ bc, recordState t ((payload m).length + 3) = finish { t with
      bc := bc, nwi := t.nwi + 1, store := recordStore t.nwi (payload m) ((payload m).length + 3) t.store } := by
  rw [← h.len, recordState_last, h.held, h.len]
  exact ⟨_, rfl⟩

/-- The strings held after the record, if it stands behind valid slots and before erased ones. -/
theorem RecordBegins.clean {m : List Byte} (h : RecordBegins m s t) (hm : isMessage m = true) (hnil : m ≠ [])
    (hvalid : ∀ i < t.nwi, validSlot t.store i) (herased : ∀ i < s.config.maxEntries, t.nwi < i → erasedSlot t.store i)
    (port : List Byte) (script : List Move) :
    State.clean ((recordState t ((payload m).length + 3)).withEnv port script) ∧
      ((recordState t ((payload m).length + 3)).withEnv port script).strings =
        stringsFrom t.store 0 t.nwi ++ [m.take 61] := by
  obtain ⟨bc, hlast⟩ := h.last
  obtain ⟨⟨-, -, ⟨hwf, -⟩, -⟩, hnwi, -⟩ := (inv_of_aWrite h.phase).mp h.inv
  have hlen := payload_length m
  have hpos := List.length_pos_iff.mpr hnil
  rw [hlast]
  exact clean_of_recordStore hwf (isMessage_take hm 61) (show 1 ≤ (payload m).length by omega)
    (show (payload m).length ≤ 61 by omega) hvalid (h.config ▸ herased) hnwi ⟨h.powered, rfl⟩ rfl rfl

/-- Settles O55: the record behind the strings held, or alone after the wraparound erase. -/
theorem appendKeepsLogClean : Obligations.AppendKeepsLogClean := by
  intro s m hs hclean hsucc hm hnil
  have hready := hclean.1
  have ⟨_, hvalid, herased⟩ := hclean
  obtain ⟨-, ⟨hnwi, -⟩, ⟨hwf, -⟩, -⟩ := hs.base
  obtain hroom | hfull := Nat.lt_or_eq_of_le hnwi
  · have hbegins := recordBegins_room hs hready hm hnil hroom
    obtain ⟨ts, hrun⟩ := hbegins.engineRun le_rfl
    rw [← acceptEffect_append_room hnil hroom] at hrun
    obtain ⟨t, n, port, script, hexec, hn, -⟩ := exec_run_of_succeeding hready hsucc hrun
    rw [acceptEffect_append_room hnil hroom] at hn
    obtain ⟨hclean', hstrings⟩ := hbegins.clean hm hnil hvalid (fun i hi hlt => herased i hi hlt.le) port script
    obtain ⟨bc, hlast⟩ := hbegins.last
    refine ⟨t, n, _, hexec, hn, hclean', by rw [hlast]; rfl, fun _ => ⟨by rw [hlast]; rfl, ?_⟩, fun h => absurd h hroom.ne⟩
    rw [hstrings, (hclean.strings_eq hnwi).1]
    rfl
  · have hbegins := recordBegins_wrapped hs hready hm hnil hfull.ge
    obtain ⟨ts, herase⟩ := engineRun_append_erase (m := m) hs hready le_rfl
    obtain ⟨ts', hrecord⟩ := hbegins.engineRun le_rfl
    rw [eraseState_startErase_last] at herase
    have hrun := herase.append hrecord
    rw [List.replicate_append_replicate, startErase, ← acceptEffect_append_full hnil hfull.ge] at hrun
    obtain ⟨t, n, port, script, hexec, hn, -⟩ := exec_run_of_succeeding hready hsucc hrun
    obtain ⟨hclean', hstrings⟩ := hbegins.clean hm hnil (fun i hi => absurd hi i.not_lt_zero)
      (fun i hi _ => erasedSlot_eraseStore hwf hi) port script
    obtain ⟨bc, hlast⟩ := hbegins.last
    exact ⟨t, n, _, hexec, hn, hclean', by rw [hlast]; rfl, fun h => absurd hfull h.ne,
      fun _ => ⟨by rw [hlast]; rfl, hstrings⟩⟩

/-! ## ERASEALL that succeeds -/

/-- A log with every slot erased holds no string. -/
theorem strings_of_erased (hready : s.ready) (h : ∀ k < s.config.maxEntries, erasedSlot s.store k) :
    s.strings = [] ∧ (s.nwi = 0 → s.clean) := by
  refine ⟨List.length_eq_zero_iff.mp (strings_of_valid_erased (Nat.zero_le _) (fun k hk => absurd hk k.not_lt_zero) (h 0)).2,
    fun h0 => ⟨hready, fun k hk => absurd hk (by omega), fun k hk _ => h k hk⟩⟩

theorem engineRun_eraseall_ok (hs : s.Inv) (hready : s.ready) :
    ∃ ts u, EngineRun (List.replicate s.config.maxEntries .ok) (acceptEffect (.instr .eraseall) s) ts u ∧ u.Inv ∧ u.ready ∧
      u.config = s.config ∧ u.nwi = s.nwi ∧ u.store = eraseStore s.config.maxEntries s.store := by
  obtain ⟨ts, hrun⟩ := engineRun_erase (s := acceptEffect (.instr .eraseall) s) erases_eWrite hs.1 hready.1 rfl le_rfl
  rw [eraseState_last] at hrun
  exact ⟨ts, _, hrun, hrun.inv (acceptEffect_inv (c := .instr .eraseall) rfl hs hready.2), ⟨hready.1, rfl⟩, rfl, rfl, rfl⟩

/-- Settles O57: after the erase every slot is erased, and RECOVER counts no strings. -/
theorem eraseMakesLogClean : Obligations.EraseMakesLogClean := by
  intro s hs hready hsucc
  obtain ⟨-, -, ⟨hwf, -⟩, -⟩ := hs.base
  have herased {w : State} (hconfig : w.config = s.config) (hstore : w.store = eraseStore s.config.maxEntries s.store) :
      ∀ k < w.config.maxEntries, erasedSlot w.store k := by
    rw [hconfig, hstore]
    exact fun k hk => erasedSlot_eraseStore hwf hk
  obtain ⟨ts, w, hrun, hinv, hw, hconfig, hnwi, hstore⟩ := engineRun_eraseall_ok hs hready
  obtain ⟨t, n, port, script, hexec, hn, hsucc'⟩ := exec_run_of_succeeding hready hsucc hrun
  obtain ⟨hstrings, hclean⟩ := strings_of_erased (s := w.withEnv port script) hw (herased hconfig hstore)
  obtain ⟨t', n', u, hexec', hn', -, hu, hconfig', hstore', hnwi', -⟩ :=
    exec_scan_of_succeeding .recover (s := w.withEnv port script) hinv hw hsucc'
  have hnwi0 : u.nwi = 0 := hnwi'.trans (congrArg List.length hstrings)
  obtain ⟨hstrings', hclean'⟩ := strings_of_erased hu (herased (hconfig'.trans hconfig) (hstore'.trans hstore))
  exact ⟨t, n, _, hexec, hn, hw, hnwi, hstrings, fun h0 => hclean (hnwi.trans h0), t', n', u, hexec', hn', hclean' hnwi0,
    hnwi0, hstrings'⟩

end Sys2Proof.Machine
end

section
/-! # Power lost during a command: what the transactions made before have left (`43_log_fsm.md` R195, `20_memory.md` R65) -/

namespace Sys2Proof.Machine

open ScanCommand

variable {s t u : State} {as : List Answer} {ts : List Transaction} {m : Memory} {c : ScanCommand} {j n : Nat}

/-! ## Runs cut by power loss and reset -/

/-- The engine's turns with their answers at the head of the script. -/
theorem EngineRun.run_script (h : EngineRun as s ts u) (port : List Byte) (rest : List Move) :
    run as.length (s.withEnv port (as.map .engine ++ rest)) = .next (u.withEnv port rest) := by
  induction h with
  | nil => rfl
  | @cons a as s t u tx ts hpow htx hstep _ ih =>
    have hturn := advances_turn (port := port) hpow htx hstep (script := .engine a :: (as.map .engine ++ rest)) rfl
    rw [List.length_cons, Nat.add_comm]
    exact (run_add hturn.run_eq).trans ih

/-- With nothing presented an engine in `IDLE` waits (`30_encoding.md` R95). -/
theorem run_idle (h : s.ready) (k : Nat) (rest : List Move) :
    run k (s.withEnv [] (List.replicate k (.engine .ok) ++ rest)) = .next (s.withEnv [] rest) := by
  induction k with
  | zero => rfl
  | succ k ih =>
    have hwait : step (s.withEnv [] (List.replicate (k + 1) (.engine .ok) ++ rest)) = .next
        (s.withEnv [] (List.replicate k (.engine .ok) ++ rest)) :=
      (step_of_turn (a := .ok) rfl).trans (engineTurn_waiting (s := s.withEnv [] _) h.1 h.2 rfl)
    exact (run_succ_of_step hwait).trans ih

/-- The script of a run that is cut after `j` successful turns. -/
def cutScript (j : Nat) (l : BitVec 6) (b : Buf) : List Move :=
  List.replicate j (.engine .ok) ++ [.powerLoss, .reset l b]

/-- A command cut after `j` turns, the last `k` of which found it ended and nothing on the port: the store and the response stream
are those its transactions left, the volatile state is the reset state (`70_reset_and_hazards.md` R260, R262). -/
theorem exec_cut {i : Instr} {k : Nat} {l : BitVec 6} {b : Buf} (hready : s.ready)
    (hscript : s.script = cutScript (j + k) l b) (ht : acceptEffect (.instr i) s = t)
    (hrun : EngineRun (List.replicate j .ok) t ts u) (hk : k = 0 ∨ (u.ready ∧ t.port = [])) :
    exec i s = .next t ∧ ∃ w, run (j + k + 2) t = .next w ∧ w.volatileReset ∧ w.store = u.store ∧ w.out = u.out := by
  obtain ⟨-, -, htscript, -⟩ := ht ▸ acceptEffect_keeps (.instr i) s
  have hfirst := hrun.run_script t.port (cutScript k l b)
  have henv : t.withEnv t.port ((List.replicate j Answer.ok).map .engine ++ cutScript k l b) = t := by
    rw [List.map_replicate, cutScript, ← List.append_assoc, List.replicate_append_replicate, ← cutScript, ← hscript,
      ← htscript]
    rfl
  rw [henv, List.length_replicate] at hfirst
  have hwait : run k (u.withEnv t.port (cutScript k l b)) = .next (u.withEnv t.port [.powerLoss, .reset l b]) := by
    obtain rfl | ⟨hu, hport⟩ := hk
    · rfl
    · rw [hport]
      exact run_idle hu k _
  refine ⟨ht ▸ exec_of_ready i hready, resetEvent l b (powerLoss (u.withEnv t.port [])), ?_,
    ⟨rfl, rfl, rfl, rfl, rfl, rfl⟩, rfl, rfl⟩
  rw [Nat.add_assoc, run_add hfirst, run_add hwait]
  rfl

/-! ## The states inside the loops of writes -/

theorem recordState_store (s : State) (j : Nat) :
    (recordState s j).store = applyWrites ((List.range j).map (recordWrite s.nwi s.recordHeld)) s.store := by
  unfold recordState
  dsimp only
  split_ifs <;> rfl

theorem recordState_out (hj : j ≤ s.len + 3) :
    (recordState s j).out = s.out ++ (if j = s.len + 3 then [.status .ok] else []) := by
  obtain hlt | rfl := Nat.lt_or_eq_of_le hj
  · rw [recordState_of_lt hlt, if_neg hlt.ne, List.append_nil]
  · rw [recordState_last, if_pos rfl]
    rfl

theorem RecordBegins.store {m : List Byte} (h : RecordBegins m s t) (j : Nat) :
    (recordState t j).store = recordStore t.nwi (payload m) j t.store := by
  rw [recordState_store, h.held]
  rfl

theorem RecordBegins.out_eq {m : List Byte} (h : RecordBegins m s t) (hj : j ≤ (payload m).length + 3) :
    (recordState t j).out = s.out ++ (if j = (payload m).length + 3 then [.status .ok] else []) := by
  rw [recordState_out (h.len ▸ hj), h.len, h.out]

/-- The bytes of a record begun, and the store's others (R195 b). -/
theorem some_read_recordStore (k : Nat) {p : List Byte} (hm : m.wf = true) (hj : j ≤ p.length + 3) (x : Nat) :
    some ((recordStore k p j m).read x) =
      if k * 64 ≤ x ∧ x < k * 64 + j then (record p)[x - k * 64]? else some (m.read x) := by
  rw [recordStore, read_recordWrites k _ _ _ hm]
  split_ifs with h
  · have hlt : x - k * 64 < (record p).length := by rw [record_length]; omega
    rw [List.getD_eq_getElem _ _ hlt, List.getElem?_eq_getElem hlt]
  · rfl

/-- A record begun leaves a first byte that is not null. -/
theorem not_erasedSlot_recordStore {k : Nat} {p : List Byte} (hm : m.wf = true) (hp : isMessage p = true) (h1 : 1 ≤ p.length)
    (hj : 1 ≤ j) : ¬ erasedSlot (recordStore k p j m) k := by
  intro h
  rw [erasedSlot, recordStore, read_recordWrites k _ _ _ hm, slotAddr, if_pos (by omega), record_eq,
    List.getD_append _ _ _ _ (by omega)] at h
  refine getElem?_ne_zero_of_isMessage hp 0 ?_
  rw [← h, Nat.add_zero, Nat.sub_self, List.getD_eq_getElem _ _ h1, List.getElem?_eq_getElem h1]

theorem eraseState_store {done : State → State} (hdone : ∀ u, (done u).store = u.store) (s : State) (j : Nat) :
    (eraseState done s j).store = eraseStore j s.store := by
  unfold eraseState
  dsimp only
  split_ifs
  · rfl
  · exact hdone _

theorem wf_eraseStore (n : Nat) (hm : m.wf = true) : (eraseStore n m).wf = true :=
  wf_applyWrites _ hm

/-! ## A scan cut short -/

/-- Fewer reads than the scan makes: the strings of the slots read so far are emitted (R185). -/
theorem Scanning.engineRun_partial (h : Scanning c s) (hbc : s.bc = 0) (hn : s.si + n = s.config.maxEntries)
    (hj : j < 64 * min ((stringsFrom s.store s.si n).length + 1) n) :
    ∃ ts u, EngineRun (List.replicate j .ok) s ts u ∧ u.store = s.store ∧
      u.out = s.out ++ ((stringsFrom s.store s.si n).take (j / 64)).flatMap c.frames := by
  induction n generalizing s j with
  | zero => omega
  | succ n ih =>
    by_cases hj64 : j < 64
    · obtain ⟨b, ts, hrun⟩ := h.engineRun_bytes (n := j) (by omega)
      exact ⟨ts, _, hrun, rfl, by simp [Nat.div_eq_of_lt hj64]⟩
    cases hd : slotString s.store s.si with
    | none =>
      rw [stringsFrom_of_none hd, List.length_nil] at hj
      omega
    | some str =>
      rw [stringsFrom_succ hd, List.length_cons] at hj
      obtain ⟨ts, hreads, hlen⟩ := wholeReads_ok s.si s.bc 64 0
      obtain ⟨b, u, hrun, hok, -⟩ := h.engineRun_wholeReads (by omega) hreads
      obtain ⟨-, rfl⟩ := hok rfl
      rw [slotString_eq_some_iff.mp hd, onSlot_valid_of_lt c str (by dsimp only; omega), hlen] at hrun
      have hscan : Scanning c _ := ⟨hrun.inv h.inv, h.phase, h.powered⟩
      obtain ⟨ts', u, hrun', hstore, hout⟩ := ih (j := j - 64) hscan rfl (by dsimp only; omega) (by dsimp only; omega)
      have hboth := hrun.append hrun'
      rw [List.take_replicate, List.replicate_append_replicate, show min 64 (64 + 0) + (j - 64) = j by omega] at hboth
      refine ⟨_, u, hboth, hstore, hout.trans ?_⟩
      rw [stringsFrom_succ hd, show j / 64 = (j - 64) / 64 + 1 by omega, List.take_succ_cons, List.flatMap_cons]
      simp

/-- All strings are emitted once the scan has ended. -/
theorem take_strings_of_scanReads_le (h : s.scanReads ≤ j) : s.strings.take (j / 64) = s.strings := by
  obtain ⟨hle, -⟩ := stringsFrom_spec s.store 0 s.config.maxEntries
  have hle : s.strings.length ≤ s.config.maxEntries := hle
  refine List.take_of_length_le ?_
  unfold State.scanReads at h
  omega

/-! ## Power loss in each command -/

section

variable {l : BitVec 6} {b : Buf}

/-- A scan cut by power loss (R195 c). -/
theorem exec_scan_cut (c : ScanCommand) (hs : s.Inv) (hready : s.ready) (hscript : s.script = cutScript j l b)
    (hj : j ≤ s.scanReads ∨ s.port = []) :
    ∃ t w, exec c.instr s = .next t ∧ run (j + 2) t = .next w ∧ w.volatileReset ∧ w.store = s.store ∧
      w.out = s.out ++ (s.strings.take (j / 64)).flatMap c.frames ++ (if s.scanReads ≤ j then [.status .ok] else []) := by
  have hscan := scanning_acceptEffect c hs hready
  rw [acceptEffect_scan] at hscan
  obtain hlt | hge := lt_or_ge j s.scanReads
  · obtain ⟨ts, u, hrun, hstore, hout⟩ := hscan.engineRun_partial (n := s.config.maxEntries) (j := j) rfl (Nat.zero_add _) hlt
    obtain ⟨hexec, w, hw, hreset, hwstore, hwout⟩ := exec_cut (k := 0) hready hscript (acceptEffect_scan c s) hrun (.inl rfl)
    refine ⟨_, w, hexec, hw, hreset, hwstore.trans hstore, ?_⟩
    rw [if_neg (by omega), List.append_nil, hwout, hout]
    rfl
  · obtain ⟨ts, u, hrun, -, hu, -, hstore, -, hout⟩ := engineRun_scan_ok c hs hready
    obtain ⟨k, rfl⟩ := Nat.exists_eq_add_of_le hge
    have hk : k = 0 ∨ (u.ready ∧ (acceptEffect (.instr c.instr) s).port = []) := by
      obtain hle | hport := hj
      · exact .inl (by omega)
      · exact .inr ⟨hu, by rwa [acceptEffect_scan]⟩
    obtain ⟨hexec, w, hw, hreset, hwstore, hwout⟩ := exec_cut hready hscript rfl hrun hk
    refine ⟨_, w, hexec, hw, hreset, hwstore.trans hstore, ?_⟩
    rw [if_pos hge, take_strings_of_scanReads_le hge, hwout, hout]

/-- ERASEALL cut by power loss (R195 a). -/
theorem exec_eraseall_cut (hs : s.Inv) (hready : s.ready) (hscript : s.script = cutScript j l b)
    (hj : j ≤ s.config.maxEntries) :
    ∃ t w, exec .eraseall s = .next t ∧ run (j + 2) t = .next w ∧ w.volatileReset ∧
      w.out = s.out ++ (if j = s.config.maxEntries then [.status .ok] else []) ∧ w.store = eraseStore j s.store := by
  obtain ⟨ts, hrun⟩ := engineRun_erase (s := acceptEffect (.instr .eraseall) s) erases_eWrite hs.1 hready.1 rfl hj
  obtain ⟨hexec, w, hw, hreset, hwstore, hwout⟩ := exec_cut (k := 0) hready hscript rfl hrun (.inl rfl)
  refine ⟨_, w, hexec, hw, hreset, ?_, hwstore.trans (eraseState_store (done := finish) (fun _ => rfl) _ j)⟩
  rw [hwout]
  obtain hlt | rfl := Nat.lt_or_eq_of_le hj
  · rw [eraseState_of_lt (s := acceptEffect _ s) _ hlt, if_neg hlt.ne, List.append_nil]
    rfl
  · rw [if_pos rfl]
    exact congrArg State.out (eraseState_last finish (acceptEffect (.instr .eraseall) s))

/-- APPEND into a log with room, cut by power loss (R195 b). -/
theorem exec_append_cut {m : List Byte} (hs : s.Inv) (hready : s.ready) (hscript : s.script = cutScript j l b)
    (hm : isMessage m = true) (hnil : m ≠ []) (hroom : s.nwi < s.config.maxEntries) (hj : j ≤ (payload m).length + 3) :
    ∃ t w, exec (.append m) s = .next t ∧ run (j + 2) t = .next w ∧ w.volatileReset ∧
      w.out = s.out ++ (if j = (payload m).length + 3 then [.status .ok] else []) ∧
      w.store = recordStore s.nwi (payload m) j s.store := by
  have hbegins := recordBegins_room hs hready hm hnil hroom
  obtain ⟨ts, hrun⟩ := hbegins.engineRun hj
  obtain ⟨hexec, w, hw, hreset, hwstore, hwout⟩ :=
    exec_cut (k := 0) hready hscript (acceptEffect_append_room hnil hroom) hrun (.inl rfl)
  exact ⟨_, w, hexec, hw, hreset, hwout.trans (hbegins.out_eq hj), hwstore.trans (hbegins.store j)⟩

/-- APPEND into a full log, cut by power loss: within the erase or within the record (R195 a, b). -/
theorem exec_append_full_cut {m : List Byte} (hs : s.Inv) (hready : s.ready) (hscript : s.script = cutScript j l b)
    (hm : isMessage m = true) (hnil : m ≠ []) (hfull : s.config.maxEntries ≤ s.nwi)
    (hj : j ≤ s.config.maxEntries + ((payload m).length + 3)) :
    ∃ t w, exec (.append m) s = .next t ∧ run (j + 2) t = .next w ∧ w.volatileReset ∧
      w.out = s.out ++ (if j = s.config.maxEntries + ((payload m).length + 3) then [.status .ok] else []) ∧
      w.store = recordStore 0 (payload m) (j - s.config.maxEntries) (eraseStore (min j s.config.maxEntries) s.store) := by
  have haccept : acceptEffect _ s = startErase m s := acceptEffect_append_full hnil hfull
  obtain hlt | hge := lt_or_ge j s.config.maxEntries
  · obtain ⟨ts, hrun⟩ := engineRun_append_erase (m := m) hs hready hlt.le
    obtain ⟨hexec, w, hw, hreset, hwstore, hwout⟩ := exec_cut (k := 0) hready hscript haccept hrun (.inl rfl)
    refine ⟨_, w, hexec, hw, hreset, ?_, ?_⟩
    · rw [hwout, eraseState_of_lt (s := startErase m s) _ hlt, if_neg (by omega), List.append_nil]
      rfl
    · rw [hwstore, eraseState_store (done := afterWrap) (fun _ => rfl), Nat.sub_eq_zero_of_le hlt.le, Nat.min_eq_left hlt.le]
      rfl
  · obtain ⟨d, rfl⟩ := Nat.exists_eq_add_of_le hge
    have hbegins := recordBegins_wrapped hs hready hm hnil hfull
    obtain ⟨ts, herase⟩ := engineRun_append_erase (m := m) hs hready le_rfl
    obtain ⟨ts', hrecord⟩ := hbegins.engineRun (j := d) (by omega)
    rw [eraseState_startErase_last] at herase
    have hrun := herase.append hrecord
    rw [List.replicate_append_replicate] at hrun
    obtain ⟨hexec, w, hw, hreset, hwstore, hwout⟩ := exec_cut (k := 0) hready hscript haccept hrun (.inl rfl)
    refine ⟨_, w, hexec, hw, hreset, ?_, ?_⟩
    · rw [hwout, hbegins.out_eq (by omega)]
      simp only [Nat.add_left_cancel_iff]
    · rw [hwstore, hbegins.store, Nat.add_sub_cancel_left, Nat.min_eq_right hge]
      rfl

end

/-- Settles O58: each command cut after `j` turns, and the bytes its writes left. -/
theorem powerLossLeavesWrittenPrefix : Obligations.PowerLossLeavesWrittenPrefix := by
  intro s j l b hs hready hscript
  obtain ⟨-, -, ⟨hwf, -⟩, -⟩ := hs.base
  refine ⟨fun m hm hnil hroom hj => ?_, fun m hm hnil hfull hj => ?_, fun hj => ?_, fun hj => ⟨?_, ?_⟩⟩
  · have hlen : min m.length 61 = (payload m).length := by rw [payload_length, Nat.min_comm]
    have hpos := List.length_pos_iff.mpr hnil
    have hp : isMessage (payload m) = true := isMessage_take hm 61
    rw [hlen] at hj ⊢
    obtain ⟨t, w, hexec, hw, hreset, hout, hstore⟩ := exec_append_cut hs hready hscript hm hnil hroom hj
    refine ⟨t, w, _, hexec, hw, encodeRecord_of_ne_nil hnil, hreset, hout, ?_, fun h1 => ?_, ?_⟩
    · rw [hstore]
      exact some_read_recordStore s.nwi hwf hj
    · rw [hstore]
      exact not_erasedSlot_recordStore hwf hp (by omega) h1
    · rintro rfl
      rw [hstore]
      exact slotString_recordStore hwf hp (by omega) (by omega)
  · have hlen : min m.length 61 = (payload m).length := by rw [payload_length, Nat.min_comm]
    rw [hlen, Nat.add_assoc] at hj ⊢
    obtain ⟨t, w, hexec, hw, hreset, hout, hstore⟩ := exec_append_full_cut hs hready hscript hm hnil hfull.ge hj
    refine ⟨t, w, _, hexec, hw, encodeRecord_of_ne_nil hnil, hreset, hout, fun x => ?_⟩
    rw [hstore, some_read_recordStore 0 (wf_eraseStore _ hwf) (by omega), eraseStore, read_eraseWrites _ _ hwf]
    simp only [Nat.zero_mul, Nat.zero_le, true_and, Nat.zero_add, Nat.sub_zero, apply_ite some]
    rfl
  · obtain ⟨t, w, hexec, hw, hreset, hout, hstore⟩ := exec_eraseall_cut hs hready hscript hj
    refine ⟨t, w, hexec, hw, hreset, hout, fun x => ?_⟩
    rw [hstore, eraseStore, read_eraseWrites j x hwf]
  · have hcut := exec_scan_cut .readall hs hready hscript hj
    simp only [flatMap_frames_readall] at hcut
    exact hcut
  · have hcut := exec_scan_cut .recover hs hready hscript hj
    simp only [flatMap_frames_recover, List.append_nil] at hcut
    exact hcut

end Sys2Proof.Machine
end

section
/-! # The system commands and the answer to an illegal opcode (`44_system.md` R220 to R222) -/

namespace Sys2Proof.Machine

variable {s : State} {a : Answer}

/-! ## A command that ends in its accept step -/

/-- An engine in `IDLE` that ends a command stays there: only the STATUS frame is new. -/
theorem raise_of_idle (e : Status) (h : s.phase = .idle) : raise e s = { s with out := s.out ++ [.status e] } := by
  rw [raise, emit, ← h]

theorem finish_of_idle (h : s.phase = .idle) : finish s = { s with out := s.out ++ [.status .ok] } :=
  raise_of_idle .ok h

/-! ## NOP and GETIDX -/

theorem exec_nop (h : s.ready) : exec .nop s = .next { s with out := s.out ++ [.status .ok] } := by
  rw [exec_of_ready _ h, acceptEffect, finish_of_idle h.2]

theorem exec_getidx (h : s.ready) :
    exec .getidx s = .next { s with out := s.out ++ [.u16 (BitVec.ofNat 16 s.nwi), .status .ok] } := by
  rw [exec_of_ready _ h, acceptEffect, finish_of_idle (s := emit _ s) h.2, emit, List.append_assoc]
  rfl

theorem State.Inv.nwi_le (h : s.Inv) : s.nwi ≤ s.config.maxEntries :=
  have ⟨_, ⟨hnwi, _⟩, _⟩ := h
  hnwi

/-- `NWI` fits the 16 bits that GETIDX emits (`44_system.md` R221). -/
theorem State.Inv.nwi_lt (h : s.Inv) : s.nwi < 65536 := by
  have hnwi := h.nwi_le
  obtain ⟨-, h1024, -⟩ := h.base.1
  omega

/-- Settles O22: NOP is its opcode alone, and `exec_nop`. -/
theorem nopCompletes : Obligations.NopCompletes :=
  ⟨rfl, fun _ => ⟨rfl, rfl, rfl⟩, fun _ h => exec_nop h, rfl⟩

/-- Settles O23: `exec_getidx`, and under the invariant `NWI` fits a word. -/
theorem getidxCompletes : Obligations.GetidxCompletes := by
  refine ⟨rfl, fun s hready => ?_, fun _ => rfl⟩
  have hv : (BitVec.ofNat 16 s.nwi).toNat = s.nwi % 65536 := BitVec.toNat_ofNat s.nwi 16
  exact ⟨_, hv, fun hs => ⟨hv.trans (Nat.mod_eq_of_lt hs.nwi_lt), hs.nwi_le⟩, exec_getidx hready⟩

/-! ## Illegal opcodes -/

/-- The bytes outside the opcode map (`30_encoding.md` R99). -/
theorem framed_illegal_iff (op : Byte) :
    (Cmd.illegal op).framed ↔ (0x06 ≤ op.toNat ∧ op.toNat ≤ 0x0F) ∨ (0x13 ≤ op.toNat ∧ op.toNat ≤ 0xFF) := by
  simp only [Cmd.framed, List.mem_cons, List.not_mem_nil, or_false]
  bv_omega

/-- A byte decodes as an illegal opcode when the opcode map lacks it, and is then the whole frame (`30_encoding.md` R99). -/
theorem decodeFrame_illegal_iff (op : Byte) (rest : List Byte) :
    decodeFrame (op :: rest) = some (.illegal op, rest) ↔ (Cmd.illegal op).framed :=
  ⟨fun h => (framed_of_decodeFrame h).1, fun h => decodeFrame_encodeCmd h rest⟩

/-- The engine's turn takes the illegal opcode off the port and answers it (`44_system.md` R222). -/
theorem step_illegal {op : Byte} {rest : List Byte} (hturn : s.turn = some a) (hready : s.ready)
    (hport : s.port = op :: rest) (hop : (Cmd.illegal op).framed) :
    step s = .next { s with port := rest, script := s.script.tail, out := s.out ++ [.status .illegalCommand] } := by
  have hdecode : decodeFrame s.popped.port = some (.illegal op, rest) :=
    hport ▸ (decodeFrame_illegal_iff op rest).mpr hop
  rw [step_of_turn hturn, engineTurn_accept (s := s.popped) hready.1 hready.2 hdecode, acceptEffect,
    raise_of_idle (s := { s.popped with port := rest }) _ hready.2]
  rfl

/-- Settles O20: the illegal bytes are those of `framed_illegal_iff`, and the engine's turn is `step_illegal`. -/
theorem illegalOpcodeIsAnswered : Obligations.IllegalOpcodeIsAnswered :=
  ⟨fun op rest => (decodeFrame_illegal_iff op rest).trans (framed_illegal_iff op), by decide +kernel,
    fun _ _ op _ hturn hready hport hop => step_illegal hturn hready hport ((framed_illegal_iff op).mpr hop), rfl⟩

end Sys2Proof.Machine
end

section
/-! # Errors, hangs, faults, and the block without power (`60_exceptions.md`) -/

namespace Sys2Proof.Machine

variable {s t : State} {a : Answer}

/-! ## The error entry -/

/-- A failed write is the IOError entry, with whatever the environment left at the address (`20_memory.md` R64). -/
theorem engineStep_write_failed {addr : Nat} {v : Byte} (left : Byte) (hs : s.Inv)
    (htx : s.transaction = some (.write addr v)) :
    engineStep (.err left) s = .next (raise .ioError { s with store := Memory.write s.store addr left }) := by
  obtain ⟨t, ht⟩ := engineStep_exists_next hs (.err left)
  obtain ⟨k, -, hrow⟩ := engineStep_of_write htx
  obtain ⟨-, ⟨ha, -⟩ | ⟨l, ha, rfl⟩ | ⟨ha, -⟩⟩ := writeTransaction_next ((hrow _).symm.trans ht) <;> cases ha
  exact ht

/-- A failed read is the IOError entry alone (`20_memory.md` R63). -/
theorem engineStep_read_failed {addr : Nat} (left : Byte) (hs : s.Inv) (htx : s.transaction = some (.read addr)) :
    engineStep (.err left) s = .next (raise .ioError s) := by
  obtain ⟨t, ht⟩ := engineStep_exists_next hs (.err left)
  obtain ⟨-, onSlot, -, hrow⟩ := engineStep_of_read htx
  obtain ⟨-, -, ⟨ha, -⟩ | ⟨⟨l, ha⟩, rfl⟩ | ⟨ha, -⟩⟩ := slotReadStep_next ((hrow _).symm.trans ht) <;> cases ha
  exact ht

/-- Settles O33: IOError by the kind of the phase's transaction, the two errors of the accept step by `acceptEffect`; each is
`raise`. -/
theorem errorEntrySavesNothing : Obligations.ErrorEntrySavesNothing := by
  refine ⟨fun s left hs hturn hpow hbusy => ?_, fun s hready => ?_, fun s op hready => ?_⟩
  · have hinv : s.popped.Inv := hs
    obtain ⟨t, ht⟩ := engineStep_exists_next hs .ok
    obtain ⟨tx, htx⟩ := exists_transaction hbusy ht
    rw [step_of_busy_turn hturn hpow hbusy, htx]
    cases tx with
    | read addr => exact engineStep_read_failed left hinv htx
    | write addr v => exact engineStep_write_failed left hinv htx
  · rw [exec_of_ready _ hready, acceptEffect_append_nil]
    rfl
  · rw [execIllegal_eq_accept, accept_of_ready _ hready]
    rfl

/-! ## A store that never answers -/

theorem popped_of_script_nil (h : s.script = []) : s.popped = s := by
  rw [State.popped, h, List.tail_nil, ← h]

/-- A transaction without an answer is a step to the same state (`20_memory.md` R66). -/
theorem step_unanswered (hs : s.Inv) (hpow : s.powered = true) (hbusy : s.phase ≠ .idle) (hscript : s.script = [])
    (hnone : s.thereafter = .none) : step s = .next s := by
  have hturn : s.turn = some .none := by rw [State.turn, hscript, hnone]
  rw [step_of_busy_turn hturn hpow hbusy, popped_of_script_nil hscript, engineStep_unanswered hs]

theorem run_of_step_self (h : step s = .next s) (n : Nat) : run n s = .next s := by
  induction n with
  | zero => rfl
  | succ n ih => rw [run_succ_of_step h, ih]

/-- Settles O34: `step_unanswered`, over a run. -/
theorem unansweredTransactionWaitsForever : Obligations.UnansweredTransactionWaitsForever :=
  fun _ n hs hpow hbusy hscript hnone => run_of_step_self (step_unanswered hs hpow hbusy hscript hnone) n

/-! ## What is refused -/

/-- No turn of the engine is refused: the accept step is taken only where its guard holds (`43_log_fsm.md` R175). -/
theorem engineTurn_not_refused (r : Refusal) : engineTurn a s ≠ .refused r := by
  obtain he | ⟨-, -, c, rest, -, he⟩ | ⟨-, -, he⟩ := engineTurn_cases a s <;> rw [he]
  · simp
  · simp
  · exact engineStep_not_refused r

theorem move_refused {m : Move} {r : Refusal} (h : move m s = .refused r) :
    (∃ addr v, m = .extWrite addr v) ∨ ∃ addr, m = .extRead addr := by
  cases m with
  | engine a => exact absurd h (engineTurn_not_refused r)
  | present _ | powerLoss | reset _ _ => cases h
  | extWrite addr v => exact .inl ⟨addr, v, rfl⟩
  | extRead addr => exact .inr ⟨addr, rfl⟩

/-- Settles O40: `step_not_fault`, and `move_refused` for the move at the head of the script. -/
theorem engineNeverFaults : Obligations.EngineNeverFaults := by
  refine fun s hs => ⟨step_not_fault hs, fun r h => ?_⟩
  obtain ⟨a, -, he⟩ | ⟨m, hm, -, he⟩ := step_cases s <;> rw [he] at h
  · exact absurd h (engineTurn_not_refused r)
  · obtain ⟨addr, v, rfl⟩ | ⟨addr, rfl⟩ := move_refused h
    · exact .inl ⟨addr, v, hm⟩
    · exact .inr ⟨addr, hm⟩

/-! ## Without power -/

/-- Without power a move other than reset changes at most the port (`60_exceptions.md` R251, `70_reset_and_hazards.md` R261). -/
theorem move_unpowered {m : Move} (hpow : s.powered = false) (hm : m.isReset = false) (h : move m s = .next t) :
    t = s.withEnv t.port s.script := by
  have hbusy : ¬ s.ready := fun hready => Bool.false_ne_true (hpow.symm.trans hready.1)
  cases m with
  | engine a => rw [move, engineTurn_unpowered hpow] at h; cases h; rfl
  | present bs => cases h; rfl
  | powerLoss => cases h; rw [powerLoss, ← hpow]; rfl
  | reset l b => cases hm
  | extWrite addr v => rw [move, extWrite, foreignAccess_of_busy _ hbusy] at h; cases h
  | extRead addr => rw [move, extRead, foreignAccess_of_busy _ hbusy] at h; cases h

theorem step_unpowered (hpow : s.powered = false) (hm : ∀ m, s.script.head? = some m → m.isReset = false)
    (h : step s = .next t) : t = s.withEnv t.port s.script.tail := by
  obtain ⟨a, -, he⟩ | ⟨m, hhead, -, he⟩ := step_cases s <;> rw [he] at h
  · exact move_unpowered (s := s.popped) (m := .engine a) hpow rfl h
  · exact move_unpowered (s := s.popped) hpow (hm m hhead) h

/-- A run that ends took its first step and then ran on. -/
theorem exists_step_of_run_succ {n : Nat} (h : run (n + 1) s = .next t) : ∃ u, step s = .next u ∧ run n u = .next t := by
  cases hs : step s with
  | next u => exact ⟨u, rfl, (run_succ_of_step hs).symm.trans h⟩
  | fault r => rw [run_succ_of_fault hs] at h; cases h
  | refused r => rw [run_succ_of_refused hs] at h; cases h

theorem run_unpowered {n : Nat} (hpow : s.powered = false) (hm : ∀ m ∈ s.script.take n, m.isReset = false)
    (h : run n s = .next t) : t = s.withEnv t.port t.script := by
  induction n generalizing s with
  | zero => cases h; rfl
  | succ n ih =>
    obtain ⟨u, hstep, hrun⟩ := exists_step_of_run_succ h
    have hhead : ∀ m, s.script.head? = some m → m.isReset = false := fun m hs =>
      hm m (List.mem_of_mem_head? (by rw [List.head?_take, if_neg n.succ_ne_zero, hs]; rfl))
    have hu := step_unpowered hpow hhead hstep
    have hscript : u.script = s.script.tail := by rw [hu, withEnv_script]
    have htail : ∀ m ∈ u.script.take n, m.isReset = false := fun m hmem =>
      hm m (List.mem_of_mem_tail (by rwa [List.tail_take_eq_take_tail, Nat.add_sub_cancel, ← hscript]))
    have ht := ih (by rw [hu]; exact hpow) htail hrun
    rwa [hu] at ht

/-- Settles O45: power loss is its own move, and then `run_unpowered`. -/
theorem unpoweredBlockIsStill : Obligations.UnpoweredBlockIsStill := by
  refine ⟨fun s rest hs => step_of_script hs, fun s t n hpow hm h => run_unpowered hpow (fun m hmem => ?_) h⟩
  simpa using List.all_eq_true.mp hm m hmem

/-! ## The host's bytes -/

/-- Settles O60: `step_of_present`. -/
theorem presentedBytesJoinThePort : Obligations.PresentedBytesJoinThePort :=
  fun _ _ _ hs => step_of_present hs

end Sys2Proof.Machine
end

section
/-! # The reset event, and the recovery after it (`70_reset_and_hazards.md` R260, R263) -/

namespace Sys2Proof

/-! ## The frames that survive a reset -/

theorem encodeCmd_length_pos (c : Cmd) : 0 < (encodeCmd c).length := by
  cases c <;> exact Nat.succ_pos _

theorem takeFrames_of_incomplete {s : List Byte} (h : decodeFrame s = none) (n : Nat) : takeFrames n s = [] := by
  cases n with
  | zero => rfl
  | succ n => rw [takeFrames, h]

theorem takeFrames_succ {f rest : List Byte} {c : Cmd} (h : decodeFrame (f ++ rest) = some (c, rest)) (n : Nat) :
    takeFrames (n + 1) (f ++ rest) = f ++ takeFrames n rest := by
  simp [takeFrames, h]

/-- Frames of commands and an incomplete one behind them: only the former are taken. -/
theorem takeFrames_flatMap_encodeCmd {cs : List Cmd} {part : List Byte} {n : Nat}
    (hn : (cs.flatMap encodeCmd ++ part).length ≤ n)
    (hcs : ∀ c ∈ cs, ∀ rest, decodeFrame (encodeCmd c ++ rest) = some (c, rest)) (hpart : decodeFrame part = none) :
    takeFrames n (cs.flatMap encodeCmd ++ part) = cs.flatMap encodeCmd := by
  induction cs generalizing n with
  | nil => exact takeFrames_of_incomplete hpart n
  | cons c cs ih =>
    have hpos := encodeCmd_length_pos c
    rw [List.forall_mem_cons] at hcs
    rw [List.flatMap_cons, List.append_assoc] at hn ⊢
    rw [List.length_append] at hn
    cases n with
    | zero => omega
    | succ n => rw [takeFrames_succ (hcs.1 _), ih (by omega) hcs.2]

namespace Machine

variable {s : State} {l : BitVec 6} {b : Buf}

theorem step_of_reset {rest : List Move} (h : s.script = .reset l b :: rest) :
    step s = .next (resetEvent l b { s with script := rest }) :=
  step_of_script h

/-- Settles O44: the reset move is `resetEvent`, and the frames it keeps on the port are `takeFrames_flatMap_encodeCmd`. -/
theorem resetEventEffect : Obligations.ResetEventEffect :=
  ⟨fun _ _ _ _ h => step_of_reset h, fun _ _ hcs hpart => takeFrames_flatMap_encodeCmd le_rfl hcs hpart⟩

/-! ## Recovery after a reset -/

/-- The state after the reset event with the engine in `IDLE`, whatever `AUTO_RECOVER` is. -/
def resetIdle (l : BitVec 6) (b : Buf) (s : State) : State :=
  { resetEvent l b s with phase := .idle }

/-- With automatic recovery the reset event is followed by what RECOVER's accept step would start (R263). -/
theorem resetEvent_of_autoRecover (h : s.config.autoRecover = true) :
    resetEvent l b s = acceptEffect (.instr .recover) (resetIdle l b s) := by
  simp [acceptEffect, resetIdle, resetEvent, h]

theorem resetIdle_inv (l : BitVec 6) (b : Buf) (h : s.Inv) : (resetIdle l b s).Inv :=
  (inv_of_idle rfl).mpr (resetEvent_inv l b h).base

/-- The recovery a reset starts runs to its end where every transaction succeeds (R263, `43_log_fsm.md` R190). -/
theorem exists_run_resetEvent (hs : s.Inv) (hauto : s.config.autoRecover = true)
    (hsucc : s.succeeding) : ∃ n u, run n (resetEvent l b s) = .next u ∧ Scanned .recover (resetIdle l b s) u := by
  obtain ⟨ts, u, hrun, hinv, hu, hconfig, hstore, hnwi, hout⟩ :=
    engineRun_scan_ok .recover (resetIdle_inv l b hs) ⟨rfl, rfl⟩
  obtain ⟨n, port, script, hn, -⟩ :=
    hrun.exists_run_of_succeeding (succeeding_acceptEffect .recover (s := resetIdle l b s) hsucc)
  rw [resetEvent_of_autoRecover hauto]
  exact ⟨n, _, hn, hinv, hu, hconfig, hstore, hnwi, hout⟩

/-- Settles O47: the reset ends in `IDLE`, or starts the scan of RECOVER, which runs to its end. -/
theorem autoRecoverRunsRecovery : Obligations.AutoRecoverRunsRecovery := by
  intro s l b hs hscript hthen
  refine ⟨_, step_of_reset hscript, fun hauto => ?_, fun hauto => ?_⟩
  · exact ⟨⟨rfl, by simp [hauto]⟩, rfl, rfl⟩
  · obtain ⟨n, u, hrun, -, hu, -, hstore, hnwi, hout⟩ :=
      exists_run_resetEvent (s := { s with script := [] }) (l := l) (b := b) hs hauto ⟨rfl, hthen⟩
    rw [flatMap_frames_recover, List.append_nil] at hout
    exact ⟨if_pos hauto, rfl, rfl, n, u, hrun, hu, hnwi, hstore, hout⟩

end Machine

end Sys2Proof
end

section
/-! # Parameters no step observes: `T_SETTLE`, and `STORE_SIZE` beyond the log (`70_reset_and_hazards.md` R280,
`92_eei_decisions.md` D4) -/

namespace Sys2Proof

/-! ## Parameters changed -/

/-- The parameters with another `T_SETTLE`. -/
def Config.withTSettle (d : Nat) (c : Config) : Config :=
  { c with tSettle := d }

/-- The parameters with another `STORE_SIZE`. -/
def Config.withStoreSize (n : Nat) (c : Config) : Config :=
  { c with storeSize := n }

namespace Machine

variable {s : State} {a : Answer} {f : Config → Config}

/-- The change leaves `MAX_ENTRIES`, the one parameter the engine counts with. -/
def KeepsMaxEntries (f : Config → Config) : Prop :=
  ∀ c, (f c).maxEntries = c.maxEntries

/-- The state with its parameters changed by `f`. -/
def State.mapConfig (f : Config → Config) (s : State) : State :=
  { s with config := f s.config }

/-- The outcome with `f` applied to the next state, if there is one. -/
def mapNext (f : State → State) : Host.Outcome State Fault Refusal → Host.Outcome State Fault Refusal
  | .next t => .next (f t)
  | .fault r => .fault r
  | .refused r => .refused r

/-- The store has the address of the engine's next transaction after the change exactly if it had it before. -/
def State.SameReach (s : State) (f : Config → Config) : Prop :=
  ∀ tx, s.transaction = some tx → (tx.addr < (f s.config).storeSize ↔ tx.addr < s.config.storeSize)

theorem mapConfig_maxEntries (hf : KeepsMaxEntries f) (s : State) :
    (s.mapConfig f).config.maxEntries = s.config.maxEntries :=
  hf s.config

theorem acceptEffect_mapConfig (hf : KeepsMaxEntries f) (c : Cmd) (s : State) :
    acceptEffect c (s.mapConfig f) = (acceptEffect c s).mapConfig f := by
  cases c with
  | illegal op => rfl
  | instr i =>
    cases i with
    | append m =>
      simp only [acceptEffect, mapConfig_maxEntries hf, apply_ite (State.mapConfig f)]
      rfl
    | nop | readall | eraseall | recover | getidx | crcinit | crcbyte _ | crcread => rfl

theorem readTransaction_mapConfig {addr : Nat} {k k' : Byte → State}
    (haddr : addr < (f s.config).storeSize ↔ addr < s.config.storeSize) (hk : ∀ v, k' v = (k v).mapConfig f) :
    readTransaction addr a k' (s.mapConfig f) = mapNext (State.mapConfig f) (readTransaction addr a k s) := by
  have haddr' : addr < (s.mapConfig f).config.storeSize ↔ addr < s.config.storeSize := haddr
  unfold readTransaction
  rw [if_congr haddr' rfl rfl]
  split
  · cases a with
    | ok => exact congrArg _ (hk _)
    | err left => rfl
    | none => rfl
  · rfl

theorem writeTransaction_mapConfig {addr : Nat} {v : Byte} {k : State → State}
    (haddr : addr < (f s.config).storeSize ↔ addr < s.config.storeSize)
    (hk : ∀ u : State, k (u.mapConfig f) = (k u).mapConfig f) :
    writeTransaction addr v a k (s.mapConfig f) = mapNext (State.mapConfig f) (writeTransaction addr v a k s) := by
  have haddr' : addr < (s.mapConfig f).config.storeSize ↔ addr < s.config.storeSize := haddr
  unfold writeTransaction
  rw [if_congr haddr' rfl rfl]
  split
  · cases a with
    | ok => exact congrArg _ (hk { s with store := Memory.write s.store addr v })
    | err left => rfl
    | none => rfl
  · rfl

theorem readallSlot_mapConfig (hf : KeepsMaxEntries f) (r : Verdict) (u : State) :
    readallSlot r (u.mapConfig f) = (readallSlot r u).mapConfig f := by
  cases r with
  | invalid => rfl
  | valid str =>
    simp only [readallSlot_valid, mapConfig_maxEntries hf, apply_ite (State.mapConfig f)]
    rfl

theorem recoverSlot_mapConfig (hf : KeepsMaxEntries f) (r : Verdict) (u : State) :
    recoverSlot r (u.mapConfig f) = (recoverSlot r u).mapConfig f := by
  cases r with
  | invalid => rfl
  | valid str =>
    simp only [recoverSlot, mapConfig_maxEntries hf, apply_ite (State.mapConfig f)]
    rfl

theorem slotReadStep_mapConfig {onSlot : Verdict → State → State}
    (haddr : slotAddr s.si s.bc < (f s.config).storeSize ↔ slotAddr s.si s.bc < s.config.storeSize)
    (hon : ∀ (r : Verdict) (u : State), onSlot r (u.mapConfig f) = (onSlot r u).mapConfig f) :
    slotReadStep onSlot a (s.mapConfig f) = mapNext (State.mapConfig f) (slotReadStep onSlot a s) := by
  unfold slotReadStep
  rw [apply_ite (mapNext (State.mapConfig f)), ← readTransaction_mapConfig haddr fun v => ?_]
  · rfl
  · let b := s.buf.setIfInBounds s.bc v
    have hslot := hon (decodeRecord b.toList) { s with buf := b, crc := decodeCrc b.toList s.crc }
    rw [apply_ite (State.mapConfig f)]
    exact if_congr Iff.rfl rfl hslot

theorem engineStep_mapConfig (hf : KeepsMaxEntries f) (hs : s.SameReach f) :
    engineStep a (s.mapConfig f) = mapNext (State.mapConfig f) (engineStep a s) := by
  have hphase : (s.mapConfig f).phase = s.phase := rfl
  unfold State.SameReach State.transaction at hs
  unfold engineStep
  rw [hphase]
  cases hp : s.phase <;> simp only [hp] at hs
  case idle => rfl
  case aErase | eWrite =>
    refine writeTransaction_mapConfig (hs _ rfl) fun u => ?_
    rw [mapConfig_maxEntries hf, apply_ite (State.mapConfig f)]
    rfl
  case aWrite =>
    have hbuf : (s.mapConfig f).buf[(s.mapConfig f).bc]? = s.buf[s.bc]? := rfl
    dsimp only [stepAWrite]
    rw [hbuf]
    cases hv : s.buf[s.bc]? with
    | none => rfl
    | some v =>
      refine writeTransaction_mapConfig (hs (.write (slotAddr s.nwi s.bc) v) (by rw [hv]; rfl)) fun u => ?_
      rw [apply_ite (State.mapConfig f)]
      rfl
  case rRead => exact slotReadStep_mapConfig (hs _ rfl) (readallSlot_mapConfig hf)
  case vRead => exact slotReadStep_mapConfig (hs _ rfl) (recoverSlot_mapConfig hf)

/-- The engine's turn does not observe a change of the parameters that leaves `MAX_ENTRIES` and the reach of its transaction. -/
theorem engineTurn_mapConfig (hf : KeepsMaxEntries f) (hs : s.SameReach f) :
    engineTurn a (s.mapConfig f) = mapNext (State.mapConfig f) (engineTurn a s) := by
  by_cases hp : s.powered = true
  · by_cases hi : s.phase = .idle
    · cases hd : decodeFrame s.port with
      | none => rw [engineTurn_waiting hp hi hd, engineTurn_waiting (s := s.mapConfig f) hp hi hd]; rfl
      | some frame =>
        rw [engineTurn_accept hp hi hd, engineTurn_accept (s := s.mapConfig f) hp hi hd]
        exact congrArg _ (acceptEffect_mapConfig hf _ { s with port := frame.2 })
    · rw [engineTurn_busy hp hi, engineTurn_busy (s := s.mapConfig f) hp hi, engineStep_mapConfig hf hs]
  · have hp' := Bool.eq_false_iff.mpr hp
    rw [engineTurn_unpowered hp', engineTurn_unpowered (s := s.mapConfig f) hp']
    rfl

/-! ## Every step, with another settle delay -/

theorem foreignAccess_withTSettle {addr : Word} {g : State → State} (d : Nat) (s : State)
    (hg : ∀ u : State, g (u.mapConfig (Config.withTSettle d)) = (g u).mapConfig (Config.withTSettle d)) :
    foreignAccess addr g (s.mapConfig (Config.withTSettle d)) =
      mapNext (State.mapConfig (Config.withTSettle d)) (foreignAccess addr g s) := by
  unfold foreignAccess
  rw [hg, apply_ite (mapNext _), apply_ite (mapNext _)]
  rfl

theorem move_withTSettle (m : Move) (d : Nat) (s : State) :
    move m (s.mapConfig (Config.withTSettle d)) = mapNext (State.mapConfig (Config.withTSettle d)) (move m s) := by
  cases m with
  | engine a => exact engineTurn_mapConfig (fun _ => rfl) fun _ _ => Iff.rfl
  | present _ | powerLoss | reset _ _ => rfl
  | extWrite addr v =>
    exact foreignAccess_withTSettle (g := fun u => { u with store := u.store.write addr.toNat v }) d s fun _ => rfl
  | extRead addr => exact foreignAccess_withTSettle (g := id) d s fun _ => rfl

/-- No step observes `T_SETTLE` (`70_reset_and_hazards.md` R280). -/
theorem step_withTSettle (d : Nat) (s : State) :
    step (s.mapConfig (Config.withTSettle d)) = mapNext (State.mapConfig (Config.withTSettle d)) (step s) := by
  rw [step_eq_move, step_eq_move s]
  exact move_withTSettle _ d s.popped

/-! ## The engine, with another store -/

/-- Every store that holds the log has the addresses the engine uses (`20_memory.md` R51, D4). -/
theorem sameReach_withStoreSize {n : Nat} (hs : s.Inv) (hn : s.config.maxEntries * 64 ≤ n) :
    s.SameReach (Config.withStoreSize n) := by
  intro tx htx
  obtain ⟨slot, offset, hslot, hoffset, haddr, -⟩ := transaction_addr hs htx
  have hlog : tx.addr < s.config.maxEntries * 64 := by rw [haddr, slotAddr]; omega
  obtain ⟨-, -, hsize, -⟩ := hs.base.1
  exact iff_of_true (hlog.trans_le hn) (hlog.trans_le hsize)

theorem engineTurn_exists_next (hs : s.Inv) (a : Answer) : ∃ t, engineTurn a s = .next t := by
  cases he : engineTurn a s with
  | next t => exact ⟨t, rfl⟩
  | fault r => exact absurd he (engineTurn_not_fault hs r)
  | refused r => exact absurd he (engineTurn_not_refused r)

/-- Settles O43: `step_withTSettle`; and the engine's turn, which reaches no address beyond the log. -/
theorem settleDelayHasNoEffect : Obligations.SettleDelayHasNoEffect := by
  refine ⟨fun s d => (step_withTSettle d s).trans ?_, fun s n hs hturn hn => ?_⟩
  · cases step s <;> rfl
  · obtain ⟨a, ha⟩ := Option.isSome_iff_exists.mp hturn
    obtain ⟨t, ht⟩ := engineTurn_exists_next (s := s.popped) hs a
    refine ⟨t, (step_of_turn ha).trans ht, ?_⟩
    have hturn' := engineTurn_mapConfig (f := Config.withStoreSize n) (a := a) (fun _ => rfl)
      (sameReach_withStoreSize (s := s.popped) hs hn)
    rw [ht] at hturn'
    exact (step_of_turn (s := s.mapConfig (Config.withStoreSize n)) ha).trans hturn'

end Machine

end Sys2Proof
end
